-- ==== Sys2Proof/Word.lean ====
section
/-! DEFINITION. The word types of the block: byte, address, CRC value, memory word, status (00_scope.md R10,
20_memory.md R50, R51). Every value of the block is unsigned. -/

namespace Sys2Proof

/-- A byte, 0 to 255 (R10). -/
abbrev Byte := BitVec 8

/-- A byte address of width `AW` = 32 bits (R7, R50). -/
abbrev Addr := BitVec 32

/-- The width of the codec's register and of the received CRC (R30, R32). -/
abbrev CrcWord := BitVec 16

/-- A memory word: four bytes, lowest address first (R51, R61). -/
structure NvmWord where
  b0 : Byte
  b1 : Byte
  b2 : Byte
  b3 : Byte
deriving DecidableEq, Repr, Inhabited

/-- What a primitive reports (R54, R55, R172, R173). -/
inductive Status where
  | ok
  | fail
deriving DecidableEq, Repr, Inhabited

end Sys2Proof
end

