-- ==== Sys2Proof/Config.lean ====
section
/-! DEFINITION. What an implementation fixes (00_scope.md R7) with the constraints of R8, the spec's first example
configuration (95_test_vectors.md section 0, EX1), and the free values: constants without a body, of which no proof
can see anything. -/

namespace Sys2Proof

/-- The parameters of R7. `AW` = 32, `WORD_SIZE` = 4, `N_SHORT` = 128 and `N_LONG` = 1024 are fixed by the spec and
stand in the types and definitions. -/
structure Config where
  /-- `APP_BASE`: first byte address of the writable region. -/
  appBase : Addr
  /-- `APP_END`: one past the last byte address of the writable region. -/
  appEnd : Addr
  /-- `PAGE_SIZE`: bytes per erasable page. -/
  pageSize : Nat
  /-- `ERASED_BYTE`: the value of every byte of an erased page. -/
  erasedByte : Byte
  /-- `X_MAX_ERRORS`: the error count at which the session aborts. -/
  xMaxErrors : Byte
  /-- `T_RX`: the bound of one blocking receive; passed to every `Receive`, never used as a number (R171). -/
  tRx : Nat
  /-- `NOTICE_COMPLETE`: the bytes of the completion notice, possibly none. -/
  noticeComplete : List Byte
  /-- `NOTICE_ABORT`: the bytes of the abort notice, possibly none. -/
  noticeAbort : List Byte
  /-- `WRITE_FAIL_STOPS`: whether a failed program primitive ends the WRITE loop at once (R137). -/
  writeFailStops : Bool
  /-- `ERASE_ON_COMM_ERROR`: whether a first packet whose read failed still erases (R199). -/
  eraseOnCommError : Bool
deriving DecidableEq, Repr

/-- The constraints of R8. `APP_END <= 2^32 - 1` and `ERASED_BYTE <= 255` hold by the types. -/
abbrev Config.Ok (c : Config) : Prop :=
  c.appBase.toNat < c.appEnd.toNat ∧ c.appBase.toNat % 4 = 0 ∧ c.appEnd.toNat % 4 = 0 ∧
  0 < c.pageSize ∧ c.pageSize % 4 = 0 ∧ c.appBase.toNat % c.pageSize = 0 ∧
  (c.appEnd.toNat - c.appBase.toNat) % c.pageSize = 0 ∧
  1 ≤ c.xMaxErrors.toNat ∧ c.xMaxErrors.toNat ≤ 254

/-- The example configuration EX1 of 95_test_vectors.md section 0, with both notices empty.
DESIGN CHOICE (log 1): `State.reset` carries it; the spec leaves these parameters open. -/
def Config.exampleOne : Config where
  appBase := 0x08002000#32
  appEnd := 0x08002800#32
  pageSize := 0x80
  erasedByte := 0x00#8
  xMaxErrors := 3#8
  tRx := 0
  noticeComplete := []
  noticeAbort := []
  writeFailStops := true
  eraseOnCommError := false

/-- A byte nothing constrains, one for each draw (I10, I14, I15, I17, I24). -/
opaque Config.freeByte : Nat → Byte

/-- A bit nothing constrains, one for each draw. -/
opaque Config.freeBool : Nat → Bool

/-- A number nothing constrains, one for each draw. -/
opaque Config.freeNat : Nat → Nat

end Sys2Proof
end

