-- ==== Sys2Proof/Syntax.lean ====
section
/-! DEFINITION. The operations of the block, one constructor for each row of spec/opcode_table.json (R97), and the
kinds of header (R27, R81). -/

namespace Sys2Proof

/-- `header_kind` (R27, R81); the numeric codes are R96. -/
inductive HeaderKind where
  /-- no header byte was obtained -/
  | none
  /-- SOH: a packet with 128 payload bytes -/
  | shortData
  /-- STX: a packet with 1024 payload bytes -/
  | longData
  | endOfTransmission
  | cancel
  /-- any of the 252 other byte values -/
  | unrecognized
deriving DecidableEq, Repr, Inhabited

/-- The rows of spec/opcode_table.json. -/
inductive Instr where
  /-- `SOH`: header of a 128-byte packet (R195). -/
  | soh
  /-- `STX`: header of a 1024-byte packet (R195). -/
  | stx
  /-- `EOT`: end of transmission (R196). -/
  | eot
  /-- `CAN`: cancel (R197). -/
  | can
  /-- `HDR_OTHER`: any other header byte (R89, R198). -/
  | hdrOther (header : Byte)
  /-- `HDR_NONE`: no byte arrived (R193 when `ERASED` = 0, R194 when `ERASED` = 1). -/
  | hdrNone
  /-- `HDR_NONE_ERASED`: no byte arrived and `ERASED` = 1 (R194). -/
  | hdrNoneErased
  /-- `PKT128`: a whole 133-byte packet on the wire (R82). -/
  | pkt128 (seqB cmpB : Byte) (payload : List Byte) (crcH crcL : Byte)
  /-- `PKT1K`: a whole 1029-byte packet on the wire (R83). -/
  | pkt1k (seqB cmpB : Byte) (payload : List Byte) (crcH crcL : Byte)
  /-- `TX_PROBE_C`: send 'C' (R91, R193). -/
  | txProbeC
  /-- `TX_ACK`: send ACK (R91, R202). -/
  | txAck
  /-- `TX_ACK_EOT`: send ACK and the completion notice (R91, R196). -/
  | txAckEot
  /-- `TX_NAK`: send NAK (R91, R205). -/
  | txNak
  /-- `TX_CAN_CAN`: send CAN twice and the abort notice (R91, R205). -/
  | txCanCan
  /-- `CRC_BYTE(c, b)` (R112). -/
  | crcByte (c : CrcWord) (b : Byte)
  /-- `CRC16(D)` (R113). -/
  | crc16 (data : List Byte)
  /-- `ERASE(start)` (R131). -/
  | erase (start : Addr)
  /-- `WRITE(addr, W, n)`; `n` is the number of words given (R135). -/
  | write (addr : Addr) (words : List NvmWord)
  /-- `VALIDATE(SEQB, CMPB, PAYLOAD, RXCRC, expected)` (R160). -/
  | validate (seqB cmpB : Byte) (payload : List Byte) (rxCrc : CrcWord) (expected : Byte)
  /-- `READ_HEADER()` (R175). -/
  | readHeader
  /-- `READ_PACKET(N)` (R177). -/
  | readPacket (n : Nat)
  /-- `INVOKE` (R191). -/
  | invoke
  /-- `AWAIT_HEADER_STEP` (R192). -/
  | awaitHeaderStep
  /-- `RECEIVE_PACKET_STEP` (R199). -/
  | receivePacketStep
  /-- `ERASE_STEP` (R200). -/
  | eraseStep
  /-- `VALIDATE_WRITE_STEP` (R201). -/
  | validateWriteStep
  /-- `ACCEPT` (R202). -/
  | accept
  /-- `CLASSIFY` (R203, R204). -/
  | classify
  /-- `ERROR_HANDLER` (R205). -/
  | errorHandler
  /-- `APP_JUMP` (R206). -/
  | appJump
  /-- `RETURN_TO_CALLER` (R207). -/
  | returnToCaller
  /-- `NvmUnlock()` (R52). -/
  | nvmUnlock
  /-- `NvmLock()` (R53). -/
  | nvmLock
  /-- `NvmErasePage(a)` (R54). -/
  | nvmErasePage (a : Addr)
  /-- `NvmProgramWord(a, W)` (R55). -/
  | nvmProgramWord (a : Addr) (w : NvmWord)
  /-- `NvmReadWord(a)` (R56). -/
  | nvmReadWord (a : Addr)
  /-- `Receive(n)` (R171). -/
  | receive (n : Nat)
  /-- `Transmit(b)` (R172). -/
  | transmit (b : Byte)
  /-- `TransmitText(B)` (R173). -/
  | transmitText (text : List Byte)
deriving DecidableEq, Repr

end Sys2Proof
end

