-- ==== Sys2Proof/Machine/State.lean ====
section
/-! DEFINITION. The state of the block (10_state.md R20 to R39), the environment's answers it will meet (R35, R38), the
interactions it has had, and the state after hardware reset (R37, R260). Plain data throughout. -/

namespace Sys2Proof.Machine

/-! ### The spec's registers -/

/-- `STATE` (R26, R190); the numeric codes are R94. -/
inductive EngineState where
  | idle
  | awaitHeader
  | receivePacket
  | terminalSuccess
  | terminalAbort
deriving DecidableEq, Repr, Inhabited

/-- `EFAIL`, a subset of `{EraseFailed}` (R31). -/
structure EraseFailures where
  eraseFailed : Bool
deriving DecidableEq, Repr

/-- `VFAIL`, a subset of `{SequenceMismatch, CrcMismatch}` (R31). -/
structure ValidateFailures where
  sequenceMismatch : Bool
  crcMismatch : Bool
deriving DecidableEq, Repr

/-- `PFAIL`, a subset of `{BinaryTooLarge, WriteFailed, ReadbackMismatch}` (R31). -/
structure WriteFailures where
  binaryTooLarge : Bool
  writeFailed : Bool
  readbackMismatch : Bool
deriving DecidableEq, Repr

/-- The non-volatile array: address and byte pairs in canonical form, addresses strictly rising, no pair equal to what
an unlisted address reads as (R34). -/
abbrev Memory := List Host.Cell

/-! ### The model's own position inside a rule -/

/-- Where inside the rule of the current `STATE` the engine is: which interaction comes next. R26: this position is held
by the framer's read sequence and by `PIDX`, not by `STATE`. -/
inductive Pos where
  /-- at the beginning of the rule of `STATE` -/
  | start
  /-- R193: the probe byte -/
  | probe
  /-- R196: the ACK of an EOT -/
  | eotAck
  /-- R196: the completion notice -/
  | eotNotice
  /-- R205: NAK -/
  | nak
  /-- R205: the first CAN -/
  | firstCan
  /-- R205: the second CAN -/
  | secondCan
  /-- R205: the abort notice -/
  | abortNotice
  /-- R177: the sequence byte -/
  | readSequence
  /-- R177: the complement byte -/
  | readComplement
  /-- R177: the payload -/
  | readPayload
  /-- R177: the two CRC bytes -/
  | readCrc
  /-- R131: the unlock of ERASE -/
  | eraseUnlock
  /-- R131: the page at `PADDR` -/
  | erasePage
  /-- R131: the lock of ERASE -/
  | eraseLock
  /-- R135: the unlock of WRITE -/
  | writeUnlock
  /-- R135: programming the word at `PADDR` -/
  | writeProgram
  /-- R135: reading it back -/
  | writeRead
  /-- R135: the lock of WRITE -/
  | writeLock
  /-- R202: the ACK of an accepted packet -/
  | ack
  /-- R206, R207: control has left the block -/
  | left
deriving DecidableEq, Repr, Inhabited

/-! ### The environment -/

/-- What comes next on the serial line (R98): a byte of the host, or a silence that fails the waiting `Receive`. -/
inductive LineItem where
  | byte (b : Byte)
  | quiet
deriving DecidableEq, Repr

/-- The answer of `Receive(n)` (R171). -/
inductive RxAnswer where
  | ok (bytes : List Byte)
  | fail
deriving DecidableEq, Repr, Inhabited

/-- The environment's two draws of `NvmProgramWord` (R55): the status, and the bytes the array then holds
(`none`: the bytes it was given, R98). -/
structure ProgramAnswer where
  status : Status
  leave : Option NvmWord
deriving DecidableEq, Repr

/-- What the environment will do, in the order in which it is asked (R6, R35, R38). Where a list is used up, the answer
is a free value (log 4). -/
structure Environment where
  /-- what the host sends, and when it is silent -/
  line : List LineItem
  /-- the reports of the `NvmErasePage` calls to come -/
  eraseAnswers : List Status
  /-- the answers of the `NvmProgramWord` calls to come -/
  programAnswers : List ProgramAnswer
  /-- the answers of the `Transmit` calls to come -/
  transmitAnswers : List Status
  /-- the answers of the `TransmitText` calls to come -/
  textAnswers : List Status
  /-- how many more times the caller will issue `Invoke` when the block is ready for it -/
  invokes : Nat
  /-- the next hardware reset: after how many more steps it comes; `none`: never -/
  resetIn : Option Nat
  /-- the hardware resets after that one: how many steps each comes after the one before it (R260 sets no limit to their
  number; log 11) -/
  resetGaps : List Nat
deriving DecidableEq, Repr

/-- One interaction with the environment and its answer (R5, R9). -/
inductive Event where
  | invoke
  | receive (n timeout : Nat) (answer : RxAnswer)
  | transmit (b : Byte) (answer : Status)
  | transmitText (text : List Byte) (answer : Status)
  | nvmUnlock
  | nvmLock
  | nvmErasePage (a : Addr) (answer : Status)
  | nvmProgramWord (a : Addr) (w : NvmWord) (answer : Status)
  | nvmReadWord (a : Addr) (w : NvmWord)
  | appJump
  | returnToCaller
  | hardwareReset
deriving DecidableEq, Repr

/-- The result of the primitive that ran last. -/
inductive Returned where
  /-- a primitive without a result (R52, R53) -/
  | nothing
  /-- R54, R55, R172, R173 -/
  | status (st : Status)
  /-- R56 -/
  | word (w : NvmWord)
  /-- R171 -/
  | received (answer : RxAnswer)
deriving DecidableEq, Repr

/-! ### The state -/

/-- The block's state (R20), with the parameters and the environment beside it. -/
structure State where
  /-- `SEQ` (R21) -/
  seq : Byte
  /-- `CURSOR` (R22) -/
  cursor : Addr
  /-- `ERASED` (R23) -/
  erased : Bool
  /-- `ERRCNT` (R24) -/
  errCnt : Byte
  /-- `STATE` (R26) -/
  state : EngineState
  /-- `HDRKIND` (R27) -/
  hdrKind : HeaderKind
  /-- `SEQB` (R28) -/
  seqB : Byte
  /-- `CMPB` (R28) -/
  cmpB : Byte
  /-- `PAYLOAD` (R29) -/
  payload : Vector Byte 1024
  /-- `RXCRC` (R30) -/
  rxCrc : CrcWord
  /-- `COMMFAIL` (R31) -/
  commFail : Bool
  /-- `EFAIL` (R31) -/
  eFail : EraseFailures
  /-- `VFAIL` (R31) -/
  vFail : ValidateFailures
  /-- `PFAIL` (R31) -/
  pFail : WriteFailures
  /-- `CRC` (R32) -/
  crc : CrcWord
  /-- `LOCK`: true means locked (R33) -/
  lock : Bool
  /-- `PADDR` (R39) -/
  pAddr : Addr
  /-- `PIDX` (R39). DESIGN CHOICE (log 31): a number without a bound, where the table of R20 says "11 bits or more". -/
  pIdx : Nat
  /-- `NVM` (R34) -/
  nvm : Memory
  /-- the model's own: position inside the current rule (log 6) -/
  pos : Pos
  /-- the model's own: result of the last primitive (log 8) -/
  ret : Returned
  /-- the model's own: every interaction so far, newest first (log 8) -/
  trace : List Event
  /-- the model's own: free values drawn so far (log 5) -/
  free : Nat
  /-- the environment's answers to come (R35, R38; log 4) -/
  env : Environment
  /-- the parameters (R7, R35; log 1) -/
  cfg : Config
deriving DecidableEq, Repr

/-! ### How a step can stop -/

/-- The block is stuck: it takes no step of its own until the outside acts (R190). Each is safe: the model stops where
the hardware waits. -/
inductive Fault where
  /-- `IDLE` and the caller issues no `Invoke`: raised by `step` (R190). Safe. -/
  | idleWithoutInvoke
  /-- `AppJump` has been issued: the application runs (R206, I22). Raised by `step` and by `APP_JUMP` asked for again.
  Safe. -/
  | applicationRuns
  /-- `ReturnToCaller` has been issued and the caller issues no `Invoke` (R207, I23). Raised by `step` and by
  `RETURN_TO_CALLER` asked for again. Safe. -/
  | returnedToCaller
deriving DecidableEq, Repr

/-- The model has no meaning for the call. Each is safe: the model stops. -/
inductive Refusal where
  /-- an arm of `exec` without a meaning: none in this model. Safe. -/
  | notModelled (mnemonic : String)
  /-- `step` on a configuration that breaks R8. Safe. -/
  | badConfiguration
  /-- an operand that is no operand of the operation: raised by `HDR_OTHER`, `PKT128`, `PKT1K`, `READ_PACKET`, `Receive`
  (R89, R29, R88, R171). Safe. -/
  | illFormed
  /-- an operation asked for in a `STATE` its rule does not apply in (R190, R192, R199, R206, R207). Safe. -/
  | notApplicable
  /-- `INVOKE` outside `IDLE` and `TERMINAL_ABORT` (R191, I21). Safe. -/
  | invokeRefused
  /-- a memory primitive with a false precondition (R58, I19). Safe. -/
  | primitivePrecondition
  /-- `ERASE` with an illegal operand (R132, I20). Safe. -/
  | illegalErase
  /-- `WRITE` with an illegal operand (R142, I20). Safe. -/
  | illegalWrite
deriving DecidableEq, Repr

/-! ### Reset -/

/-- The environment of `State.reset`: the caller will issue `Invoke` once (R190), nothing else is known (log 4, log 12). -/
def Environment.reset : Environment where
  line := []
  eraseAnswers := []
  programAnswers := []
  transmitAnswers := []
  textAnswers := []
  invokes := 1
  resetIn := none
  resetGaps := []

/-- The state after hardware reset with the parameters `cfg`, the environment `env` and the retained array `nvm` (R37,
R260): `STATE` = `IDLE`, `LOCK` = 1. DESIGN CHOICE (log 2): every register R37 leaves unspecified holds zero, the first
kind, or the empty set. -/
def State.resetWith (cfg : Config) (env : Environment) (nvm : Memory) : State where
  seq := 0
  cursor := 0
  erased := false
  errCnt := 0
  state := .idle
  hdrKind := .none
  seqB := 0
  cmpB := 0
  payload := Vector.replicate 1024 0
  rxCrc := 0
  commFail := false
  eFail := ⟨false⟩
  vFail := ⟨false, false⟩
  pFail := ⟨false, false, false⟩
  crc := 0
  lock := true
  pAddr := 0
  pIdx := 0
  nvm := nvm
  pos := .start
  ret := .nothing
  trace := []
  free := 0
  env := env
  cfg := cfg

/-- The machine right after hardware reset, with the example configuration (log 1) and nothing listed in the retained
array (log 3). -/
def State.reset : State := State.resetWith Config.exampleOne Environment.reset []

end Sys2Proof.Machine
end

