-- ==== Sys2Proof/Machine/Flags.lean ====
section
/-! DEFINITION. The failure sets as flags (10_state.md R31), their union `FAILS` and its 7-bit vector (30_encoding.md
R95), the flash-related class (60_exceptions.md R232), and the numeric codes of the enumerated registers (R94, R96). -/

namespace Sys2Proof.Machine

def EraseFailures.empty : EraseFailures := ⟨false⟩
def ValidateFailures.empty : ValidateFailures := ⟨false, false⟩
def WriteFailures.empty : WriteFailures := ⟨false, false, false⟩

/-- The packet's failure set `FAILS` (R31, R199): its members, each as a flag. -/
structure Failures where
  communicationError : Bool
  sequenceMismatch : Bool
  crcMismatch : Bool
  eraseFailed : Bool
  binaryTooLarge : Bool
  writeFailed : Bool
  readbackMismatch : Bool
deriving DecidableEq, Repr

/-- `FAILS <- EFAIL + VFAIL + PFAIL + ({CommunicationError} if COMMFAIL = 1)` (R199). -/
def State.failures (s : State) : Failures where
  communicationError := s.commFail
  sequenceMismatch := s.vFail.sequenceMismatch
  crcMismatch := s.vFail.crcMismatch
  eraseFailed := s.eFail.eraseFailed
  binaryTooLarge := s.pFail.binaryTooLarge
  writeFailed := s.pFail.writeFailed
  readbackMismatch := s.pFail.readbackMismatch

/-- The flash-related class (R232). -/
def Failures.flashRelated (f : Failures) : Bool :=
  f.eraseFailed || f.binaryTooLarge || f.writeFailed || f.readbackMismatch

/-- The recoverable class (R233). -/
def Failures.recoverable (f : Failures) : Bool :=
  f.communicationError || f.sequenceMismatch || f.crcMismatch

/-- `FAILS = {}` is success (R12, R95). -/
def Failures.isEmpty (f : Failures) : Bool := !f.flashRelated && !f.recoverable

/-- The status vector `FAILS[6:0]` (R95, R231). -/
def Failures.vector (f : Failures) : BitVec 7 :=
  BitVec.ofBool f.readbackMismatch ++ BitVec.ofBool f.writeFailed ++ BitVec.ofBool f.binaryTooLarge ++
  BitVec.ofBool f.eraseFailed ++ BitVec.ofBool f.crcMismatch ++ BitVec.ofBool f.sequenceMismatch ++
  BitVec.ofBool f.communicationError

/-- Codes of `STATE` (R94). -/
def EngineState.code : EngineState → BitVec 3
  | .idle => 0
  | .awaitHeader => 1
  | .receivePacket => 2
  | .terminalSuccess => 3
  | .terminalAbort => 4

/-- Codes of `HDRKIND` (R96). -/
def headerKindCode : HeaderKind → BitVec 3
  | .none => 0
  | .shortData => 1
  | .longData => 2
  | .endOfTransmission => 3
  | .cancel => 4
  | .unrecognized => 5

end Sys2Proof.Machine
end

