-- ==== Sys2Proof/Machine/Memory.lean ====
section
/-! DEFINITION. The non-volatile array as data (20_memory.md R34, R50, R57, R61): reading a byte, storing a run of bytes,
the canonical form. Which accesses are legal is decided by the primitives (Ops). -/

namespace Sys2Proof.Machine

/-- What an unlisted address reads as. DESIGN CHOICE (log 3): the spec says the array is retained and unknown (R37). -/
def Memory.unlisted : Byte := 0x00#8

/-- The byte at address `a`. -/
def Memory.read : Memory → Nat → Byte
  | [], _ => Memory.unlisted
  | (k, v) :: rest, a => if k = a then v else Memory.read rest a

/-- The canonical cells of the bytes `bs` placed from address `a` upward. -/
def Memory.cells (a : Nat) : List Byte → Memory
  | [] => []
  | b :: bs => if b = Memory.unlisted then Memory.cells (a + 1) bs else (a, b) :: Memory.cells (a + 1) bs

/-- Store the bytes `bs` at `a`, `a + 1`, ...; every other address keeps its byte (R57). -/
def Memory.store (m : Memory) (a : Nat) (bs : List Byte) : Memory :=
  m.filter (fun c => c.1 < a) ++ Memory.cells a bs ++ m.filter (fun c => a + bs.length ≤ c.1)

/-- The four bytes at `a`, lowest address first (R56, R61). -/
def Memory.readWord (m : Memory) (a : Nat) : NvmWord :=
  ⟨m.read a, m.read (a + 1), m.read (a + 2), m.read (a + 3)⟩

/-- The canonical form: addresses strictly rising, no cell equal to what an unlisted address reads as. -/
abbrev Memory.wf (m : Memory) : Prop :=
  m.Pairwise (fun c d => c.1 < d.1) ∧ ∀ c ∈ m, c.2 ≠ Memory.unlisted

end Sys2Proof.Machine
end

