-- ==== Sys2Proof/WellFormed.lean ====
section
/-! DEFINITION. Which operations are well formed as syntax: the checks that need no state. The checks that need the
configuration or the state (R58, R132, R142, R191) are made by the meanings. -/

namespace Sys2Proof

/-- The header byte is one of the four recognised values SOH, STX, EOT, CAN (R81). -/
def recognizedHeader (b : Byte) : Bool :=
  b == 0x01#8 || b == 0x02#8 || b == 0x04#8 || b == 0x18#8

/-- The two payload sizes (R7, R88). -/
def isPayloadSize (n : Nat) : Bool := n == 128 || n == 1024

/-- Well-formed syntax. `HDR_OTHER` matches only when no other header row does (R89, R97); a packet carries exactly its
128 or 1024 payload bytes (R29, R82, R83); `VALIDATE` and `READ_PACKET` take a payload of one of the two sizes (R160,
R177); `Receive` asks for at least one byte (R171). -/
def Instr.wellFormed : Instr → Bool
  | .hdrOther b => !recognizedHeader b
  | .pkt128 _ _ payload _ _ => payload.length == 128
  | .pkt1k _ _ payload _ _ => payload.length == 1024
  | .validate _ _ payload _ _ => isPayloadSize payload.length
  | .readPacket n => isPayloadSize n
  | .receive n => 1 ≤ n
  | .soh | .stx | .eot | .can | .hdrNone | .hdrNoneErased => true
  | .txProbeC | .txAck | .txAckEot | .txNak | .txCanCan => true
  | .crcByte _ _ | .crc16 _ | .erase _ | .write _ _ => true
  | .readHeader | .invoke | .awaitHeaderStep | .receivePacketStep => true
  | .eraseStep | .validateWriteStep | .accept | .classify | .errorHandler => true
  | .appJump | .returnToCaller => true
  | .nvmUnlock | .nvmLock | .nvmErasePage _ | .nvmProgramWord _ _ | .nvmReadWord _ => true
  | .transmit _ | .transmitText _ => true

end Sys2Proof
end

