-- ==== Sys2Proof/Decode.lean ====
section
/-! DEFINITION. The wire: control bytes (R80), header decode (R81, R89), packet formats (R82 to R84), the decoder of a
wire unit, what the block emits (R91), and the encoder. The rows of format OP have no bits (R97) and are never decoded. -/

namespace Sys2Proof

/-! ### Control bytes (R80) -/

def wireSoh : Byte := 0x01#8
def wireStx : Byte := 0x02#8
def wireEot : Byte := 0x04#8
def wireAck : Byte := 0x06#8
def wireNak : Byte := 0x15#8
def wireCan : Byte := 0x18#8
/-- ASCII 'C', the "request CRC mode" probe. -/
def wireProbe : Byte := 0x43#8

/-! ### Header decode (R81) -/

/-- The operation a header byte selects, by exact comparison of all 8 bits. -/
def decodeHeaderByte (b : Byte) : Instr :=
  if b = wireSoh then .soh
  else if b = wireStx then .stx
  else if b = wireEot then .eot
  else if b = wireCan then .can
  else .hdrOther b

/-- The header row for what `Receive(1)` gave: a byte, or none. -/
def decodeHeader : Option Byte → Instr
  | some b => decodeHeaderByte b
  | none => .hdrNone

/-- `HDRKIND` for what `Receive(1)` gave (R81, R175). -/
def headerKind : Option Byte → HeaderKind
  | none => .none
  | some b =>
    if b = wireSoh then .shortData
    else if b = wireStx then .longData
    else if b = wireEot then .endOfTransmission
    else if b = wireCan then .cancel
    else .unrecognized

/-- Payload bytes of the packet a kind announces; undefined for the other kinds (R27, R88). -/
def payloadSize : HeaderKind → Option Nat
  | .shortData => some 128
  | .longData => some 1024
  | .none | .endOfTransmission | .cancel | .unrecognized => none

/-! ### Wire units (R82 to R84) -/

/-- Length in bytes of the wire unit a header byte begins (R84). -/
def unitLength (header : Byte) : Nat :=
  match payloadSize (headerKind (some header)) with
  | some n => n + 5
  | none => 1

/-- Why a list of bytes is no wire unit. -/
inductive DecodeError where
  /-- there is no byte at all -/
  | noByte
  /-- a packet body is shorter than its header says (R29, R179) -/
  | truncatedPacket
deriving DecidableEq, Repr

/-- The decoder's answer: an operation with the bytes after it, or a rejection by name. -/
inductive Decoded where
  | instr (i : Instr) (rest : List Byte)
  | rejected (why : DecodeError)
deriving DecidableEq, Repr

/-- The body of a packet with `n` payload bytes, from byte offset 1 on: sequence, complement, payload, CRC high, CRC low
(R82, R83). `make` builds the operation from the fields. -/
def decodeBody (n : Nat) (make : Byte → Byte → List Byte → Byte → Byte → Instr) : List Byte → Decoded
  | s :: c :: body =>
    match body.drop n with
    | h :: l :: rest => .instr (make s c (body.take n) h l) rest
    | _ => .rejected .truncatedPacket
  | _ => .rejected .truncatedPacket

/-- Decode one wire unit. A header byte alone decodes to its header row (R81); a data header with bytes after it begins
a packet (R82, R83); after any other header byte the rest belongs to later units (R84). -/
def decode : List Byte → Decoded
  | [] => .rejected .noByte
  | [h] => .instr (decodeHeaderByte h) []
  | h :: b :: bs =>
    match payloadSize (headerKind (some h)) with
    | some n => decodeBody n (if n = 128 then Instr.pkt128 else Instr.pkt1k) (b :: bs)
    | none => .instr (decodeHeaderByte h) (b :: bs)

/-! ### The host's numbering of an instruction's bits -/

/-- The bytes of the wire unit whose first bits, numbered from bit 0 of the first byte, are the low `nbits` bits of `w`;
every later bit is 0. -/
def tableUnit (nbits w : Nat) : List Byte :=
  let v := w % 2 ^ nbits
  (List.range (unitLength (BitVec.ofNat 8 v))).map fun k => BitVec.ofNat 8 (v >>> (8 * k))

/-- The operation the decoder reads from an instruction whose bits are `w`. No bits: no byte arrived. Up to 8 bits: the
header byte alone, the block's opcode (R81). More: the whole wire unit (log 14). -/
def decodeTableWord (nbits w : Nat) : Option Instr :=
  if nbits = 0 then some (decodeHeader none)
  else
    let bytes := if nbits ≤ 8 then [BitVec.ofNat 8 (w % 2 ^ nbits)] else tableUnit nbits w
    match decode bytes with
    | .instr i _ => some i
    | .rejected _ => none

/-! ### Encoder -/

/-- The wire bytes of an operation the host can send (rows HDR and PKT with bits); the other rows have none (R97). -/
def encode : Instr → Option (List Byte)
  | .soh => some [wireSoh]
  | .stx => some [wireStx]
  | .eot => some [wireEot]
  | .can => some [wireCan]
  | .hdrOther b => some [b]
  | .pkt128 s c p h l => some (wireSoh :: s :: c :: (p ++ [h, l]))
  | .pkt1k s c p h l => some (wireStx :: s :: c :: (p ++ [h, l]))
  | .hdrNone | .hdrNoneErased => none
  | .txProbeC | .txAck | .txAckEot | .txNak | .txCanCan => none
  | .crcByte _ _ | .crc16 _ | .erase _ | .write _ _ | .validate _ _ _ _ _ => none
  | .readHeader | .readPacket _ | .invoke | .awaitHeaderStep | .receivePacketStep => none
  | .eraseStep | .validateWriteStep | .accept | .classify | .errorHandler => none
  | .appJump | .returnToCaller => none
  | .nvmUnlock | .nvmLock | .nvmErasePage _ | .nvmProgramWord _ _ | .nvmReadWord _ => none
  | .receive _ | .transmit _ | .transmitText _ => none

/-- The bytes a row of format TX puts on the wire (R91): its encoding in the opcode table. -/
def emission (cfg : Config) : Instr → Option (List Byte)
  | .txProbeC => some [wireProbe]
  | .txAck => some [wireAck]
  | .txAckEot => some (wireAck :: cfg.noticeComplete)
  | .txNak => some [wireNak]
  | .txCanCan => some (wireCan :: wireCan :: cfg.noticeAbort)
  | .soh | .stx | .eot | .can | .hdrOther _ | .hdrNone | .hdrNoneErased => none
  | .pkt128 _ _ _ _ _ | .pkt1k _ _ _ _ _ => none
  | .crcByte _ _ | .crc16 _ | .erase _ | .write _ _ | .validate _ _ _ _ _ => none
  | .readHeader | .readPacket _ | .invoke | .awaitHeaderStep | .receivePacketStep => none
  | .eraseStep | .validateWriteStep | .accept | .classify | .errorHandler => none
  | .appJump | .returnToCaller => none
  | .nvmUnlock | .nvmLock | .nvmErasePage _ | .nvmProgramWord _ _ | .nvmReadWord _ => none
  | .receive _ | .transmit _ | .transmitText _ => none

end Sys2Proof
end

