-- ==== Sys2Proof/Machine/Operands.lean ====
section
/-! DEFINITION. How operands are assembled (30_encoding.md R85 to R88): payload size, received CRC, payload to words,
the addresses of words and pages, and the numeric form of a word (R61). -/

namespace Sys2Proof

/-- The four bytes of a word, lowest address first (R61). -/
def NvmWord.bytes (w : NvmWord) : List Byte := [w.b0, w.b1, w.b2, w.b3]

/-- A word as one number, little-endian, where a realisation needs one (R61). -/
def NvmWord.value (w : NvmWord) : BitVec 32 := w.b3 ++ w.b2 ++ w.b1 ++ w.b0

/-- The word of a little-endian number (R61). -/
def NvmWord.ofValue (v : BitVec 32) : NvmWord :=
  ⟨v.extractLsb' 0 8, v.extractLsb' 8 8, v.extractLsb' 16 8, v.extractLsb' 24 8⟩

end Sys2Proof

namespace Sys2Proof.Machine

/-- `RXCRC` from its two wire bytes, high byte first (R30, R85). -/
def assembleCrc (high low : Byte) : CrcWord := high.setWidth 16 * 256 + low.setWidth 16

/-- The complement byte a valid packet carries (R86). -/
def complement (seqB : Byte) : Byte := 255 - seqB

/-- Payload to words, positionally (R87): word `i` is bytes `4i` to `4i + 3`. -/
def wordsOf : List Byte → List NvmWord
  | b0 :: b1 :: b2 :: b3 :: rest => ⟨b0, b1, b2, b3⟩ :: wordsOf rest
  | _ => []

/-- `PAYLOAD[0..N-1]`. -/
def State.payloadBytes (s : State) (n : Nat) : List Byte := s.payload.toList.take n

/-- `PAYLOAD[0..] <- bs`; the bytes of the buffer above keep their values (R29). -/
def storePayload (old : Vector Byte 1024) (bs : List Byte) : Vector Byte 1024 :=
  ⟨⟨bs.take 1024 ++ old.toList.drop (bs.take 1024).length⟩, by simp⟩

/-- The payload size `N` of the packet being received; `none` where R88 leaves it undefined. -/
def State.packetSize (s : State) : Option Nat := payloadSize s.hdrKind

/-- Byte address of page `i` counted from `start` (R131). -/
def pageAddress (cfg : Config) (start : Addr) (i : Nat) : Addr :=
  BitVec.ofNat 32 (start.toNat + i * cfg.pageSize)

/-- The number of pages from `start` to the end of the region (R131, R132). -/
def pageCount (cfg : Config) (start : Addr) : Nat := (cfg.appEnd.toNat - start.toNat) / cfg.pageSize

/-- The legal operands of `ERASE`: page boundaries within `[APP_BASE, APP_END]` (R132). -/
abbrev legalErase (cfg : Config) (start : Addr) : Prop :=
  cfg.appBase.toNat ≤ start.toNat ∧ start.toNat ≤ cfg.appEnd.toNat ∧
  (start.toNat - cfg.appBase.toNat) % cfg.pageSize = 0

/-- The legal address operands of `WRITE` (R142). -/
abbrev legalWrite (cfg : Config) (addr : Addr) : Prop :=
  addr.toNat % 4 = 0 ∧ cfg.appBase.toNat ≤ addr.toNat

/-- The precondition of `NvmErasePage` on its address (R54). -/
abbrev legalPage (cfg : Config) (a : Addr) : Prop :=
  cfg.appBase.toNat ≤ a.toNat ∧ a.toNat < cfg.appEnd.toNat ∧ (a.toNat - cfg.appBase.toNat) % cfg.pageSize = 0

/-- The precondition of `NvmProgramWord` and `NvmReadWord` on their address (R55, R56). -/
abbrev legalWord (cfg : Config) (a : Addr) : Prop :=
  cfg.appBase.toNat ≤ a.toNat ∧ a.toNat + 4 ≤ cfg.appEnd.toNat ∧ a.toNat % 4 = 0

end Sys2Proof.Machine
end

