-- ==== Sys2Proof/Machine/Ops.lean ====
section
/-! DEFINITION. The shared operations: outcomes in sequence, the engine's position, the environment's draws (00_scope.md
R6), the transport primitives (43_packet_framer.md R171 to R174), the memory primitives (20_memory.md R52 to R58), and
the error-handler policy, which is what the block has for taking an exception (44_receive_engine.md R205, 60_exceptions.md
R238), with the return from it beside it (R239). -/

namespace Sys2Proof.Machine

/-- The outcome of an operation. -/
abbrev Out := Host.Outcome State Fault Refusal

/-- Run `k` on the next state; a fault or a refusal ends the sequence. -/
def andThen (o : Out) (k : State → Out) : Out :=
  match o with
  | .next s => k s
  | .fault r => .fault r
  | .refused r => .refused r

/-! ### Position and record -/

/-- `STATE <- st`: the engine is at the beginning of that state's rule. -/
def State.enter (st : EngineState) (s : State) : State := { s with state := st, pos := .start }

/-- The next interaction of the current rule is the one at `p`. -/
def State.goto (p : Pos) (s : State) : State := { s with pos := p }

/-- One interaction has taken place, with its result. -/
def State.record (e : Event) (r : Returned) (s : State) : State := { s with trace := e :: s.trace, ret := r }

/-! ### Draws of the environment (R6; logs 4, 5) -/

/-- `n` free bytes, the draws `k`, `k + 1`, ... -/
def freeBytes (k n : Nat) : List Byte := (List.range n).map fun i => Config.freeByte (k + i)

/-- A status drawn: the answer, the answers left, the free values drawn so far. -/
structure StatusDraw where
  answer : Status
  left : List Status
  free : Nat
deriving DecidableEq, Repr

/-- The next listed answer, or a free one when none is listed. -/
def drawStatus (answers : List Status) (k : Nat) : StatusDraw :=
  match answers with
  | st :: rest => ⟨st, rest, k⟩
  | [] => ⟨if Config.freeBool k then .ok else .fail, [], k + 1⟩

/-- What the line holds for a call that wants some bytes. -/
inductive Taken where
  /-- all of them, and the line after them -/
  | full (bytes : List Byte) (rest : List LineItem)
  /-- the host fell silent first; the bytes taken before are lost (R174) -/
  | silent (rest : List LineItem)
  /-- nothing more is listed: these bytes, then the environment's free draw -/
  | ended (bytes : List Byte)
deriving DecidableEq, Repr

/-- Put a byte in front of what was taken. -/
def Taken.cons (b : Byte) : Taken → Taken
  | .full bs rest => .full (b :: bs) rest
  | .silent rest => .silent rest
  | .ended bs => .ended (b :: bs)

/-- Take `n` bytes off the line (R98, R174). -/
def takeLine : Nat → List LineItem → Taken
  | 0, rest => .full [] rest
  | _ + 1, [] => .ended []
  | _ + 1, .quiet :: rest => .silent rest
  | n + 1, .byte b :: rest => (takeLine n rest).cons b

/-- A `Receive` drawn: the answer, the line left, the free values drawn so far. -/
structure ReceiveDraw where
  answer : RxAnswer
  line : List LineItem
  free : Nat
deriving DecidableEq, Repr

/-- The answer of `Receive(n)` (R171, R174). When the listed line ends inside the call, whether the call succeeds and the
bytes it then still obtains are free. -/
def drawReceive (n : Nat) (line : List LineItem) (k : Nat) : ReceiveDraw :=
  match takeLine n line with
  | .full bs rest => ⟨.ok bs, rest, k⟩
  | .silent rest => ⟨.fail, rest, k⟩
  | .ended bs =>
    ⟨if Config.freeBool k then .ok (bs ++ freeBytes (k + 1) (n - bs.length)) else .fail, [], k + 1 + n⟩

/-- What `NvmProgramWord` drew: the status, the word the array then holds, the answers left, the free values drawn. -/
structure ProgramDraw where
  answer : Status
  leaves : NvmWord
  left : List ProgramAnswer
  free : Nat
deriving DecidableEq, Repr

/-- The environment's two draws of `NvmProgramWord(a, W)` (R55); both free when no answer is listed. -/
def drawProgram (w : NvmWord) (answers : List ProgramAnswer) (k : Nat) : ProgramDraw :=
  match answers with
  | p :: rest => ⟨p.status, p.leave.getD w, rest, k⟩
  | [] =>
    ⟨if Config.freeBool k then .ok else .fail,
      ⟨Config.freeByte (k + 1), Config.freeByte (k + 2), Config.freeByte (k + 3), Config.freeByte (k + 4)⟩, [], k + 5⟩

/-! ### Transport primitives -/

/-- `Receive(n)` (R171). -/
def receive (n : Nat) (s : State) : State :=
  let d := drawReceive n s.env.line s.free
  { s with env := { s.env with line := d.line }, free := d.free }
    |>.record (.receive n s.cfg.tRx d.answer) (.received d.answer)

/-- `Transmit(b)` (R172); no caller tests the answer. -/
def transmit (b : Byte) (s : State) : State :=
  let d := drawStatus s.env.transmitAnswers s.free
  { s with env := { s.env with transmitAnswers := d.left }, free := d.free }
    |>.record (.transmit b d.answer) (.status d.answer)

/-- `TransmitText(B)` (R173); the bytes go out in order on the same line. -/
def transmitText (text : List Byte) (s : State) : State :=
  let d := drawStatus s.env.textAnswers s.free
  { s with env := { s.env with textAnswers := d.left }, free := d.free }
    |>.record (.transmitText text d.answer) (.status d.answer)

/-- The status the last primitive returned (R54, R55). -/
def Returned.status? : Returned → Option Status
  | .status st => some st
  | .nothing | .word _ | .received _ => none

/-- The word the last primitive returned (R56). -/
def Returned.word? : Returned → Option NvmWord
  | .word w => some w
  | .nothing | .status _ | .received _ => none

/-- The bytes the last `Receive` obtained; `none` when it failed (R171). -/
def Returned.bytes? : Returned → Option (List Byte)
  | .received (.ok bs) => some bs
  | .received .fail | .nothing | .status _ | .word _ => none

/-! ### Memory primitives -/

/-- `NvmUnlock()` (R52). -/
def nvmUnlock (s : State) : State := { s with lock := false }.record .nvmUnlock .nothing

/-- `NvmLock()` (R53). -/
def nvmLock (s : State) : State := { s with lock := true }.record .nvmLock .nothing

/-- `NvmErasePage(a)` (R54): refused unless unlocked and on a page boundary inside the region (R58). Reported `ok`, the
page holds `ERASED_BYTE`; reported `fail`, every byte of the page is a fresh free value (log 17). -/
def nvmErasePage (a : Addr) (s : State) : Out :=
  if s.lock = false ∧ legalPage s.cfg a then
    let d := drawStatus s.env.eraseAnswers s.free
    let page := match d.answer with
      | .ok => List.replicate s.cfg.pageSize s.cfg.erasedByte
      | .fail => freeBytes d.free s.cfg.pageSize
    let free := match d.answer with
      | .ok => d.free
      | .fail => d.free + s.cfg.pageSize
    .next <| { s with
        nvm := s.nvm.store a.toNat page
        env := { s.env with eraseAnswers := d.left }
        free := free }
      |>.record (.nvmErasePage a d.answer) (.status d.answer)
  else .refused .primitivePrecondition

/-- `NvmProgramWord(a, W)` (R55): refused unless unlocked and word-aligned inside the region (R58). The status and the
four bytes the array then holds are independent draws. -/
def nvmProgramWord (a : Addr) (w : NvmWord) (s : State) : Out :=
  if s.lock = false ∧ legalWord s.cfg a then
    let d := drawProgram w s.env.programAnswers s.free
    .next <| { s with
        nvm := s.nvm.store a.toNat d.leaves.bytes
        env := { s.env with programAnswers := d.left }
        free := d.free }
      |>.record (.nvmProgramWord a w d.answer) (.status d.answer)
  else .refused .primitivePrecondition

/-- `NvmReadWord(a)` (R56): refused unless word-aligned inside the region (R58); `LOCK` may have either value. -/
def nvmReadWord (a : Addr) (s : State) : Out :=
  if legalWord s.cfg a then
    let w := s.nvm.readWord a.toNat
    .next <| s.record (.nvmReadWord a w) (.word w)
  else .refused .primitivePrecondition

/-! ### The error-handler policy: taking an exception and returning from it -/

/-- The count of the handler: `ERRCNT <- ERRCNT + 1` (R205). -/
def countError (s : State) : State := { s with errCnt := s.errCnt + 1 }

/-- "Reaches the configured maximum" is `>=`, tested after the increment (R205). -/
def thresholdReached (s : State) : Bool := decide (s.cfg.xMaxErrors.toNat ≤ s.errCnt.toNat)

/-- The escalation of a flash-related failure: `ERRCNT <- X_MAX_ERRORS` (R204). -/
def escalate (s : State) : State := { s with errCnt := s.cfg.xMaxErrors }

/-- The return from the handler (R239): the engine is in `AWAIT_HEADER`; nothing is restored because nothing was saved. -/
def handlerReturn (s : State) : State := s.enter .awaitHeader

/-- `ERROR_HANDLER()` (R205, R238): count the error; at the maximum send CAN CAN and the abort notice and go to
`TERMINAL_ABORT`, else send NAK and return. -/
def errorHandler (s : State) : State :=
  let t := countError s
  if thresholdReached t then
    (transmitText t.cfg.noticeAbort (transmit wireCan (transmit wireCan t))).enter .terminalAbort
  else handlerReturn (transmit wireNak t)

/-! ### Applicability -/

/-- Run `k` only where the rule applies (R190, R192, R199); the model refuses the operation elsewhere (log 9). -/
def onlyIn (st : EngineState) (s : State) (k : State → Out) : Out :=
  if s.state = st then k s else .refused .notApplicable

/-! ### What was sent -/

/-- The bytes an interaction gives to the transport to send, whatever the answer (R91, R172). -/
def Event.sent : Event → List Byte
  | .transmit b _ => [b]
  | .transmitText text _ => text
  | .invoke | .receive _ _ _ | .nvmUnlock | .nvmLock | .nvmErasePage _ _ | .nvmProgramWord _ _ _
  | .nvmReadWord _ _ | .appJump | .returnToCaller | .hardwareReset => []

/-- The bytes an interaction gives to the transport that are handed to the line and reach the host: those of a transmit that answered `ok` (R172). DESIGN
CHOICE (log 32): of a text whose `TransmitText` answered `fail` none is taken to have reached the host; R173 does not say
how many of its bytes did. -/
def Event.reached : Event → List Byte
  | .transmit b .ok => [b]
  | .transmitText text .ok => text
  | .transmit _ .fail | .transmitText _ .fail
  | .invoke | .receive _ _ _ | .nvmUnlock | .nvmLock | .nvmErasePage _ _ | .nvmProgramWord _ _ _
  | .nvmReadWord _ _ | .appJump | .returnToCaller | .hardwareReset => []

/-- The interaction is a memory primitive (R52 to R56). -/
def Event.isMemory : Event → Bool
  | .nvmUnlock | .nvmLock | .nvmErasePage _ _ | .nvmProgramWord _ _ _ | .nvmReadWord _ _ => true
  | .invoke | .receive _ _ _ | .transmit _ _ | .transmitText _ _ | .appJump | .returnToCaller | .hardwareReset => false

/-- The bytes sent in a record of interactions, newest interaction first, in the order they went out. -/
def sentBytes (trace : List Event) : List Byte := (trace.reverse.map Event.sent).flatten

/-- The bytes of a record that reached the host, in order. -/
def reachedBytes (trace : List Event) : List Byte := (trace.reverse.map Event.reached).flatten

end Sys2Proof.Machine
end

