-- ==== Sys2Proof/Machine/Framer.lean ====
section
/-! DEFINITION. The Packet Framer: `READ_HEADER` and `READ_PACKET` (43_packet_framer.md). A field whose read failed holds
a free value (R178; log 16). -/

namespace Sys2Proof.Machine

/-- The byte the last `Receive(1)` gave, if any. -/
def receivedByte (s : State) : Option Byte := s.ret.bytes?.bind List.head?

/-- `READ_HEADER()` (R175): one `Receive(1)` and the decode of R81. -/
def readHeader (s : State) : State :=
  let t := receive 1 s
  { t with hdrKind := headerKind (receivedByte t) }

/-- After the first read of a packet: `SEQB`, or `COMMFAIL` (R177). -/
def takeSeqB (t : State) : State :=
  match receivedByte t with
  | some b => { t with seqB := b }
  | none => { t with commFail := true, seqB := Config.freeByte t.free, free := t.free + 1 }

/-- After the second read: `CMPB`, or `COMMFAIL` (R177). -/
def takeCmpB (t : State) : State :=
  match receivedByte t with
  | some b => { t with cmpB := b }
  | none => { t with commFail := true, cmpB := Config.freeByte t.free, free := t.free + 1 }

/-- A payload buffer of free bytes (R29). -/
def freePayload (k : Nat) : Vector Byte 1024 := Vector.ofFn fun i => Config.freeByte (k + i.val)

/-- After the third read: `PAYLOAD[0..N-1]`, or `COMMFAIL` (R177). -/
def takePayload (t : State) : State :=
  match t.ret.bytes? with
  | some bs => { t with payload := storePayload t.payload bs }
  | none => { t with commFail := true, payload := freePayload t.free, free := t.free + 1024 }

/-- After the fourth read: `RXCRC`, or `COMMFAIL` (R85, R177). -/
def takeCrc (t : State) : State :=
  match t.ret.bytes? with
  | some (h :: l :: _) => { t with rxCrc := assembleCrc h l }
  | _ => { t with
      commFail := true
      rxCrc := assembleCrc (Config.freeByte t.free) (Config.freeByte (t.free + 1))
      free := t.free + 2 }

/-- `READ_PACKET(N)` (R177): four reads, all made, in order, whether or not an earlier one failed. -/
def readPacket (n : Nat) (s : State) : State :=
  let r1 := takeSeqB (receive 1 { s with commFail := false })
  let r2 := takeCmpB (receive 1 r1)
  let r3 := takePayload (receive n r2)
  takeCrc (receive 2 r3)

/-- `READ_HEADER` as an operation (R175). -/
def execReadHeader (s : State) : Out := .next (readHeader s)

/-- `READ_PACKET` as an operation; `N` is 128 or 1024 (R177). -/
def execReadPacket (n : Nat) (s : State) : Out :=
  if isPayloadSize n then .next (readPacket n s) else .refused .illFormed

end Sys2Proof.Machine
end

