-- ==== Sys2Proof/Machine/Programmer.lean ====
section
/-! DEFINITION. The Memory Programmer: `ERASE` and `WRITE` with read-back (41_memory_programmer.md). -/

namespace Sys2Proof.Machine

/-! ### ERASE (R131 to R134, R144) -/

/-- The primitive that ran last reported `fail`. -/
def reportedFail (s : State) : Bool := s.ret.status? == some .fail

/-- `EFAIL <- EFAIL + {EraseFailed}` (R133). -/
def noteEraseFailed (s : State) : State := { s with eFail := ⟨true⟩ }

/-- `PADDR <- start + PIDX * PAGE_SIZE` (R131). -/
def aimAtPage (start : Addr) (s : State) : State := { s with pAddr := pageAddress s.cfg start s.pIdx }

/-- `PIDX <- PIDX + 1`. -/
def nextPage (s : State) : State := { s with pIdx := s.pIdx + 1 }

/-- The loop of `ERASE` over the pages still to do; it stops at the first page whose primitive reports `fail`. -/
def erasePages (start : Addr) : Nat → State → Out
  | 0, s => .next s
  | k + 1, s =>
    andThen (nvmErasePage (aimAtPage start s).pAddr (aimAtPage start s)) fun t =>
      if reportedFail t then .next (noteEraseFailed t) else erasePages start k (nextPage t)

/-- Unlocked, before the first page (R131): `EFAIL` empty and `PIDX` 0. -/
def beginErase (s : State) : State := { nvmUnlock { s with eFail := .empty } with pIdx := 0 }

/-- `ERASE(start)` for a legal `start` (R131): unlock, the pages, lock on every path (R141). -/
def eraseRegion (start : Addr) (s : State) : Out :=
  andThen (erasePages start (pageCount s.cfg start) (beginErase s)) fun t => .next (nvmLock t)

/-- `ERASE` as an operation; an illegal `start` is refused (R132). -/
def execErase (start : Addr) (s : State) : Out :=
  if legalErase s.cfg start then eraseRegion start s else .refused .illegalErase

/-! ### WRITE (R135 to R143) -/

/-- `PADDR >= APP_END`: the word does not fit (R136). -/
def pastEnd (s : State) : Bool := decide (s.cfg.appEnd.toNat ≤ s.pAddr.toNat)

/-- `PFAIL <- PFAIL + {BinaryTooLarge}` (R136). -/
def noteTooLarge (s : State) : State := { s with pFail := { s.pFail with binaryTooLarge := true } }

/-- After the program primitive: `PFAIL <- PFAIL + {WriteFailed}` if it reported `fail` (R137). -/
def noteProgram (s : State) : State :=
  if reportedFail s then { s with pFail := { s.pFail with writeFailed := true } } else s

/-- After the program primitive: the loop stops at once (R137). -/
def programStops (s : State) : Bool := reportedFail s && s.cfg.writeFailStops

/-- After the read-back: the four bytes read equal the word written (R138). -/
def readBackEqual (w : NvmWord) (s : State) : Bool := s.ret.word? == some w

/-- `PFAIL <- PFAIL + {ReadbackMismatch}` (R138). -/
def noteMismatch (s : State) : State := { s with pFail := { s.pFail with readbackMismatch := true } }

/-- `PADDR <- PADDR + 4`, `PIDX <- PIDX + 1`. -/
def nextWord (s : State) : State := { s with pAddr := s.pAddr + 4, pIdx := s.pIdx + 1 }

/-- The loop of `WRITE` over the words still to do (R135). -/
def writeWords : List NvmWord → State → Out
  | [], s => .next s
  | w :: ws, s =>
    if pastEnd s then .next (noteTooLarge s)
    else
      andThen (nvmProgramWord s.pAddr w s) fun t =>
        if programStops t then .next (noteProgram t)
        else
          andThen (nvmReadWord (noteProgram t).pAddr (noteProgram t)) fun u =>
            if readBackEqual w u then writeWords ws (nextWord u) else .next (noteMismatch u)

/-- `PFAIL` empty and `PADDR` at the first word, before the unlock (R135). -/
def aimWrite (addr : Addr) (s : State) : State := { s with pFail := .empty, pAddr := addr }

/-- Unlocked, before the first word (R135). -/
def beginWrite (addr : Addr) (s : State) : State := { nvmUnlock (aimWrite addr s) with pIdx := 0 }

/-- `WRITE(addr, W, n)` for a legal `addr` (R135): unlock, the words, lock on every path (R141). `addr_out` is left in
`PADDR` (R140). -/
def writeRegion (addr : Addr) (words : List NvmWord) (s : State) : Out :=
  andThen (writeWords words (beginWrite addr s)) fun t => .next (nvmLock t)

/-- `WRITE` as an operation; an illegal `addr` is refused (R142). -/
def execWrite (addr : Addr) (words : List NvmWord) (s : State) : Out :=
  if legalWrite s.cfg addr then writeRegion addr words s else .refused .illegalWrite

end Sys2Proof.Machine
end

