-- ==== Sys2Proof/Machine/Codec.lean ====
section
/-! DEFINITION. The Integrity Codec: CRC-16/XMODEM (40_integrity_codec.md). -/

namespace Sys2Proof.Machine

/-- The polynomial 0x1021, its x^16 term implied (R111; log 26). -/
def crcPolynomial : CrcWord := 0x1021#16

/-- One of the eight shifts of `CRC_BYTE` (R112): bit 15 is tested, then shifted out. -/
def crcShift (t : CrcWord) : CrcWord := if t.msb then (t <<< 1) ^^^ crcPolynomial else t <<< 1

/-- `CRC_BYTE(c, b)` (R112): the byte enters at bits 15:8, then eight shifts. -/
def crcByte (c : CrcWord) (b : Byte) : CrcWord := Nat.repeat crcShift 8 (c ^^^ (b.setWidth 16 <<< 8))

/-- `CRC16(D)` (R113): `CRC_BYTE` over the bytes, first byte first, from a zero register. -/
def crc16 (data : List Byte) : CrcWord := data.foldl crcByte 0x0000#16

/-- `CRC_BYTE` as an operation: the result is left in `CRC` (R113; log 19). -/
def execCrcByte (c : CrcWord) (b : Byte) (s : State) : Out := .next { s with crc := crcByte c b }

/-- `CRC16` as an operation: it writes the working register `CRC` and nothing else (R113, R116). -/
def execCrc16 (data : List Byte) (s : State) : Out := .next { s with crc := crc16 data }

end Sys2Proof.Machine
end

