-- ==== Sys2Proof/Machine/Validator.lean ====
section
/-! DEFINITION. The Packet Validator (42_packet_validator.md). -/

namespace Sys2Proof.Machine

/-- Check 1: the sequence byte is the expected one (R161). -/
def sequenceExpected (seqB expected : Byte) : Bool := seqB == expected

/-- Check 2: sequence plus complement is 255, summed in 9 bits (R162). -/
def complementMatches (seqB cmpB : Byte) : Bool := seqB.setWidth 9 + cmpB.setWidth 9 == 255#9

/-- Check 3: the CRC of the payload is the received one (R163). -/
def crcMatches (payload : List Byte) (rxCrc : CrcWord) : Bool := crc16 payload == rxCrc

/-- `VALIDATE`: all three checks, the union of their failures (R160, R164). -/
def validateFailures (seqB cmpB : Byte) (payload : List Byte) (rxCrc : CrcWord) (expected : Byte) : ValidateFailures where
  sequenceMismatch := !sequenceExpected seqB expected || !complementMatches seqB cmpB
  crcMismatch := !crcMatches payload rxCrc

/-- `VALIDATE` on given fields: it writes `VFAIL` and the codec's register, nothing else (R160, R165). -/
def validate (seqB cmpB : Byte) (payload : List Byte) (rxCrc : CrcWord) (expected : Byte) (s : State) : State :=
  { s with vFail := validateFailures seqB cmpB payload rxCrc expected, crc := crc16 payload }

/-- `VALIDATE` as an operation (R160). -/
def execValidate (seqB cmpB : Byte) (payload : List Byte) (rxCrc : CrcWord) (expected : Byte) (s : State) : Out :=
  .next (validate seqB cmpB payload rxCrc expected s)

end Sys2Proof.Machine
end

