-- ==== Sys2Proof/Machine/Engine.lean ====
section
/-! DEFINITION. The Xmodem Receive Engine (44_receive_engine.md): invocation, the rows of the `AWAIT_HEADER` table, the
steps of `RECEIVE_PACKET`, the terminal states. -/

namespace Sys2Proof.Machine

/-! ### Invocation (R191) -/

/-- The session registers and `STATE` as `INVOKE` sets them. -/
def sessionReset (s : State) : State :=
  { s with seq := 1, cursor := s.cfg.appBase, erased := false, errCnt := 0 }.enter .awaitHeader

/-- `INVOKE` (R191, R261, R264): from `IDLE` and `TERMINAL_ABORT`, refused elsewhere. DESIGN CHOICE (log 33): the registers
that R191 does not write keep their values, where the table of R37 leaves those of the packet record, the failure flags, the
codec and the programmer's loop unspecified after Invoke. -/
def execInvoke (s : State) : Out :=
  if s.state = .idle ∨ s.state = .terminalAbort then
    .next (({ sessionReset s with env := { s.env with invokes := s.env.invokes - 1 } }).record .invoke .nothing)
  else .refused .invokeRefused

/-! ### AWAIT_HEADER (R192 to R198) -/

/-- Header timeout before the erase: the probe byte (R193). -/
def rowProbe (s : State) : State := (transmit wireProbe s).enter .awaitHeader

/-- Data header: to `RECEIVE_PACKET` (R195). -/
def rowData (s : State) : State := s.enter .receivePacket

/-- End of transmission: ACK, completion notice, success (R196). -/
def rowEot (s : State) : State :=
  (transmitText s.cfg.noticeComplete (transmit wireAck s)).enter .terminalSuccess

/-- Cancel: abort at once, nothing sent (R197). -/
def rowCancel (s : State) : State := s.enter .terminalAbort

/-- The dispatch on `HDRKIND` and `ERASED` (R192). -/
def dispatchHeader (s : State) : State :=
  match s.hdrKind with
  | .none => if s.erased then errorHandler s else rowProbe s
  | .shortData => rowData s
  | .longData => rowData s
  | .endOfTransmission => rowEot s
  | .cancel => rowCancel s
  | .unrecognized => errorHandler s

/-- `HDRKIND` as the row's header gives it (R81; log 22). -/
def State.withKind (k : HeaderKind) (s : State) : State := { s with hdrKind := k }

/-- `SOH` (R195). -/
def execSoh (s : State) : Out := onlyIn .awaitHeader s fun s => .next (rowData (s.withKind .shortData))

/-- `STX` (R195). -/
def execStx (s : State) : Out := onlyIn .awaitHeader s fun s => .next (rowData (s.withKind .longData))

/-- `EOT` (R196). -/
def execEot (s : State) : Out := onlyIn .awaitHeader s fun s => .next (rowEot (s.withKind .endOfTransmission))

/-- `CAN` (R197). -/
def execCan (s : State) : Out := onlyIn .awaitHeader s fun s => .next (rowCancel (s.withKind .cancel))

/-- `HDR_OTHER` (R89, R198); a recognised value is not this row's (R97). -/
def execHdrOther (header : Byte) (s : State) : Out :=
  if recognizedHeader header then .refused .illFormed
  else onlyIn .awaitHeader s fun s => .next (errorHandler (s.withKind .unrecognized))

/-- `HDR_NONE`: R193 when `ERASED` = 0, R194 when `ERASED` = 1, as the row's note in opcode_table.json says. -/
def execHdrNone (s : State) : Out :=
  onlyIn .awaitHeader s fun s => .next (if s.erased then errorHandler (s.withKind .none) else rowProbe (s.withKind .none))

/-- `HDR_NONE_ERASED`: R194, whose condition is `ERASED` = 1. -/
def execHdrNoneErased (s : State) : Out :=
  onlyIn .awaitHeader s fun s =>
    if s.erased then .next (errorHandler (s.withKind .none)) else .refused .notApplicable

/-- `AWAIT_HEADER_STEP` (R192): `READ_HEADER`, then the row. -/
def execAwaitHeaderStep (s : State) : Out :=
  onlyIn .awaitHeader s fun s => .next (dispatchHeader (readHeader s))

/-! ### RECEIVE_PACKET (R199 to R204) -/

/-- `EFAIL <- {}`, `VFAIL <- {}`, `PFAIL <- {}` (R199). -/
def clearFailures (s : State) : State := { s with eFail := .empty, vFail := .empty, pFail := .empty }

/-- The condition of step 1: the packet was read whole, or `ERASE_ON_COMM_ERROR` (R199). -/
def eraseDue (s : State) : Bool := !s.commFail || s.cfg.eraseOnCommError

/-- `ERASED <- 1` if `ERASE` returned success (R200). -/
def noteErased (s : State) : State := if s.eFail = .empty then { s with erased := true } else s

/-- Step 1, the erase (R200). -/
def eraseStep (s : State) : Out :=
  if s.erased then .next s
  else andThen (eraseRegion s.cfg.appBase s) fun t => .next (noteErased t)

/-- The condition of steps 2 and 3 (R199). -/
def validateDue (s : State) : Bool := !s.commFail && decide (s.eFail = .empty)

/-- Step 2: the Validator on the packet record with `expected = SEQ` (R201). -/
def validatePacket (n : Nat) (s : State) : State := validate s.seqB s.cmpB (s.payloadBytes n) s.rxCrc s.seq s

/-- The words of the packet (R87, R201). -/
def packetWords (n : Nat) (s : State) : List NvmWord := wordsOf (s.payloadBytes n)

/-- Steps 2 and 3, validate and write (R201). -/
def validateWriteStep (n : Nat) (s : State) : Out :=
  let t := validatePacket n s
  if t.vFail = .empty then writeRegion t.cursor (packetWords n t) t else .next t

/-- The registers of an accepted packet (R202). -/
def commitPacket (n : Nat) (s : State) : State :=
  { s with errCnt := 0, seq := s.seq + 1, cursor := s.cursor + BitVec.ofNat 32 n }

/-- Step 4, accept (R202). -/
def accept (n : Nat) (s : State) : State := (transmit wireAck (commitPacket n s)).enter .awaitHeader

/-- The escalation of a packet with a flash-related failure (R203, R204). -/
def escalateIfFlash (s : State) : State := if s.failures.flashRelated then escalate s else s

/-- Step 5, classify (R203). -/
def classify (s : State) : State := errorHandler (escalateIfFlash s)

/-- The whole of `RECEIVE_PACKET` for a packet of `n` payload bytes (R199). -/
def receivePacket (n : Nat) (s : State) : Out :=
  let read := readPacket n (clearFailures s)
  andThen (if eraseDue read then eraseStep read else .next read) fun ready =>
    andThen (if validateDue ready then validateWriteStep n ready else .next ready) fun done =>
      .next (if done.failures.isEmpty then accept n done else classify done)

/-- Run `k` with the packet's size; without a data header the packet has none (R88). -/
def withPacketSize (s : State) (k : Nat → State → Out) : Out :=
  match s.packetSize with
  | some n => k n s
  | none => .refused .notApplicable

/-- `RECEIVE_PACKET_STEP` (R199). -/
def execReceivePacketStep (s : State) : Out := onlyIn .receivePacket s fun s => withPacketSize s receivePacket

/-- `ERASE_STEP` (R200). -/
def execEraseStep (s : State) : Out := onlyIn .receivePacket s eraseStep

/-- `VALIDATE_WRITE_STEP` (R201). -/
def execValidateWriteStep (s : State) : Out := onlyIn .receivePacket s fun s => withPacketSize s validateWriteStep

/-- `ACCEPT` (R202). -/
def execAccept (s : State) : Out :=
  onlyIn .receivePacket s fun s => withPacketSize s fun n s => .next (accept n s)

/-- `CLASSIFY` (R203, R204). -/
def execClassify (s : State) : Out := onlyIn .receivePacket s fun s => .next (classify s)

/-- `ERROR_HANDLER` (R205): its call sites are the header rows and step 5. -/
def execErrorHandler (s : State) : Out :=
  if s.state = .awaitHeader ∨ s.state = .receivePacket then .next (errorHandler s) else .refused .notApplicable

/-! ### Whole packets on the wire (R82, R83) -/

/-- The host's next bytes are `bs`. -/
def deliver (bs : List Byte) (s : State) : State :=
  { s with env := { s.env with line := bs.map LineItem.byte ++ s.env.line } }

/-- The whole unit arrives: its header is read and dispatched (R192), then the packet is received (R199). -/
def receiveUnit (bytes : List Byte) (s : State) : Out :=
  onlyIn .awaitHeader s fun s => execReceivePacketStep (dispatchHeader (readHeader (deliver bytes s)))

/-- `PKT128` (R82). -/
def execPkt128 (seqB cmpB : Byte) (payload : List Byte) (crcH crcL : Byte) (s : State) : Out :=
  if payload.length = 128 then receiveUnit (wireSoh :: seqB :: cmpB :: (payload ++ [crcH, crcL])) s
  else .refused .illFormed

/-- `PKT1K` (R83). -/
def execPkt1k (seqB cmpB : Byte) (payload : List Byte) (crcH crcL : Byte) (s : State) : Out :=
  if payload.length = 1024 then receiveUnit (wireStx :: seqB :: cmpB :: (payload ++ [crcH, crcL])) s
  else .refused .illFormed

/-! ### Terminal states (R206, R207) -/

/-- `APP_JUMP` (R206): the application is entered; the block takes no further step. -/
def execAppJump (s : State) : Out :=
  onlyIn .terminalSuccess s fun s =>
    if s.pos = .left then .fault .applicationRuns else .next ((s.goto .left).record .appJump .nothing)

/-- `RETURN_TO_CALLER` (R207). -/
def execReturnToCaller (s : State) : Out :=
  onlyIn .terminalAbort s fun s =>
    if s.pos = .left then .fault .returnedToCaller else .next ((s.goto .left).record .returnToCaller .nothing)

end Sys2Proof.Machine
end

