-- ==== Sys2Proof/Machine/Primitives.lean ====
section
/-! DEFINITION. The primitives as operations of their own: memory (20_memory.md R52 to R56), transport
(43_packet_framer.md R171 to R173), and the emissions of 30_encoding.md R91. -/

namespace Sys2Proof.Machine

/-- `NvmUnlock()` (R52). -/
def execNvmUnlock (s : State) : Out := .next (nvmUnlock s)

/-- `NvmLock()` (R53). -/
def execNvmLock (s : State) : Out := .next (nvmLock s)

/-- `NvmErasePage(a)` (R54). -/
def execNvmErasePage (a : Addr) (s : State) : Out := nvmErasePage a s

/-- `NvmProgramWord(a, W)` (R55). -/
def execNvmProgramWord (a : Addr) (w : NvmWord) (s : State) : Out := nvmProgramWord a w s

/-- `NvmReadWord(a)` (R56). -/
def execNvmReadWord (a : Addr) (s : State) : Out := nvmReadWord a s

/-- `Receive(n)`, `n >= 1` (R171). -/
def execReceive (n : Nat) (s : State) : Out := if 1 ≤ n then .next (receive n s) else .refused .illFormed

/-- `Transmit(b)` (R172). -/
def execTransmit (b : Byte) (s : State) : Out := .next (transmit b s)

/-- `TransmitText(B)` (R173). -/
def execTransmitText (text : List Byte) (s : State) : Out := .next (transmitText text s)

/-! The emissions run as operations of their own. DESIGN CHOICE (log 34): in every `STATE`, and changing no register; the spec
gives each its one place in the engine's rules and says nothing of it elsewhere. -/

/-- The probe byte 'C' (R91, R193; log 34). -/
def execTxProbeC (s : State) : Out := .next (transmit wireProbe s)

/-- ACK (R91, R202; log 34). -/
def execTxAck (s : State) : Out := .next (transmit wireAck s)

/-- ACK, then the completion notice (R91, R196; log 34). -/
def execTxAckEot (s : State) : Out := .next (transmitText s.cfg.noticeComplete (transmit wireAck s))

/-- NAK (R91, R205; log 34). -/
def execTxNak (s : State) : Out := .next (transmit wireNak s)

/-- CAN twice, then the abort notice (R91, R205; log 34). -/
def execTxCanCan (s : State) : Out :=
  .next (transmitText s.cfg.noticeAbort (transmit wireCan (transmit wireCan s)))

end Sys2Proof.Machine
end

