-- ==== Sys2Proof/Machine/Dispatch.lean ====
section
/-! DEFINITION. One meaning for each operation of spec/opcode_table.json. -/

namespace Sys2Proof.Machine

def exec (i : Instr) (s : State) : Host.Outcome State Fault Refusal :=
  match i with
  | .soh => Sys2Proof.Machine.execSoh s
  | .stx => Sys2Proof.Machine.execStx s
  | .eot => Sys2Proof.Machine.execEot s
  | .can => Sys2Proof.Machine.execCan s
  | .hdrOther header => Sys2Proof.Machine.execHdrOther header s
  | .hdrNone => Sys2Proof.Machine.execHdrNone s
  | .hdrNoneErased => Sys2Proof.Machine.execHdrNoneErased s
  | .pkt128 seqB cmpB payload crcH crcL => Sys2Proof.Machine.execPkt128 seqB cmpB payload crcH crcL s
  | .pkt1k seqB cmpB payload crcH crcL => Sys2Proof.Machine.execPkt1k seqB cmpB payload crcH crcL s
  | .txProbeC => Sys2Proof.Machine.execTxProbeC s
  | .txAck => Sys2Proof.Machine.execTxAck s
  | .txAckEot => Sys2Proof.Machine.execTxAckEot s
  | .txNak => Sys2Proof.Machine.execTxNak s
  | .txCanCan => Sys2Proof.Machine.execTxCanCan s
  | .crcByte c b => Sys2Proof.Machine.execCrcByte c b s
  | .crc16 data => Sys2Proof.Machine.execCrc16 data s
  | .erase start => Sys2Proof.Machine.execErase start s
  | .write addr words => Sys2Proof.Machine.execWrite addr words s
  | .validate seqB cmpB payload rxCrc expected => Sys2Proof.Machine.execValidate seqB cmpB payload rxCrc expected s
  | .readHeader => Sys2Proof.Machine.execReadHeader s
  | .readPacket n => Sys2Proof.Machine.execReadPacket n s
  | .invoke => Sys2Proof.Machine.execInvoke s
  | .awaitHeaderStep => Sys2Proof.Machine.execAwaitHeaderStep s
  | .receivePacketStep => Sys2Proof.Machine.execReceivePacketStep s
  | .eraseStep => Sys2Proof.Machine.execEraseStep s
  | .validateWriteStep => Sys2Proof.Machine.execValidateWriteStep s
  | .accept => Sys2Proof.Machine.execAccept s
  | .classify => Sys2Proof.Machine.execClassify s
  | .errorHandler => Sys2Proof.Machine.execErrorHandler s
  | .appJump => Sys2Proof.Machine.execAppJump s
  | .returnToCaller => Sys2Proof.Machine.execReturnToCaller s
  | .nvmUnlock => Sys2Proof.Machine.execNvmUnlock s
  | .nvmLock => Sys2Proof.Machine.execNvmLock s
  | .nvmErasePage a => Sys2Proof.Machine.execNvmErasePage a s
  | .nvmProgramWord a w => Sys2Proof.Machine.execNvmProgramWord a w s
  | .nvmReadWord a => Sys2Proof.Machine.execNvmReadWord a s
  | .receive n => Sys2Proof.Machine.execReceive n s
  | .transmit b => Sys2Proof.Machine.execTransmit b s
  | .transmitText text => Sys2Proof.Machine.execTransmitText text s

end Sys2Proof.Machine
end

