-- ==== Sys2Proof/Machine/Sequencer.lean ====
section
/-! DEFINITION. The engine's control flow at the grain of 00_scope.md R9: which operation comes next, and the internal
computation that follows it up to the next interaction. Each operation it selects is one interaction with the
environment. -/

namespace Sys2Proof.Machine

/-! ### Which operation comes next -/

/-- The word of the packet that `PIDX` counts (R87, R135). -/
def currentWord (s : State) : NvmWord := ((packetWords (s.packetSize.getD 0) s)[s.pIdx]?).getD default

/-- The operation the caller or the engine runs at the beginning of the rule of `STATE` (R190 to R192, R206, R207). -/
def firstOperation (s : State) : Option Instr :=
  match s.state with
  | .idle => if s.env.invokes = 0 then none else some .invoke
  | .awaitHeader => some .readHeader
  | .receivePacket => some (.receive 1)
  | .terminalSuccess => some .appJump
  | .terminalAbort => some .returnToCaller

/-- The operation after control has left the block: only a further `Invoke` of the caller, after an abort (R207, R273). -/
def operationAfterLeaving (s : State) : Option Instr :=
  if s.state = .terminalAbort ∧ s.env.invokes ≠ 0 then some .invoke else none

/-- The next operation; `none`: the block takes no step of its own (R190). -/
def nextOp (s : State) : Option Instr :=
  match s.pos with
  | .start => firstOperation s
  | .probe => some (.transmit wireProbe)
  | .eotAck => some (.transmit wireAck)
  | .eotNotice => some (.transmitText s.cfg.noticeComplete)
  | .nak => some (.transmit wireNak)
  | .firstCan => some (.transmit wireCan)
  | .secondCan => some (.transmit wireCan)
  | .abortNotice => some (.transmitText s.cfg.noticeAbort)
  | .readSequence => some (.receive 1)
  | .readComplement => some (.receive 1)
  | .readPayload => some (.receive (s.packetSize.getD 0))
  | .readCrc => some (.receive 2)
  | .eraseUnlock => some .nvmUnlock
  | .erasePage => some (.nvmErasePage s.pAddr)
  | .eraseLock => some .nvmLock
  | .writeUnlock => some .nvmUnlock
  | .writeProgram => some (.nvmProgramWord s.pAddr (currentWord s))
  | .writeRead => some (.nvmReadWord s.pAddr)
  | .writeLock => some .nvmLock
  | .ack => some (.transmit wireAck)
  | .left => operationAfterLeaving s

/-! ### The internal computation after an operation -/

/-- The handler begins (R205): count, then NAK or CAN CAN. -/
def startHandler (s : State) : State :=
  let t := countError s
  t.goto (if thresholdReached t then .firstCan else .nak)

/-- The beginning of `RECEIVE_PACKET`, up to its first `Receive`: the failure flags are cleared (R199, R177). -/
def beginPacket (s : State) : State := { clearFailures s with commFail := false }

/-- After the header byte: the row of R192; a data header goes on into the beginning of `RECEIVE_PACKET` (R195, R9). -/
def startRow (s : State) : State :=
  match s.hdrKind with
  | .none => if s.erased then startHandler s else s.goto .probe
  | .shortData => (beginPacket (rowData s)).goto .readSequence
  | .longData => (beginPacket (rowData s)).goto .readSequence
  | .endOfTransmission => s.goto .eotAck
  | .cancel => rowCancel s
  | .unrecognized => startHandler s

/-- Steps 4 and 5 of R199: accept up to the ACK, or classify up to the handler's first byte. -/
def startFinish (s : State) : State :=
  if s.failures.isEmpty then (commitPacket (s.packetSize.getD 0) s).goto .ack else startHandler (escalateIfFlash s)

/-- The head of the loop of `WRITE` (R135, R136). -/
def writeHead (s : State) : State :=
  if s.pIdx < s.packetSize.getD 0 / 4 then
    if pastEnd s then (noteTooLarge s).goto .writeLock else s.goto .writeProgram
  else s.goto .writeLock

/-- Steps 2 and 3 of R199, up to the unlock of `WRITE`. -/
def startValidate (s : State) : State :=
  if validateDue s then
    let t := validatePacket (s.packetSize.getD 0) s
    if t.vFail = .empty then (aimWrite t.cursor t).goto .writeUnlock else startFinish t
  else startFinish s

/-- The head of the loop of `ERASE` (R131). -/
def eraseHead (s : State) : State :=
  if s.pIdx < pageCount s.cfg s.cfg.appBase then (aimAtPage s.cfg.appBase s).goto .erasePage else s.goto .eraseLock

/-- After the packet has been read: step 1 of R199, up to the unlock of `ERASE`. -/
def startErase (s : State) : State :=
  if eraseDue s then
    if s.erased then startValidate s else { s with eFail := .empty }.goto .eraseUnlock
  else startValidate s

/-- The internal computation after the operation at the beginning of a rule. `RECEIVE_PACKET` is at its beginning only where
a header row was run as an operation of its own (log 7): its first `Receive` then comes with the clearing of the flags. -/
def afterFirst (st : EngineState) (t : State) : State :=
  match st with
  | .awaitHeader => startRow t
  | .receivePacket => (takeSeqB (beginPacket t)).goto .readComplement
  | .idle | .terminalSuccess | .terminalAbort => t

/-- The internal computation from the operation at position `p` of the rule of `st`, which left the state `t`, up to the
next interaction (R9). -/
def advance (st : EngineState) (p : Pos) (t : State) : State :=
  match p with
  | .start => afterFirst st t
  | .probe => t.enter .awaitHeader
  | .eotAck => t.goto .eotNotice
  | .eotNotice => t.enter .terminalSuccess
  | .nak => handlerReturn t
  | .firstCan => t.goto .secondCan
  | .secondCan => t.goto .abortNotice
  | .abortNotice => t.enter .terminalAbort
  | .readSequence => (takeSeqB t).goto .readComplement
  | .readComplement => (takeCmpB t).goto .readPayload
  | .readPayload => (takePayload t).goto .readCrc
  | .readCrc => startErase (takeCrc t)
  | .eraseUnlock => eraseHead { t with pIdx := 0 }
  | .erasePage => if reportedFail t then (noteEraseFailed t).goto .eraseLock else eraseHead (nextPage t)
  | .eraseLock => startValidate (noteErased t)
  | .writeUnlock => writeHead { t with pIdx := 0 }
  | .writeProgram =>
    if programStops t then (noteProgram t).goto .writeLock else (noteProgram t).goto .writeRead
  | .writeRead =>
    if readBackEqual (currentWord t) t then writeHead (nextWord t) else (noteMismatch t).goto .writeLock
  | .writeLock => startFinish t
  | .ack => t.enter .awaitHeader
  | .left => t

/-! ### Hardware reset (R260) -/

/-- The bytes of the array under a primitive that a hardware reset interrupts are free values (R260, I24). -/
def interruptPrimitive (i : Option Instr) (s : State) : State :=
  match i with
  | some (.nvmErasePage a) =>
    { s with nvm := s.nvm.store a.toNat (freeBytes s.free s.cfg.pageSize), free := s.free + s.cfg.pageSize }
  | some (.nvmProgramWord a _) => { s with nvm := s.nvm.store a.toNat (freeBytes s.free 4), free := s.free + 4 }
  | _ => s

/-- A kind of header from a free number. -/
def freeKind (k : Nat) : HeaderKind :=
  match Config.freeNat k % 6 with
  | 0 => .none
  | 1 => .shortData
  | 2 => .longData
  | 3 => .endOfTransmission
  | 4 => .cancel
  | _ => .unrecognized

/-- An address of free bytes. -/
def freeAddr (k : Nat) : Addr :=
  Config.freeByte k ++ Config.freeByte (k + 1) ++ Config.freeByte (k + 2) ++ Config.freeByte (k + 3)

/-- A hardware reset (R37, R260): `STATE <- IDLE`, `LOCK <- 1`, every other register unspecified (free values), the array
retained but for the bytes under an interrupted primitive; the environment says when the next one comes (log 11). -/
def hardwareReset (s : State) : State :=
  let t := interruptPrimitive (nextOp s) s
  let k := t.free
  { t with
    state := .idle
    pos := .start
    lock := true
    seq := Config.freeByte k
    cursor := freeAddr (k + 1)
    erased := Config.freeBool (k + 5)
    errCnt := Config.freeByte (k + 6)
    hdrKind := freeKind (k + 7)
    seqB := Config.freeByte (k + 8)
    cmpB := Config.freeByte (k + 9)
    rxCrc := Config.freeByte (k + 10) ++ Config.freeByte (k + 11)
    commFail := Config.freeBool (k + 12)
    eFail := ⟨Config.freeBool (k + 13)⟩
    vFail := ⟨Config.freeBool (k + 14), Config.freeBool (k + 15)⟩
    pFail := ⟨Config.freeBool (k + 16), Config.freeBool (k + 17), Config.freeBool (k + 18)⟩
    crc := Config.freeByte (k + 19) ++ Config.freeByte (k + 20)
    pAddr := freeAddr (k + 21)
    pIdx := Config.freeNat (k + 25)
    payload := freePayload (k + 26)
    free := k + 26 + 1024
    env := { t.env with resetIn := t.env.resetGaps.head?, resetGaps := t.env.resetGaps.tail } }
  |>.record .hardwareReset .nothing

end Sys2Proof.Machine
end

