-- ==== Sys2Proof/Machine/Step.lean ====
section
/-! DEFINITION. One step of the machine: one interaction with the environment together with the internal computation up
to the next one (00_scope.md R9), or a hardware reset (70_reset_and_hazards.md R260). -/

namespace Sys2Proof.Machine

/-- One step fewer until the hardware reset, where one will come. -/
def State.tick (s : State) : State :=
  { s with env := { s.env with resetIn := s.env.resetIn.map (· - 1) } }

/-- Why a block that takes no step of its own is stuck (R190, R206, R207). -/
def stuckFault (s : State) : Fault :=
  match s.state with
  | .idle => .idleWithoutInvoke
  | .terminalAbort => .returnedToCaller
  | .awaitHeader | .receivePacket | .terminalSuccess => .applicationRuns

/-- The operation `i`, then the internal computation that follows it. -/
def runOperation (i : Instr) (s : State) : Out :=
  andThen (exec i s.tick) fun t => .next (advance s.state s.pos t)

/-- The step of a block without a next operation: only a hardware reset moves it. -/
def stuckStep (s : State) : Out :=
  match s.env.resetIn with
  | some _ => .next (hardwareReset s)
  | none => .fault (stuckFault s)

/-- The step of a block with a next operation `i`, unless the hardware reset comes now. -/
def operationStep (i : Instr) (s : State) : Out :=
  if s.env.resetIn = some 0 then .next (hardwareReset s) else runOperation i s

/-- One step. A configuration that breaks R8 has no meaning and is refused. -/
def step (s : State) : Host.Outcome State Fault Refusal :=
  if s.cfg.Ok then
    match nextOp s with
    | some i => operationStep i s
    | none => stuckStep s
  else .refused .badConfiguration

/-- The line holds the instruction whose bits, as the opcode table numbers them, are the low `nbits` bits of `w` (its
later bits are 0), ahead of whatever the host sends next. No bits: the host is silent. -/
def putUnit (nbits w : Nat) (line : List LineItem) : List LineItem :=
  if nbits = 0 then .quiet :: line else (tableUnit nbits w).map LineItem.byte ++ line

/-- `s` made ready to fetch: a block that is not waiting for a header is invoked (R191), and no hardware reset comes. -/
def State.readyToFetch (s : State) : State :=
  let t := if s.state = .awaitHeader then s.enter .awaitHeader else sessionReset s
  { t with env := { t.env with resetIn := none } }

/-- `s` with that instruction where `step` fetches its next header (log 13). -/
def State.withFetchWord (s : State) (nbits w : Nat) : State :=
  { s.readyToFetch with env := { s.readyToFetch.env with line := putUnit nbits w s.readyToFetch.env.line } }

end Sys2Proof.Machine
end

