-- ==== Sys2Proof/Safety.lean ====
section
/-! DEFINITION. The terms in which claims are made: what an operation leaves unchanged, the invariant of the machine
(10_state.md R25, 41_memory_programmer.md R141), a host that sends packets, and two states that differ only in what the
transport answered to transmits. -/

namespace Sys2Proof.Machine

/-! ### What is left unchanged -/

/-- The session registers are unchanged (R20). -/
abbrev sameSession (s t : State) : Prop :=
  t.seq = s.seq ∧ t.cursor = s.cursor ∧ t.erased = s.erased ∧ t.errCnt = s.errCnt

/-- The control state is unchanged. -/
abbrev sameControl (s t : State) : Prop := t.state = s.state ∧ t.pos = s.pos

/-- The packet record is unchanged, all of the payload buffer included. -/
abbrev samePacket (s t : State) : Prop :=
  t.hdrKind = s.hdrKind ∧ t.seqB = s.seqB ∧ t.cmpB = s.cmpB ∧ t.payload = s.payload ∧ t.rxCrc = s.rxCrc

/-- The transient failure flags are unchanged. -/
abbrev sameFlags (s t : State) : Prop :=
  t.commFail = s.commFail ∧ t.eFail = s.eFail ∧ t.vFail = s.vFail ∧ t.pFail = s.pFail

/-- The programmer's registers and the codec's are unchanged. -/
abbrev sameWorking (s t : State) : Prop :=
  t.lock = s.lock ∧ t.pAddr = s.pAddr ∧ t.pIdx = s.pIdx ∧ t.crc = s.crc

/-- Every byte of the array reads as before. -/
abbrev sameArray (s t : State) : Prop := ∀ a, t.nvm.read a = s.nvm.read a

/-- Every byte of the array outside `[lo, hi)` reads as before. -/
abbrev sameArrayOutside (lo hi : Nat) (s t : State) : Prop := ∀ a, a < lo ∨ hi ≤ a → t.nvm.read a = s.nvm.read a

/-- The parameters are unchanged. -/
abbrev sameParameters (s t : State) : Prop := t.cfg = s.cfg

/-- Every register but `STATE` (and the position inside its rule) is unchanged, and so is the array. -/
abbrev sameRegisters (s t : State) : Prop :=
  sameSession s t ∧ samePacket s t ∧ sameFlags s t ∧ sameWorking s t ∧ sameArray s t ∧ sameParameters s t

/-- What the block has sent after `s`, given to the transport whatever it answers, is exactly `bytes` (R91, R172). -/
abbrev sends (bytes : List Byte) (s t : State) : Prop := sentBytes t.trace = sentBytes s.trace ++ bytes

/-- How many interactions with the memory a record holds. -/
def memoryCalls (trace : List Event) : Nat := trace.countP Event.isMemory

/-- No memory primitive was issued between `s` and `t`. -/
abbrev noMemoryCall (s t : State) : Prop := memoryCalls t.trace = memoryCalls s.trace

/-- What one run of the error handler on `s` leaves (R205): the count has gone up by one; below the maximum NAK went out and
the engine waits for a header, at the maximum CAN CAN and the abort notice went out and the session is aborted. -/
abbrev countedOnce (s t : State) : Prop :=
  t.errCnt.toNat = s.errCnt.toNat + 1 ∧
  (s.errCnt.toNat + 1 < s.cfg.xMaxErrors.toNat → t.state = .awaitHeader ∧ sends [0x15#8] s t) ∧
  (s.cfg.xMaxErrors.toNat ≤ s.errCnt.toNat + 1 →
    t.state = .terminalAbort ∧ sends ([0x18#8, 0x18#8] ++ s.cfg.noticeAbort) s t)

/-! ### The invariant -/

/-- A position inside an `ERASE` or `WRITE` call between its unlock and its lock (R141). -/
def Pos.unlocked : Pos → Bool
  | .erasePage | .eraseLock | .writeProgram | .writeRead | .writeLock => true
  | .start | .probe | .eotAck | .eotNotice | .nak | .firstCan | .secondCan | .abortNotice
  | .readSequence | .readComplement | .readPayload | .readCrc | .eraseUnlock | .writeUnlock | .ack | .left => false

/-- A position of the handler after the count reached the maximum (R205). -/
def Pos.aborting : Pos → Bool
  | .firstCan | .secondCan | .abortNotice => true
  | .start | .probe | .eotAck | .eotNotice | .nak | .readSequence | .readComplement | .readPayload | .readCrc
  | .eraseUnlock | .erasePage | .eraseLock | .writeUnlock | .writeProgram | .writeRead | .writeLock | .ack
  | .left => false

/-- The state is one in which the engine runs (R190). -/
def EngineState.running : EngineState → Bool
  | .awaitHeader | .receivePacket => true
  | .idle | .terminalSuccess | .terminalAbort => false

/-- The array is in canonical form and lists no address outside the region (R34). -/
abbrev ArrayOk (s : State) : Prop :=
  s.nvm.wf ∧ ∀ c ∈ s.nvm, s.cfg.appBase.toNat ≤ c.1 ∧ c.1 < s.cfg.appEnd.toNat

/-- The session invariants of R25, from the first `INVOKE` on. -/
abbrev SessionOk (s : State) : Prop :=
  s.state ≠ .idle →
    s.cursor.toNat % 4 = 0 ∧ s.cfg.appBase.toNat ≤ s.cursor.toNat ∧ s.cursor.toNat ≤ s.cfg.appEnd.toNat ∧
    (s.cursor.toNat - s.cfg.appBase.toNat) % 128 = 0 ∧
    s.errCnt.toNat ≤ s.cfg.xMaxErrors.toNat + 1 ∧
    (s.state.running = true → s.pos.aborting = false → s.errCnt.toNat < s.cfg.xMaxErrors.toNat)

/-- A packet is being received and its size is known. -/
abbrev InPacket (s : State) : Prop := s.state = .receivePacket ∧ s.packetSize.isSome = true

/-- `PADDR` is at word `PIDX` of the packet (R87, R135). -/
abbrev AtWord (s : State) : Prop := s.pAddr.toNat = s.cursor.toNat + 4 * s.pIdx

/-- What holds at each position inside a rule. -/
def PositionOk (s : State) : Prop :=
  match s.pos with
  | .start => s.state = .receivePacket → s.packetSize.isSome = true
  | .probe | .eotAck | .eotNotice => s.state = .awaitHeader
  | .nak | .firstCan | .secondCan | .abortNotice => s.state.running = true
  | .readSequence =>
    InPacket s ∧ s.commFail = false ∧ s.eFail = .empty ∧ s.vFail = .empty ∧ s.pFail = .empty
  | .readComplement | .readPayload | .readCrc | .eraseUnlock | .eraseLock | .ack => InPacket s
  | .erasePage =>
    InPacket s ∧ s.pIdx < pageCount s.cfg s.cfg.appBase ∧ s.pAddr = pageAddress s.cfg s.cfg.appBase s.pIdx
  | .writeUnlock => InPacket s ∧ s.pAddr = s.cursor
  | .writeProgram | .writeRead =>
    InPacket s ∧ AtWord s ∧ s.pIdx < s.packetSize.getD 0 / 4 ∧ s.pAddr.toNat < s.cfg.appEnd.toNat
  | .writeLock =>
    InPacket s ∧
    (s.pFail = .empty → AtWord s ∧ s.pIdx = s.packetSize.getD 0 / 4 ∧ s.pAddr.toNat ≤ s.cfg.appEnd.toNat)
  | .left => s.state = .terminalSuccess ∨ s.state = .terminalAbort

/-- The invariant of the machine: legal parameters (R8), the array in canonical form inside the region, the session
invariants (R25), the memory locked except inside one call of the programmer (R141), and the position. -/
def Inv (s : State) : Prop :=
  s.cfg.Ok ∧ ArrayOk s ∧ SessionOk s ∧ s.lock = !s.pos.unlocked ∧ PositionOk s

/-! ### A host that sends packets -/

/-- The payload of a packet on the wire. -/
def packetPayload : Instr → List Byte
  | .pkt128 _ _ payload _ _ => payload
  | .pkt1k _ _ payload _ _ => payload
  | _ => []

/-- A well-formed packet. -/
def isPacket : Instr → Bool
  | .pkt128 _ _ payload _ _ => payload.length == 128
  | .pkt1k _ _ payload _ _ => payload.length == 1024
  | _ => false

/-- The operations one after the other. -/
def runAll : List Instr → State → Out
  | [], s => .next s
  | i :: is, s => andThen (exec i s) (runAll is)

/-- The image a list of packets carries: their payloads in order (R215). -/
def imageOf (packets : List Instr) : List Byte := packets.flatMap packetPayload

/-! ### Answers to transmits -/

/-- An interaction without the transport's answer to a transmit. -/
def Event.forgetAnswer : Event → Event
  | .transmit b _ => .transmit b .ok
  | .transmitText text _ => .transmitText text .ok
  | .invoke => .invoke
  | .receive n timeout answer => .receive n timeout answer
  | .nvmUnlock => .nvmUnlock
  | .nvmLock => .nvmLock
  | .nvmErasePage a answer => .nvmErasePage a answer
  | .nvmProgramWord a w answer => .nvmProgramWord a w answer
  | .nvmReadWord a w => .nvmReadWord a w
  | .appJump => .appJump
  | .returnToCaller => .returnToCaller
  | .hardwareReset => .hardwareReset

/-- The two states agree in everything but the answers to transmits: those still to come (equally many are listed), those
recorded, and the result of the last primitive (R172). -/
abbrev sameButTransmits (s t : State) : Prop :=
  sameSession s t ∧ sameControl s t ∧ samePacket s t ∧ sameFlags s t ∧ sameWorking s t ∧ t.nvm = s.nvm ∧
  sameParameters s t ∧ t.free = s.free ∧
  t.env.line = s.env.line ∧ t.env.eraseAnswers = s.env.eraseAnswers ∧ t.env.programAnswers = s.env.programAnswers ∧
  t.env.invokes = s.env.invokes ∧ t.env.resetIn = s.env.resetIn ∧
  t.env.resetGaps = s.env.resetGaps ∧
  t.env.transmitAnswers.length = s.env.transmitAnswers.length ∧
  t.env.textAnswers.length = s.env.textAnswers.length ∧
  t.trace.map Event.forgetAnswer = s.trace.map Event.forgetAnswer

end Sys2Proof.Machine
end

