-- ==== Sys2Proof/Certificates/Slice0/Obligations.lean ====
section
/-! DEFINITION. The statements for the provers. Each docstring names the rule of the spec it formalises. -/

open Sys2Proof Sys2Proof.Machine

/-! ### Encoding -/

/-- R81: the header byte is decoded by exact comparison of all 8 bits; every other value, and no byte, as R81 says. -/
def Obligations.HeaderDecodeIsExact : Prop :=
  (decodeHeader (some 0x01#8) = .soh ∧ headerKind (some 0x01#8) = .shortData) ∧
  (decodeHeader (some 0x02#8) = .stx ∧ headerKind (some 0x02#8) = .longData) ∧
  (decodeHeader (some 0x04#8) = .eot ∧ headerKind (some 0x04#8) = .endOfTransmission) ∧
  (decodeHeader (some 0x18#8) = .can ∧ headerKind (some 0x18#8) = .cancel) ∧
  (decodeHeader none = .hdrNone ∧ headerKind none = .none) ∧
  ∀ b : Byte, b ≠ 0x01#8 → b ≠ 0x02#8 → b ≠ 0x04#8 → b ≠ 0x18#8 →
    decodeHeader (some b) = .hdrOther b ∧ headerKind (some b) = .unrecognized

/-- Words written out from R80 and R82: the header bytes, and scenario A's packet (sequence 1, complement 254, 128 bytes
0xFF, CRC 0xEDA9), with the bytes after the unit left over. -/
def Obligations.WireWordsDecode : Prop :=
  decode [0b00000001#8] = .instr .soh [] ∧
  decode [0b00000010#8] = .instr .stx [] ∧
  decode [0b00000100#8] = .instr .eot [] ∧
  decode [0b00011000#8] = .instr .can [] ∧
  decode [0b01010101#8, 0b00000100#8] = .instr (.hdrOther 0x55#8) [0x04#8] ∧
  decode (0x01#8 :: 0x01#8 :: 0xFE#8 :: (List.replicate 128 0xFF#8 ++ [0xED#8, 0xA9#8, 0x04#8])) =
    .instr (.pkt128 0x01#8 0xFE#8 (List.replicate 128 0xFF#8) 0xED#8 0xA9#8) [0x04#8] ∧
  decode (0x02#8 :: 0x07#8 :: 0xF8#8 :: (List.replicate 1024 0x18#8 ++ [0x12#8, 0x34#8])) =
    .instr (.pkt1k 0x07#8 0xF8#8 (List.replicate 1024 0x18#8) 0x12#8 0x34#8) []

/-- Decoding the encoding of a well-formed operation gives it back, whatever bytes follow; a data header alone is the one
unit whose meaning the bytes after it would change (they are its packet). -/
def Obligations.DecodeInvertsEncode : Prop :=
  ∀ (i : Instr) (unit : List Byte), i.wellFormed = true → encode i = some unit →
    decode unit = .instr i [] ∧ (i ≠ .soh → i ≠ .stx → ∀ rest, decode (unit ++ rest) = .instr i rest)

/-- What the decoder reads is well formed, and its encoding is exactly the bytes it was read from. -/
def Obligations.EncodeInvertsDecode : Prop :=
  ∀ (bytes : List Byte) (i : Instr) (rest : List Byte), decode bytes = .instr i rest →
    i.wellFormed = true ∧ ∃ unit, encode i = some unit ∧ unit ++ rest = bytes

/-- R87: payload to words, positionally: `N / 4` words, word `i` is bytes `4i` to `4i + 3`, and all together they are the
payload. -/
def Obligations.PayloadWordsArePositional : Prop :=
  ∀ payload : List Byte, payload.length % 4 = 0 →
    (wordsOf payload).length = payload.length / 4 ∧
    (∀ i w, (wordsOf payload)[i]? = some w → w.bytes = (payload.drop (4 * i)).take 4) ∧
    (wordsOf payload).flatMap NvmWord.bytes = payload

/-- R85, R86 and R162: the received CRC is assembled high byte first; the complement byte is `255 - SEQB`, which is the
bitwise complement; check 2 of the Validator in all its forms: the sum without wrap, the congruence modulo 256, the
complement; equal bytes never pass (R166). -/
def Obligations.WireFieldForms : Prop :=
  (∀ high low : Byte, (assembleCrc high low).toNat = high.toNat * 256 + low.toNat) ∧
  (∀ seqB : Byte, (complement seqB).toNat = 255 - seqB.toNat ∧ complement seqB = seqB ^^^ 0xFF#8) ∧
  ∀ s c : Byte,
    (complementMatches s c = true ↔ s.toNat + c.toNat = 255) ∧
    (complementMatches s c = true ↔ (s.toNat + c.toNat) % 256 = 255) ∧
    (complementMatches s c = true ↔ c = complement s) ∧
    (complementMatches s c = true ↔ c = s ^^^ 0xFF#8) ∧
    complementMatches s s = false

/-- R95: one bit for each failure, in the order the rule gives; zero is success, and the flash-related class is the bits
from 3 up. -/
def Obligations.StatusVectorBits : Prop :=
  ∀ f : Failures,
    f.vector.getLsbD 0 = f.communicationError ∧ f.vector.getLsbD 1 = f.sequenceMismatch ∧
    f.vector.getLsbD 2 = f.crcMismatch ∧ f.vector.getLsbD 3 = f.eraseFailed ∧
    f.vector.getLsbD 4 = f.binaryTooLarge ∧ f.vector.getLsbD 5 = f.writeFailed ∧
    f.vector.getLsbD 6 = f.readbackMismatch ∧
    (f.vector = 0 ↔ f.isEmpty = true) ∧ (8 ≤ f.vector.toNat ↔ f.flashRelated = true)

/-! ### Integrity Codec -/

/-- The table form of `CRC_BYTE`: the spec's own inference in R119 ("derived: from rule R112 by linearity"). -/
def Obligations.CrcByteTableForm : Prop :=
  ∀ (c : CrcWord) (b : Byte),
    crcByte c b = (c <<< 8) ^^^ crcByte 0x0000#16 ((c >>> 8).setWidth 8 ^^^ b)

/-- R118: the residue of a buffer followed by its own CRC, high byte first, is zero. -/
def Obligations.CrcResidueIsZero : Prop :=
  ∀ data : List Byte,
    crc16 (data ++ [(crc16 data).extractLsb' 8 8, (crc16 data).extractLsb' 0 8]) = 0x0000#16

/-- The coefficients of a bit string, first bit first, as a polynomial over GF(2) (R114). -/
noncomputable def bitPolynomial (bits : List Bool) : Polynomial (ZMod 2) :=
  bits.foldl (fun p b => p * Polynomial.X + if b then 1 else 0) 0

/-- The bits of a byte, bit 7 first (R114). -/
def byteBits (b : Byte) : List Bool := (List.range 8).map fun k => b.getLsbD (7 - k)

/-- The bits of a 16-bit value, bit 15 first. -/
def wordBits (c : CrcWord) : List Bool := (List.range 16).map fun k => c.getLsbD (15 - k)

/-- G(x) = x^16 + x^12 + x^5 + 1 (R111, R114). -/
noncomputable def crcGenerator : Polynomial (ZMod 2) :=
  Polynomial.X ^ 16 + Polynomial.X ^ 12 + Polynomial.X ^ 5 + 1

/-- `CRC16(D)` is the remainder of M(x) * x^16 divided by G(x), the coefficient of x^15 at bit 15 (R114). That the loop of
R113 agrees with that definition is the spec's own inference ("derived: from rules R112 and R113"). -/
def Obligations.CrcIsPolynomialRemainder : Prop :=
  ∀ data : List Byte,
    bitPolynomial (wordBits (crc16 data)) =
      (bitPolynomial (data.flatMap byteBits) * Polynomial.X ^ 16) %ₘ crcGenerator

/-- R113, R116: `CRC16` completes and changes nothing but `CRC`; the result depends on the operand alone; the empty buffer
gives 0, and one more byte is one `CRC_BYTE` (R112) more. That `CRC_BYTE` run as an operation leaves its result in `CRC` is
the model's choice (log 19): R112 gives a result and writes nothing. -/
def Obligations.CrcOperationsWriteOnlyCrc : Prop :=
  (∀ c b s, exec (.crcByte c b) s = .next { s with crc := crcByte c b }) ∧
  (∀ data s, exec (.crc16 data) s = .next { s with crc := crc16 data }) ∧
  crc16 [] = 0x0000#16 ∧
  ∀ (data : List Byte) (b : Byte), crc16 (data ++ [b]) = crcByte (crc16 data) b

/-! ### Memory primitives -/

/-- R52, R53: `NvmUnlock` and `NvmLock` set `LOCK`, cannot fail, and change nothing else. -/
def Obligations.LockPrimitivesSetLock : Prop :=
  ∀ s : State,
    (∃ t, exec .nvmUnlock s = .next t ∧ t.lock = false ∧ sameArray s t ∧
      t = { s with lock := t.lock, trace := .nvmUnlock :: s.trace, ret := .nothing }) ∧
    (∃ t, exec .nvmLock s = .next t ∧ t.lock = true ∧ sameArray s t ∧
      t = { s with lock := t.lock, trace := .nvmLock :: s.trace, ret := .nothing })

/-- R54: `NvmErasePage` under its precondition completes; reported `ok`, the page holds `ERASED_BYTE`; in every case no
byte outside the page and no register changes; the report is the environment's. -/
def Obligations.ErasePageEffect : Prop :=
  ∀ (s : State) (a : Addr), s.lock = false → legalPage s.cfg a →
    ∃ t st, exec (.nvmErasePage a) s = .next t ∧ t.ret = .status st ∧
      (st = .ok → ∀ k, k < s.cfg.pageSize → t.nvm.read (a.toNat + k) = s.cfg.erasedByte) ∧
      sameArrayOutside a.toNat (a.toNat + s.cfg.pageSize) s t ∧
      (∀ answer rest, s.env.eraseAnswers = answer :: rest → st = answer ∧ t.env.eraseAnswers = rest) ∧
      sameSession s t ∧ sameControl s t ∧ samePacket s t ∧ sameFlags s t ∧ sameWorking s t ∧ sameParameters s t ∧
      t.trace = .nvmErasePage a st :: s.trace

/-- R55: `NvmProgramWord` under its precondition completes; the status and the four bytes the array then holds are the
environment's two draws, in every combination; no byte outside the word and no register changes (R57). -/
def Obligations.ProgramWordEffect : Prop :=
  ∀ (s : State) (a : Addr) (w : NvmWord), s.lock = false → legalWord s.cfg a →
    ∃ t st, exec (.nvmProgramWord a w) s = .next t ∧ t.ret = .status st ∧
      sameArrayOutside a.toNat (a.toNat + 4) s t ∧
      (∀ answer leave rest, s.env.programAnswers = ⟨answer, some leave⟩ :: rest →
        st = answer ∧ t.nvm.readWord a.toNat = leave ∧ t.env.programAnswers = rest) ∧
      (∀ answer rest, s.env.programAnswers = ⟨answer, none⟩ :: rest →
        st = answer ∧ t.nvm.readWord a.toNat = w ∧ t.env.programAnswers = rest) ∧
      sameSession s t ∧ sameControl s t ∧ samePacket s t ∧ sameFlags s t ∧ sameWorking s t ∧ sameParameters s t ∧
      t.trace = .nvmProgramWord a w st :: s.trace

/-- R56: `NvmReadWord` under its precondition completes with the current contents, exactly, with `LOCK` at either value,
and has no side effect. -/
def Obligations.ReadWordExact : Prop :=
  ∀ (s : State) (a : Addr), legalWord s.cfg a →
    ∃ t w, exec (.nvmReadWord a) s = .next t ∧ t.ret = .word w ∧
      w.b0 = s.nvm.read a.toNat ∧ w.b1 = s.nvm.read (a.toNat + 1) ∧ w.b2 = s.nvm.read (a.toNat + 2) ∧
      w.b3 = s.nvm.read (a.toNat + 3) ∧
      t = { s with trace := .nvmReadWord a w :: s.trace, ret := .word w }

/-- R58: a primitive called with a precondition false is refused, and only then. -/
def Obligations.PrimitivesRefusedOutsidePreconditions : Prop :=
  ∀ (s : State) (a : Addr) (w : NvmWord),
    (exec (.nvmErasePage a) s = .refused .primitivePrecondition ↔ ¬(s.lock = false ∧ legalPage s.cfg a)) ∧
    (exec (.nvmProgramWord a w) s = .refused .primitivePrecondition ↔ ¬(s.lock = false ∧ legalWord s.cfg a)) ∧
    (exec (.nvmReadWord a) s = .refused .primitivePrecondition ↔ ¬legalWord s.cfg a)

/-! ### Rules over all operations -/

/-- Every operation keeps the array in the canonical form in which the model holds it (the model's own form, log 3). -/
def Obligations.ExecKeepsMemoryCanonical : Prop :=
  ∀ (i : Instr) (s t : State), s.nvm.wf → exec i s = .next t → t.nvm.wf

/-- R50, R65: no operation changes a byte outside the region, nor lists one there. -/
def Obligations.ExecTouchesOnlyTheRegion : Prop :=
  ∀ (i : Instr) (s t : State), s.cfg.Ok → exec i s = .next t →
    sameArrayOutside s.cfg.appBase.toNat s.cfg.appEnd.toNat s t ∧ (ArrayOk s → ArrayOk t)

/-- R141: every operation but `NvmUnlock` itself leaves the memory locked if it found it locked: whatever `ERASE` or
`WRITE` meets, it re-locks. -/
def Obligations.ExecLeavesMemoryLocked : Prop :=
  ∀ (i : Instr) (s t : State), i ≠ .nvmUnlock → s.lock = true → exec i s = .next t → t.lock = true

/-- The parameters of R7 are no state (R35): the model carries them in a field (log 1) that no operation and no step
changes. -/
def Obligations.ParametersNeverChange : Prop :=
  (∀ (i : Instr) (s t : State), exec i s = .next t → sameParameters s t) ∧
  (∀ s t : State, step s = .next t → sameParameters s t)

/-! ### Memory Programmer -/

/-- R131, R134: `ERASE` with a legal operand completes, whatever the primitives report, and re-locks; success means that
every byte from `start` to the end of the region holds `ERASED_BYTE`; nothing before `start` and nothing outside the region
changes; no register changes but `EFAIL` and the programmer's. -/
def Obligations.EraseErasesTheRegion : Prop :=
  ∀ (s : State) (start : Addr), s.cfg.Ok → legalErase s.cfg start →
    ∃ t, exec (.erase start) s = .next t ∧ t.lock = true ∧
      (t.eFail = .empty → ∀ a, start.toNat ≤ a → a < s.cfg.appEnd.toNat → t.nvm.read a = s.cfg.erasedByte) ∧
      sameArrayOutside start.toNat s.cfg.appEnd.toNat s t ∧
      (∀ rest, s.env.eraseAnswers = List.replicate (pageCount s.cfg start) .ok ++ rest →
        t.eFail = .empty ∧ t.env.eraseAnswers = rest) ∧
      sameSession s t ∧ sameControl s t ∧ samePacket s t ∧ t.commFail = s.commFail ∧ t.vFail = s.vFail ∧
      t.pFail = s.pFail ∧ t.crc = s.crc ∧ sameParameters s t

/-- R133: when the report of page `k` is the first `fail`, `ERASE` returns `{EraseFailed}`, the pages after it are not
visited, and the memory is locked. What the array then holds is the model's reading (log 17): R133 names the pages before as
erased and the later ones as keeping their contents, and also says that a model must treat every byte of `[start, APP_END)`
as unspecified; the model frees the failing page alone. -/
def Obligations.EraseStopsAtFirstFailure : Prop :=
  ∀ (s : State) (start : Addr) (k : Nat) (rest : List Status), s.cfg.Ok → legalErase s.cfg start →
    k < pageCount s.cfg start → s.env.eraseAnswers = List.replicate k .ok ++ .fail :: rest →
    ∃ t, exec (.erase start) s = .next t ∧ t.eFail = ⟨true⟩ ∧ t.lock = true ∧ t.env.eraseAnswers = rest ∧
      (∀ a, start.toNat ≤ a → a < start.toNat + k * s.cfg.pageSize → t.nvm.read a = s.cfg.erasedByte) ∧
      (∀ a, a < start.toNat ∨ start.toNat + (k + 1) * s.cfg.pageSize ≤ a → t.nvm.read a = s.nvm.read a)

/-- R132, R142: `ERASE` is refused exactly for an operand off the page boundaries or outside the region, `WRITE` exactly
for an operand misaligned or below the region; `ERASE(APP_END)` erases nothing and succeeds. -/
def Obligations.IllegalOperandsRefused : Prop :=
  ∀ (s : State) (a : Addr) (ws : List NvmWord), s.cfg.Ok →
    (exec (.erase a) s = .refused .illegalErase ↔ ¬legalErase s.cfg a) ∧
    (exec (.write a ws) s = .refused .illegalWrite ↔ ¬legalWrite s.cfg a) ∧
    ∃ t, exec (.erase s.cfg.appEnd) s = .next t ∧ t.eFail = .empty ∧ t.nvm = s.nvm ∧
      t.trace = [.nvmLock, .nvmUnlock] ++ s.trace

/-- R143: `WRITE` with a legal operand completes and re-locks; success means that every word stands in the array and
`addr_out = addr + 4n`; no byte outside the words, and none at or above `APP_END`, changes; no register changes but
`PFAIL` and the programmer's. -/
def Obligations.WriteGuarantee : Prop :=
  ∀ (s : State) (addr : Addr) (ws : List NvmWord), s.cfg.Ok → legalWrite s.cfg addr →
    ∃ t, exec (.write addr ws) s = .next t ∧ t.lock = true ∧
      (t.pFail = .empty → t.pAddr.toNat = addr.toNat + 4 * ws.length ∧
        ∀ i w, ws[i]? = some w → t.nvm.readWord (addr.toNat + 4 * i) = w) ∧
      (∀ a, a < addr.toNat ∨ addr.toNat + 4 * ws.length ≤ a ∨ s.cfg.appEnd.toNat ≤ a →
        t.nvm.read a = s.nvm.read a) ∧
      sameSession s t ∧ sameControl s t ∧ samePacket s t ∧ t.commFail = s.commFail ∧ t.eFail = s.eFail ∧
      t.vFail = s.vFail ∧ t.crc = s.crc ∧ sameParameters s t

/-- R135: when every program primitive answers as intended and the words fit, `WRITE` returns success with all of them
programmed, one program and one read of each. -/
def Obligations.WriteOfIntendedWords : Prop :=
  ∀ (s : State) (addr : Addr) (ws : List NvmWord) (rest : List ProgramAnswer), s.cfg.Ok → legalWrite s.cfg addr →
    (ws ≠ [] → addr.toNat + 4 * ws.length ≤ s.cfg.appEnd.toNat) →
    s.env.programAnswers = List.replicate ws.length ⟨.ok, none⟩ ++ rest →
    ∃ t, exec (.write addr ws) s = .next t ∧ t.pFail = .empty ∧ t.pAddr.toNat = addr.toNat + 4 * ws.length ∧
      t.env.programAnswers = rest ∧ memoryCalls t.trace = memoryCalls s.trace + 2 * ws.length + 2 ∧
      ∀ i w, ws[i]? = some w → t.nvm.readWord (addr.toNat + 4 * i) = w

/-- R136: the bound is tested for each word before it is programmed. A `WRITE` whose `m` first words fit and whose next
does not programs exactly those `m` and returns `{BinaryTooLarge}` with `addr_out = APP_END`; a `WRITE` at or above
`APP_END` programs nothing. -/
def Obligations.WriteTooLarge : Prop :=
  ∀ (s : State) (addr : Addr) (ws : List NvmWord), s.cfg.Ok → legalWrite s.cfg addr →
    (s.cfg.appEnd.toNat ≤ addr.toNat → ws ≠ [] →
      ∃ t, exec (.write addr ws) s = .next t ∧ t.pFail = ⟨true, false, false⟩ ∧ t.pAddr = addr ∧ t.nvm = s.nvm ∧
        t.trace = [.nvmLock, .nvmUnlock] ++ s.trace) ∧
    (∀ m rest, addr.toNat + 4 * m = s.cfg.appEnd.toNat → m < ws.length →
      s.env.programAnswers = List.replicate m ⟨.ok, none⟩ ++ rest →
      ∃ t, exec (.write addr ws) s = .next t ∧ t.pFail = ⟨true, false, false⟩ ∧ t.pAddr = s.cfg.appEnd ∧
        t.env.programAnswers = rest ∧
        (∀ i w, i < m → ws[i]? = some w → t.nvm.readWord (addr.toNat + 4 * i) = w) ∧
        sameArrayOutside addr.toNat s.cfg.appEnd.toNat s t)

/-- R139: the failure sets `WRITE` can return; with `WRITE_FAIL_STOPS` no two kinds are ever signalled together. -/
def Obligations.WriteFailureCombinations : Prop :=
  ∀ (s t : State) (addr : Addr) (ws : List NvmWord), exec (.write addr ws) s = .next t →
    (t.pFail = ⟨false, false, false⟩ ∨ t.pFail = ⟨true, false, false⟩ ∨ t.pFail = ⟨false, true, false⟩ ∨
      t.pFail = ⟨false, false, true⟩ ∨
      (s.cfg.writeFailStops = false ∧ (t.pFail = ⟨false, true, true⟩ ∨ t.pFail = ⟨true, true, false⟩)))

/-- R137: a program primitive reports `fail`, at any word of the call, the words before it answered as intended. With
`WRITE_FAIL_STOPS` the loop stops at once: no read-back of that word, no further word. Without it the word is read back: if it
differs `ReadbackMismatch` is added and the loop stops; if it is equal the loop goes on: with the words after it answered as
intended and fitting, every word stands in the array and the call still fails at its end; with words that do not fit,
`BinaryTooLarge` is added (R139). -/
def Obligations.WriteFailedReport : Prop :=
  ∀ (s : State) (addr : Addr) (before after : List NvmWord) (w : NvmWord) (leave : Option NvmWord) (rest : List ProgramAnswer),
    s.cfg.Ok → legalWrite s.cfg addr → addr.toNat + 4 * before.length < s.cfg.appEnd.toNat →
    s.env.programAnswers = List.replicate before.length ⟨.ok, none⟩ ++ ⟨.fail, leave⟩ :: rest →
    (s.cfg.writeFailStops = true →
      ∃ t trace, exec (.write addr (before ++ w :: after)) s = .next t ∧ t.pFail = ⟨false, true, false⟩ ∧
        t.pAddr.toNat = addr.toNat + 4 * before.length ∧ t.env.programAnswers = rest ∧
        t.trace = [.nvmLock, .nvmProgramWord t.pAddr w .fail] ++ trace ∧
        memoryCalls t.trace = memoryCalls s.trace + 2 * before.length + 3 ∧
        (∀ i x, before[i]? = some x → t.nvm.readWord (addr.toNat + 4 * i) = x) ∧
        t.nvm.readWord t.pAddr.toNat = leave.getD w ∧ sameArrayOutside addr.toNat (t.pAddr.toNat + 4) s t) ∧
    (s.cfg.writeFailStops = false → leave.getD w ≠ w →
      ∃ t trace, exec (.write addr (before ++ w :: after)) s = .next t ∧ t.pFail = ⟨false, true, true⟩ ∧
        t.pAddr.toNat = addr.toNat + 4 * before.length ∧ t.env.programAnswers = rest ∧
        t.trace = [.nvmLock, .nvmReadWord t.pAddr (leave.getD w), .nvmProgramWord t.pAddr w .fail] ++ trace ∧
        memoryCalls t.trace = memoryCalls s.trace + 2 * before.length + 4 ∧
        (∀ i x, before[i]? = some x → t.nvm.readWord (addr.toNat + 4 * i) = x) ∧
        t.nvm.readWord t.pAddr.toNat = leave.getD w ∧ sameArrayOutside addr.toNat (t.pAddr.toNat + 4) s t) ∧
    (s.cfg.writeFailStops = false → leave.getD w = w →
      (∀ last, addr.toNat + 4 * (before ++ w :: after).length ≤ s.cfg.appEnd.toNat →
        rest = List.replicate after.length ⟨.ok, none⟩ ++ last →
        ∃ t, exec (.write addr (before ++ w :: after)) s = .next t ∧ t.pFail = ⟨false, true, false⟩ ∧
          t.pAddr.toNat = addr.toNat + 4 * (before ++ w :: after).length ∧ t.env.programAnswers = last ∧
          memoryCalls t.trace = memoryCalls s.trace + 2 * (before ++ w :: after).length + 2 ∧
          ∀ i x, (before ++ w :: after)[i]? = some x → t.nvm.readWord (addr.toNat + 4 * i) = x) ∧
      (∀ k last, addr.toNat + 4 * (before.length + 1 + k) = s.cfg.appEnd.toNat → k < after.length →
        rest = List.replicate k ⟨.ok, none⟩ ++ last →
        ∃ t, exec (.write addr (before ++ w :: after)) s = .next t ∧ t.pFail = ⟨true, true, false⟩ ∧
          t.pAddr = s.cfg.appEnd ∧ t.env.programAnswers = last))

/-- R138: a program primitive that reports `ok` but leaves other bytes, at any word of the call, the words before it answered
as intended, is caught by the read-back of that word: the loop stops there, the mismatching word stays as the primitive left
it, `PADDR` is at it, the words before it stand in the array, and the memory is locked. -/
def Obligations.SilentFailureCaught : Prop :=
  ∀ (s : State) (addr : Addr) (before after : List NvmWord) (w leave : NvmWord) (rest : List ProgramAnswer),
    s.cfg.Ok → legalWrite s.cfg addr → addr.toNat + 4 * before.length < s.cfg.appEnd.toNat →
    s.env.programAnswers = List.replicate before.length ⟨.ok, none⟩ ++ ⟨.ok, some leave⟩ :: rest → leave ≠ w →
    ∃ t trace, exec (.write addr (before ++ w :: after)) s = .next t ∧ t.pFail = ⟨false, false, true⟩ ∧
      t.pAddr.toNat = addr.toNat + 4 * before.length ∧ t.env.programAnswers = rest ∧ t.lock = true ∧
      t.trace = [.nvmLock, .nvmReadWord t.pAddr leave, .nvmProgramWord t.pAddr w .ok] ++ trace ∧
      memoryCalls t.trace = memoryCalls s.trace + 2 * before.length + 4 ∧
      (∀ i x, before[i]? = some x → t.nvm.readWord (addr.toNat + 4 * i) = x) ∧
      t.nvm.readWord t.pAddr.toNat = leave ∧ sameArrayOutside addr.toNat (t.pAddr.toNat + 4) s t

/-! ### Packet Validator -/

/-- R160, R164: `VALIDATE` completes, runs all three checks, reports the union of their failures, and writes `VFAIL` and
the codec's register only (R165). That it runs on a payload of any length is the model's choice (log 27): R160 gives 128 or
1024 bytes. -/
def Obligations.ValidateRunsAllChecks : Prop :=
  ∀ (s : State) (seqB cmpB : Byte) (payload : List Byte) (rxCrc : CrcWord) (expected : Byte),
    ∃ t, exec (.validate seqB cmpB payload rxCrc expected) s = .next t ∧
      (t.vFail.sequenceMismatch = true ↔ seqB ≠ expected ∨ seqB.toNat + cmpB.toNat ≠ 255) ∧
      (t.vFail.crcMismatch = true ↔ crc16 payload ≠ rxCrc) ∧
      t = { s with vFail := t.vFail, crc := crc16 payload }

/-! ### Packet Framer and transport -/

/-- R171, R174: `Receive(n)` takes exactly `n` bytes off the line, first byte first, or fails when the host falls silent
before that, the bytes taken lost; it completes whatever the line holds, and changes no register. What the host will send
stands on `env.line`, the model's way to hold the environment's answers (log 4). -/
def Obligations.ReceiveTakesTheLine : Prop :=
  ∀ (s : State) (n : Nat), 1 ≤ n →
    ∃ t a, exec (.receive n) s = .next t ∧ t.ret = .received a ∧ sameControl s t ∧ sameRegisters s t ∧
      (∀ bytes, a = .ok bytes → bytes.length = n) ∧
      (∀ (bytes : List Byte) (rest : List LineItem), bytes.length = n → s.env.line = bytes.map LineItem.byte ++ rest →
        a = .ok bytes ∧ t.env.line = rest) ∧
      (∀ (bytes : List Byte) (rest : List LineItem), bytes.length < n →
        s.env.line = bytes.map LineItem.byte ++ .quiet :: rest →
        a = .fail ∧ t.env.line = rest)

/-- R175: `READ_HEADER` is exactly one `Receive(1)`, whatever its answer, and then the decode of the byte received, or of
none where it failed; it completes whatever the line holds and writes `HDRKIND` only. -/
def Obligations.ReadHeaderKind : Prop :=
  ∀ s : State,
    ∃ r a t, exec (.receive 1) s = .next r ∧ r.ret = .received a ∧ r.trace = .receive 1 s.cfg.tRx a :: s.trace ∧
      exec .readHeader s = .next t ∧ t = { r with hdrKind := t.hdrKind } ∧
      (a = .fail ∧ t.hdrKind = .none ∨ ∃ b, a = .ok [b] ∧ t.hdrKind = headerKind (some b)) ∧
      sameControl s t ∧ sameSession s t ∧ sameFlags s t ∧ sameWorking s t ∧ sameArray s t ∧ sameParameters s t ∧
      t.seqB = s.seqB ∧ t.cmpB = s.cmpB ∧ t.payload = s.payload ∧ t.rxCrc = s.rxCrc ∧
      (∀ b rest, s.env.line = .byte b :: rest → t.hdrKind = headerKind (some b) ∧ t.env.line = rest) ∧
      (∀ rest, s.env.line = .quiet :: rest → t.hdrKind = .none ∧ t.env.line = rest)

/-- R177: a packet delivered whole fills the packet record, with `COMMFAIL` = 0; the buffer above `N` is kept; no session
register and no byte of the array changes. -/
def Obligations.ReadPacketWhole : Prop :=
  ∀ (s : State) (n : Nat) (seqB cmpB : Byte) (payload : List Byte) (high low : Byte) (rest : List LineItem),
    isPayloadSize n = true → payload.length = n →
    s.env.line = (seqB :: cmpB :: (payload ++ [high, low])).map LineItem.byte ++ rest →
    ∃ t, exec (.readPacket n) s = .next t ∧ t.commFail = false ∧ t.seqB = seqB ∧ t.cmpB = cmpB ∧
      t.payloadBytes n = payload ∧ t.payload.toList.drop n = s.payload.toList.drop n ∧
      t.rxCrc.toNat = high.toNat * 256 + low.toNat ∧ t.env.line = rest ∧
      sameSession s t ∧ sameControl s t ∧ sameWorking s t ∧ sameArray s t ∧ sameParameters s t ∧
      t.hdrKind = s.hdrKind ∧ t.eFail = s.eFail ∧ t.vFail = s.vFail ∧ t.pFail = s.pFail

/-- R177, R178: all four reads are made, of 1, 1, `N` and 2 bytes, in order, whether or not an earlier one failed, and nothing
else; `COMMFAIL` is 1 exactly if one of them failed; a read that succeeded fills its field. So a packet before whose end the
host falls silent has `COMMFAIL` = 1, and after a failed first read the other three still fill their fields (vector F-9).
`READ_PACKET` completes whatever the line holds and changes no session register and no byte of the array. That it is refused
for any `N` but 128 and 1024 is the model's choice (log 28): R177 names the two sizes and says nothing of another. -/
def Obligations.ReadPacketShort : Prop :=
  ∀ (s : State) (n : Nat),
    (isPayloadSize n = true →
      ∃ t a1 a2 a3 a4, exec (.readPacket n) s = .next t ∧
        t.trace = [.receive 2 s.cfg.tRx a4, .receive n s.cfg.tRx a3, .receive 1 s.cfg.tRx a2, .receive 1 s.cfg.tRx a1] ++
          s.trace ∧
        (t.commFail = true ↔ a1 = .fail ∨ a2 = .fail ∨ a3 = .fail ∨ a4 = .fail) ∧
        (a1 = .fail ∨ a1 = .ok [t.seqB]) ∧ (a2 = .fail ∨ a2 = .ok [t.cmpB]) ∧
        (a3 = .fail ∨ a3 = .ok (t.payloadBytes n)) ∧
        (a4 = .fail ∨ ∃ high low, a4 = .ok [high, low] ∧ t.rxCrc.toNat = high.toNat * 256 + low.toNat) ∧
        (∀ (bytes : List Byte) (rest : List LineItem), bytes.length < n + 4 →
          s.env.line = bytes.map LineItem.byte ++ .quiet :: rest →
          t.commFail = true) ∧
        (∀ (cmpB : Byte) (payload : List Byte) (high low : Byte) (rest : List LineItem), payload.length = n →
          s.env.line = .quiet :: ((cmpB :: (payload ++ [high, low])).map LineItem.byte ++ rest) →
          t.commFail = true ∧ t.cmpB = cmpB ∧ t.payloadBytes n = payload ∧
            t.rxCrc.toNat = high.toNat * 256 + low.toNat ∧ t.env.line = rest) ∧
        sameSession s t ∧ sameControl s t ∧ sameWorking s t ∧ sameArray s t ∧ sameParameters s t ∧
        t.hdrKind = s.hdrKind ∧ t.eFail = s.eFail ∧ t.vFail = s.vFail ∧ t.pFail = s.pFail) ∧
    (isPayloadSize n = false → exec (.readPacket n) s = .refused .illFormed)

/-- R172: the answers to `Transmit` and `TransmitText` change no register and no later answer of any other primitive:
from two states that agree in everything else, every operation leaves two states that agree in everything else. -/
def Obligations.TransmitAnswersIgnored : Prop :=
  ∀ (i : Instr) (s t s' : State), sameButTransmits s t → exec i s = .next s' →
    ∃ t', exec i t = .next t' ∧ sameButTransmits s' t'

/-- R91: each row of format TX, and `Transmit` and `TransmitText`, completes, gives exactly its bytes to the transport, in
order, and changes no register, whatever the transport answers. That a TX row run as an operation of its own does so in every
`STATE` is the model's choice (log 34). R172: the byte of a `Transmit` was handed to the line if the
answer, the environment's draw, is `ok`, and was not if it is `fail`; a text whose `TransmitText` answered `ok` was handed to
the line whole (R173). How much of a text was, whose `TransmitText` answered `fail`, is log 32 and not stated here. -/
def Obligations.EmissionsAreExactly : Prop :=
  ∀ s : State,
    (∀ i bytes, emission s.cfg i = some bytes →
      ∃ t, exec i s = .next t ∧ sends bytes s t ∧ sameControl s t ∧ sameRegisters s t) ∧
    (∀ b, ∃ t answer, exec (.transmit b) s = .next t ∧ t.ret = .status answer ∧
      t.trace = .transmit b answer :: s.trace ∧ sends [b] s t ∧
      (∀ x rest, s.env.transmitAnswers = x :: rest → answer = x ∧ t.env.transmitAnswers = rest) ∧
      (answer = .ok → reachedBytes t.trace = reachedBytes s.trace ++ [b]) ∧
      (answer = .fail → reachedBytes t.trace = reachedBytes s.trace) ∧ sameControl s t ∧ sameRegisters s t) ∧
    (∀ text, ∃ t answer, exec (.transmitText text) s = .next t ∧ t.ret = .status answer ∧
      t.trace = .transmitText text answer :: s.trace ∧ sends text s t ∧
      (∀ x rest, s.env.textAnswers = x :: rest → answer = x ∧ t.env.textAnswers = rest) ∧
      (answer = .ok → reachedBytes t.trace = reachedBytes s.trace ++ text) ∧ sameControl s t ∧ sameRegisters s t)

/-! ### Receive Engine -/

/-- R191: `INVOKE` from `IDLE` and from `TERMINAL_ABORT` resets the session and waits for a header; it sends nothing,
issues no memory primitive, and leaves the array and `LOCK`; elsewhere it is refused. That it leaves the registers R191 does
not write is the model's choice (log 33): the table of R37 has them unspecified after Invoke. -/
def Obligations.InvokeResetsSession : Prop :=
  ∀ s : State,
    (s.state = .idle ∨ s.state = .terminalAbort →
      ∃ t, exec .invoke s = .next t ∧ t.state = .awaitHeader ∧ t.seq = 1 ∧ t.cursor = s.cfg.appBase ∧
        t.erased = false ∧ t.errCnt = 0 ∧ sends [] s t ∧ noMemoryCall s t ∧
        samePacket s t ∧ sameFlags s t ∧ sameWorking s t ∧ sameArray s t ∧ sameParameters s t) ∧
    (s.state = .awaitHeader ∨ s.state = .receivePacket ∨ s.state = .terminalSuccess →
      exec .invoke s = .refused .invokeRefused)

/-- R193: a header timeout with `ERASED` = 0 sends 'C' and remains in `AWAIT_HEADER`; no register is written but
`HDRKIND`, which the row sets as the decode gives it (log 22), in particular `ERRCNT` is not incremented; no memory
primitive is issued. -/
def Obligations.TimeoutBeforeEraseProbes : Prop :=
  ∀ s : State, s.state = .awaitHeader → s.erased = false →
    ∃ t, exec .hdrNone s = .next t ∧ sends [0x43#8] s t ∧ t.state = .awaitHeader ∧ t.hdrKind = .none ∧
      sameRegisters { s with hdrKind := .none } t ∧ noMemoryCall s t

/-- R195, R197: a data header moves to `RECEIVE_PACKET` with its kind; a cancel moves to `TERMINAL_ABORT`; neither sends a
byte, issues a memory primitive or writes another register; `HDRKIND` is set as the decode gives it (log 22). -/
def Obligations.SilentHeaderRows : Prop :=
  ∀ s : State, s.state = .awaitHeader →
    (∃ t, exec .soh s = .next t ∧ t.state = .receivePacket ∧ t.packetSize = some 128 ∧
      sameRegisters { s with hdrKind := .shortData } t ∧ t.trace = s.trace) ∧
    (∃ t, exec .stx s = .next t ∧ t.state = .receivePacket ∧ t.packetSize = some 1024 ∧
      sameRegisters { s with hdrKind := .longData } t ∧ t.trace = s.trace) ∧
    (∃ t, exec .can s = .next t ∧ t.state = .terminalAbort ∧
      sameRegisters { s with hdrKind := .cancel } t ∧ t.trace = s.trace)

/-- R196: EOT sends ACK and the completion notice and moves to `TERMINAL_SUCCESS`, whatever the session has or has not
done; no register is written but `STATE` (and `HDRKIND`, which the row sets as the decode gives it, log 22). -/
def Obligations.EndOfTransmissionSucceeds : Prop :=
  ∀ s : State, s.state = .awaitHeader →
    ∃ t, exec .eot s = .next t ∧ t.state = .terminalSuccess ∧ sends (0x06#8 :: s.cfg.noticeComplete) s t ∧
      sameRegisters { s with hdrKind := .endOfTransmission } t ∧ noMemoryCall s t

/-- R194, R198: an unrecognised header, and a header timeout with `ERASED` = 1, run the error-handler policy and nothing
else. That the second row of a header timeout is refused while `ERASED` = 0 is the model's choice (log 9), and that each row
sets `HDRKIND` (log 22). -/
def Obligations.HandlerHeaderRows : Prop :=
  ∀ s : State, s.state = .awaitHeader →
    (∀ b, recognizedHeader b = false →
      exec (.hdrOther b) s = exec .errorHandler { s with hdrKind := .unrecognized }) ∧
    (s.erased = true →
      exec .hdrNone s = exec .errorHandler { s with hdrKind := .none } ∧
      exec .hdrNoneErased s = exec .errorHandler { s with hdrKind := .none }) ∧
    (∀ b, recognizedHeader b = false → ∃ t, exec (.hdrOther b) s = .next t) ∧
    (s.erased = true → ∃ t, exec .hdrNoneErased s = .next t) ∧
    (s.erased = false → exec .hdrNoneErased s = .refused .notApplicable)

/-- R205, R238: the error-handler policy. The count is incremented; at the maximum CAN CAN and the abort notice go out and
the session aborts; below it NAK goes out and the engine waits for a header. `SEQ`, `CURSOR`, `ERASED`, the array, `LOCK` and
every other register are unchanged. -/
def Obligations.ErrorHandlerPolicy : Prop :=
  ∀ s : State, s.state = .awaitHeader ∨ s.state = .receivePacket → s.errCnt.toNat < 255 →
    ∃ t, exec .errorHandler s = .next t ∧ t.errCnt.toNat = s.errCnt.toNat + 1 ∧
      (s.cfg.xMaxErrors.toNat ≤ s.errCnt.toNat + 1 →
        t.state = .terminalAbort ∧ sends ([0x18#8, 0x18#8] ++ s.cfg.noticeAbort) s t) ∧
      (s.errCnt.toNat + 1 < s.cfg.xMaxErrors.toNat → t.state = .awaitHeader ∧ sends [0x15#8] s t) ∧
      sameRegisters { s with errCnt := t.errCnt } t ∧ noMemoryCall s t

/-- Where the operations of the engine stop by name. Both are the model's choice: outside the `STATE` their rule applies in
(R190, R192, R199; log 9), and on operands that are none of theirs (R89, R29 and R171 say which are; log 28). -/
def Obligations.OperationsStopOutsideTheirRules : Prop :=
  ∀ s : State,
    (s.state ≠ .awaitHeader →
      ∀ i ∈ [Instr.soh, .stx, .eot, .can, .hdrNone, .hdrNoneErased, .awaitHeaderStep], exec i s = .refused .notApplicable) ∧
    (∀ b, s.state ≠ .awaitHeader → recognizedHeader b = false → exec (.hdrOther b) s = .refused .notApplicable) ∧
    (∀ i, s.state ≠ .awaitHeader → isPacket i = true → exec i s = .refused .notApplicable) ∧
    (s.state ≠ .receivePacket →
      ∀ i ∈ [Instr.receivePacketStep, .eraseStep, .validateWriteStep, .accept, .classify],
        exec i s = .refused .notApplicable) ∧
    (s.packetSize = none → ∀ i ∈ [Instr.receivePacketStep, .validateWriteStep, .accept], exec i s = .refused .notApplicable) ∧
    (s.state ≠ .awaitHeader → s.state ≠ .receivePacket → exec .errorHandler s = .refused .notApplicable) ∧
    (∀ b, recognizedHeader b = true → exec (.hdrOther b) s = .refused .illFormed) ∧
    (∀ a b p h l, p.length ≠ 128 → exec (.pkt128 a b p h l) s = .refused .illFormed) ∧
    (∀ a b p h l, p.length ≠ 1024 → exec (.pkt1k a b p h l) s = .refused .illFormed) ∧
    exec (.receive 0) s = .refused .illFormed

/-- R192: the `AWAIT_HEADER` step reads one header and runs exactly the row it selects. -/
def Obligations.AwaitHeaderDispatches : Prop :=
  ∀ s : State, s.state = .awaitHeader →
    (∃ t, exec .awaitHeaderStep s = .next t) ∧
    (∀ b rest, s.env.line = .byte b :: rest → ∃ r, exec (.receive 1) s = .next r ∧ r.ret = .received (.ok [b]) ∧
      exec .awaitHeaderStep s = exec (decodeHeaderByte b) r) ∧
    (∀ rest, s.env.line = .quiet :: rest → ∃ r, exec (.receive 1) s = .next r ∧ r.ret = .received .fail ∧
      exec .awaitHeaderStep s = exec .hdrNone r)

/-- R200: step 1. With `ERASED` = 1 it does nothing. With `ERASED` = 0 it runs `ERASE(APP_BASE)`; success sets `ERASED` and
leaves the whole region erased; failure leaves `ERASED` at 0 and `EFAIL` not empty. No other session register changes. -/
def Obligations.EraseStepErasesOnce : Prop :=
  ∀ s : State, s.state = .receivePacket → s.cfg.Ok →
    (s.erased = true → exec .eraseStep s = .next s) ∧
    (s.erased = false →
      ∃ t, exec .eraseStep s = .next t ∧ t.lock = true ∧ (t.erased = true ↔ t.eFail = .empty) ∧
        (t.erased = true → ∀ a, s.cfg.appBase.toNat ≤ a → a < s.cfg.appEnd.toNat → t.nvm.read a = s.cfg.erasedByte) ∧
        (∀ rest, s.env.eraseAnswers = List.replicate (pageCount s.cfg s.cfg.appBase) .ok ++ rest → t.erased = true) ∧
        sameArrayOutside s.cfg.appBase.toNat s.cfg.appEnd.toNat s t ∧ samePacket s t ∧ sameControl s t ∧
        t.seq = s.seq ∧ t.cursor = s.cursor ∧ t.errCnt = s.errCnt ∧ t.commFail = s.commFail ∧ t.vFail = s.vFail ∧
        t.pFail = s.pFail ∧ t.crc = s.crc ∧ sameParameters s t)

/-- R201: steps 2 and 3. A packet that fails validation causes no memory primitive and changes no byte; one that passes is
written at `CURSOR`, as `N / 4` words. The step completes whenever `CURSOR` is a legal `WRITE` operand. -/
def Obligations.ValidateWriteGuards : Prop :=
  ∀ (s : State) (n : Nat), s.state = .receivePacket → s.packetSize = some n →
    (s.cfg.Ok → legalWrite s.cfg s.cursor → ∃ t, exec .validateWriteStep s = .next t) ∧
    ∃ v, exec (.validate s.seqB s.cmpB (s.payloadBytes n) s.rxCrc s.seq) s = .next v ∧
      (v.vFail ≠ .empty → exec .validateWriteStep s = .next v ∧ v.trace = s.trace ∧ sameArray s v) ∧
      (v.vFail = .empty → legalWrite s.cfg s.cursor →
        exec .validateWriteStep s = exec (.write s.cursor (wordsOf (s.payloadBytes n))) v ∧
        (wordsOf (s.payloadBytes n)).length = n / 4)

/-- R202: accept. The count is cleared, `SEQ` advances modulo 256, `CURSOR` advances by the payload size, ACK goes out, and
the engine waits for a header. -/
def Obligations.AcceptAdvances : Prop :=
  ∀ (s : State) (n : Nat), s.state = .receivePacket → s.packetSize = some n →
    ∃ t, exec .accept s = .next t ∧ t.errCnt = 0 ∧ t.seq.toNat = (s.seq.toNat + 1) % 256 ∧
      (s.cursor.toNat + n < 2 ^ 32 → t.cursor.toNat = s.cursor.toNat + n) ∧
      sends [0x06#8] s t ∧ t.state = .awaitHeader ∧ t.erased = s.erased ∧
      samePacket s t ∧ sameFlags s t ∧ sameWorking s t ∧ sameArray s t ∧ sameParameters s t ∧ noMemoryCall s t

/-- R203, R204: a flash-related failure forces the count to the maximum, so the handler aborts with `X_MAX_ERRORS + 1`; any
other failure costs a single increment. `SEQ` and `CURSOR` are not changed. -/
def Obligations.ClassifyEscalates : Prop :=
  ∀ s : State, s.state = .receivePacket → s.cfg.Ok →
    (s.failures.flashRelated = true →
      ∃ t, exec .classify s = .next t ∧ t.state = .terminalAbort ∧ t.errCnt.toNat = s.cfg.xMaxErrors.toNat + 1 ∧
        sends ([0x18#8, 0x18#8] ++ s.cfg.noticeAbort) s t ∧
        sameRegisters { s with errCnt := t.errCnt } t) ∧
    (s.failures.flashRelated = false → exec .classify s = exec .errorHandler s)

/-- R199: the order of `RECEIVE_PACKET`: the flags are cleared, the packet is read, the erase step runs unless the read
failed (or `ERASE_ON_COMM_ERROR`), validate and write run unless something failed before, and the packet is accepted or
classified. From a state of a session it always completes, in `AWAIT_HEADER` or `TERMINAL_ABORT`. -/
def Obligations.ReceivePacketFollowsItsSteps : Prop :=
  ∀ (s : State) (n : Nat), s.state = .receivePacket → s.packetSize = some n → s.cfg.Ok → legalWrite s.cfg s.cursor →
    ∃ read ready done t : State,
      exec (.readPacket n) { s with eFail := .empty, vFail := .empty, pFail := .empty } = .next read ∧
      (if read.commFail = false ∨ s.cfg.eraseOnCommError = true then exec .eraseStep read = .next ready
        else ready = read) ∧
      (if ready.commFail = false ∧ ready.eFail = .empty then exec .validateWriteStep ready = .next done
        else done = ready) ∧
      (if done.failures.isEmpty = true then exec .accept done = .next t else exec .classify done = .next t) ∧
      exec .receivePacketStep s = .next t ∧ (t.state = .awaitHeader ∨ t.state = .terminalAbort)

/-- Scenario A of the document, for every packet (R199 to R202): a packet delivered whole, with the expected sequence
number, the right complement and CRC, and room in the region, met by an environment that answers as intended, is accepted:
the region is erased if it was not, the payload stands at `CURSOR`, ACK goes out, and the session registers advance. Erase
answers are asked for only where an erase is made. A packet as one operation, its arrival on the line, is log 29. -/
def Obligations.ValidPacketAccepted : Prop :=
  ∀ (s : State) (i : Instr) (restProgram : List ProgramAnswer),
    s.state = .awaitHeader → s.cfg.Ok → s.cursor.toNat % 4 = 0 → s.cfg.appBase.toNat ≤ s.cursor.toNat →
    (i = .pkt128 s.seq (complement s.seq) (packetPayload i)
        ((crc16 (packetPayload i)).extractLsb' 8 8) ((crc16 (packetPayload i)).extractLsb' 0 8) ∨
      i = .pkt1k s.seq (complement s.seq) (packetPayload i)
        ((crc16 (packetPayload i)).extractLsb' 8 8) ((crc16 (packetPayload i)).extractLsb' 0 8)) →
    isPacket i = true →
    s.cursor.toNat + (packetPayload i).length ≤ s.cfg.appEnd.toNat →
    (s.erased = false → ∃ rest, s.env.eraseAnswers = List.replicate (pageCount s.cfg s.cfg.appBase) .ok ++ rest) →
    s.env.programAnswers = List.replicate ((packetPayload i).length / 4) ⟨.ok, none⟩ ++ restProgram →
    ∃ t, exec i s = .next t ∧ t.state = .awaitHeader ∧ t.seq = s.seq + 1 ∧ t.errCnt = 0 ∧ t.erased = true ∧
      t.cursor.toNat = s.cursor.toNat + (packetPayload i).length ∧ sends [0x06#8] s t ∧ t.lock = true ∧
      t.env.line = s.env.line ∧ sameParameters s t ∧
      sameArrayOutside s.cfg.appBase.toNat s.cfg.appEnd.toNat s t ∧
      (∀ k b, (packetPayload i)[k]? = some b → t.nvm.read (s.cursor.toNat + k) = b) ∧
      (∀ a, a < s.cursor.toNat ∨ s.cursor.toNat + (packetPayload i).length ≤ a →
        s.cfg.appBase.toNat ≤ a → a < s.cfg.appEnd.toNat →
        t.nvm.read a = if s.erased = true then s.nvm.read a else s.cfg.erasedByte)

/-- Scenario B of the document, for every packet (R199, R200, R203 to R205): a packet delivered whole whose sequence number,
complement or CRC is wrong changes neither `SEQ` nor `CURSOR`. In a session that has erased the region no memory primitive is
issued, the array is unchanged, and the error is counted once: NAK below the maximum, abort at it. In a session that has not,
the region is erased first: if every page reports `ok`, the same follows; if a page reports `fail`, the session is aborted
with `ERASED` = 0. A packet as one operation, its arrival on the line, is log 29. -/
def Obligations.InvalidPacketRejected : Prop :=
  ∀ (s : State) (i : Instr) (seqB cmpB : Byte) (payload : List Byte) (high low : Byte),
    s.state = .awaitHeader → s.cfg.Ok → s.errCnt.toNat < 255 →
    (i = .pkt128 seqB cmpB payload high low ∧ payload.length = 128 ∨
      i = .pkt1k seqB cmpB payload high low ∧ payload.length = 1024) →
    seqB ≠ s.seq ∨ seqB.toNat + cmpB.toNat ≠ 255 ∨ crc16 payload ≠ assembleCrc high low →
    ∃ t, exec i s = .next t ∧ t.seq = s.seq ∧ t.cursor = s.cursor ∧ t.env.line = s.env.line ∧ sameParameters s t ∧
      (s.erased = true →
        countedOnce s t ∧ t.erased = true ∧ noMemoryCall s t ∧ sameArray s t ∧
        t.lock = s.lock ∧ t.pAddr = s.pAddr ∧ t.pIdx = s.pIdx) ∧
      (s.erased = false →
        t.lock = true ∧ sameArrayOutside s.cfg.appBase.toNat s.cfg.appEnd.toNat s t ∧
        (∀ rest, s.env.eraseAnswers = List.replicate (pageCount s.cfg s.cfg.appBase) .ok ++ rest →
          countedOnce s t ∧ t.erased = true ∧
          ∀ a, s.cfg.appBase.toNat ≤ a → a < s.cfg.appEnd.toNat → t.nvm.read a = s.cfg.erasedByte) ∧
        (∀ k rest, k < pageCount s.cfg s.cfg.appBase → s.env.eraseAnswers = List.replicate k .ok ++ .fail :: rest →
          t.state = .terminalAbort ∧ t.erased = false ∧ t.errCnt.toNat = s.cfg.xMaxErrors.toNat + 1 ∧
          sends ([0x18#8, 0x18#8] ++ s.cfg.noticeAbort) s t))

/-- R206, R207: `APP_JUMP` from `TERMINAL_SUCCESS` and `RETURN_TO_CALLER` from `TERMINAL_ABORT` hand control away and change
no register; `STATE` stays; after them the block takes no step of its own. The refusal elsewhere is log 9, the names of the
stuck states log 10. -/
def Obligations.TerminalOperations : Prop :=
  ∀ s : State,
    (s.state = .terminalSuccess → s.pos ≠ .left →
      ∃ t, exec .appJump s = .next t ∧ t.state = .terminalSuccess ∧ sameRegisters s t ∧ t.trace = .appJump :: s.trace ∧
        (t.cfg.Ok → t.env.resetIn = none → step t = .fault .applicationRuns)) ∧
    (s.state = .terminalAbort → s.pos ≠ .left →
      ∃ t, exec .returnToCaller s = .next t ∧ t.state = .terminalAbort ∧ sameRegisters s t ∧
        t.trace = .returnToCaller :: s.trace ∧
        (t.cfg.Ok → t.env.resetIn = none → t.env.invokes = 0 → step t = .fault .returnedToCaller)) ∧
    (s.state = .terminalSuccess → s.pos = .left → exec .appJump s = .fault .applicationRuns) ∧
    (s.state = .terminalAbort → s.pos = .left → exec .returnToCaller s = .fault .returnedToCaller) ∧
    (s.state ≠ .terminalSuccess → exec .appJump s = .refused .notApplicable) ∧
    (s.state ≠ .terminalAbort → exec .returnToCaller s = .refused .notApplicable)

/-- R215: what a successful session leaves in memory. If the packets of a session, run one after the other from its start,
have all been accepted (`CURSOR` has advanced by all their payloads), then the region holds exactly their payloads in order
from `APP_BASE` on, and `ERASED_BYTE` above, whatever the environment answered. Packets rejected in between are left out; a
packet as one operation, its arrival on the line, is log 29. -/
def Obligations.SessionLeavesImage : Prop :=
  ∀ (s t : State) (packets : List Instr),
    s.cfg.Ok → s.state = .awaitHeader → s.erased = false → s.cursor = s.cfg.appBase →
    (∀ i ∈ packets, isPacket i = true) → packets ≠ [] →
    runAll packets s = .next t →
    t.cursor.toNat = s.cfg.appBase.toNat + (imageOf packets).length →
    (∀ k b, (imageOf packets)[k]? = some b → t.nvm.read (s.cfg.appBase.toNat + k) = b) ∧
    (∀ a, t.cursor.toNat ≤ a → a < s.cfg.appEnd.toNat → t.nvm.read a = s.cfg.erasedByte) ∧
    t.cursor.toNat ≤ s.cfg.appEnd.toNat ∧ t.erased = true ∧ t.errCnt = 0 ∧
    t.seq.toNat = (s.seq.toNat + packets.length) % 256

/-! ### The machine -/

/-- A step, in full. A configuration that breaks R8 is refused, and only then with that name. A step of a block with a
next operation is that operation as `exec` runs it, then the internal computation up to the next interaction (R9); where a
hardware reset is still to come, the step counts towards it. The grain is log 6, the countdown log 11, the refusal's place
log 18. -/
def Obligations.StepRunsTheSelectedOperation : Prop :=
  ∀ s : State,
    (step s = .refused .badConfiguration ↔ ¬s.cfg.Ok) ∧
    (∀ i, s.cfg.Ok → nextOp s = some i → s.env.resetIn = none →
      step s = andThen (exec i s) fun t => .next (advance s.state s.pos t)) ∧
    (∀ i k, s.cfg.Ok → nextOp s = some i → s.env.resetIn = some (k + 1) →
      step s = andThen (exec i { s with env := { s.env with resetIn := some k } }) fun t =>
        .next (advance s.state s.pos t))

/-- Fetch: when the engine waits for a header, the steps that follow run exactly the row that the byte on the line decodes
to, or the row of no byte when the host is silent. After a data header they also run the beginning of `RECEIVE_PACKET` that
needs no interaction, in the same step: the failure flags are cleared (R9, R199, R177; the model's steps and positions, logs 6
and 7). -/
def Obligations.HeaderByteRunsItsRow : Prop :=
  ∀ s : State, s.cfg.Ok → s.env.resetIn = none → s.state = .awaitHeader → s.pos = .start →
    nextOp s = some .readHeader ∧
    (∀ b rest, s.env.line = .byte b :: rest →
      ∃ r v k, exec (.receive 1) s = .next r ∧ exec (decodeHeaderByte b) r = .next v ∧ 0 < k ∧
        (v.state ≠ .receivePacket → Host.Core.run core k s = .next v) ∧
        (v.state = .receivePacket → k = 1 ∧ step s = .next
          { v with commFail := false, eFail := .empty, vFail := .empty, pFail := .empty, pos := .readSequence })) ∧
    (∀ rest, s.env.line = .quiet :: rest → ∃ r k, exec (.receive 1) s = .next r ∧ 0 < k ∧
      Host.Core.run core k s = exec .hdrNone r)

/-- Refinement: the steps of the machine from the beginning of `RECEIVE_PACKET`, one interaction each, compose to exactly
the effect of `RECEIVE_PACKET_STEP` (R9, R199), from the position a header's step leaves and from the one the header row as
an operation leaves (the model's positions, logs 6 and 7). -/
def Obligations.PacketStepsRefineReceivePacket : Prop :=
  ∀ s : State, Inv s → s.env.resetIn = none → s.state = .receivePacket → s.pos = .start ∨ s.pos = .readSequence →
    ∃ k t, Host.Core.run core k s = .next t ∧ exec .receivePacketStep s = .next t

/-- The invariant holds after hardware reset, for every legal choice of parameters, environment and retained array inside
the region. The register values at reset that R37 leaves unspecified are the model's choice (log 2); the invariant does not
rest on them. -/
def Obligations.ResetMeetsInvariant : Prop :=
  Inv State.reset ∧
  ∀ (cfg : Config) (env : Environment) (nvm : Memory), cfg.Ok → nvm.wf →
    (∀ c ∈ nvm, cfg.appBase.toNat ≤ c.1 ∧ c.1 < cfg.appEnd.toNat) → Inv (State.resetWith cfg env nvm)

/-- Every step keeps the invariant (R25, R34, R141, R142), and from a state that meets it no step is refused: every call
the engine makes meets its precondition (R58); the only stops are those of a block that waits for the outside. -/
def Obligations.StepKeepsInvariant : Prop :=
  ∀ s : State, Inv s →
    (∃ t, step s = .next t ∧ Inv t) ∨
    (nextOp s = none ∧ s.env.resetIn = none ∧ step s = .fault (stuckFault s))

/-- R21 to R24, R239: who writes the session registers. In a step other than a hardware reset, `SEQ` and `CURSOR` change only
by `INVOKE` and by the accept of a written packet, `ERASED` only by `INVOKE` and at the end of an `ERASE`, and `ERRCNT` only
by `INVOKE`, by accept, which clears it, and by the error handler, which adds one, to the maximum where the failure was
flash-related. -/
def Obligations.SessionRegistersHaveTheirWriters : Prop :=
  ∀ (s t : State) (i : Instr), s.env.resetIn ≠ some 0 → nextOp s = some i → step s = .next t →
    i = .invoke ∨
    ((t.seq = s.seq ∧ t.cursor = s.cursor ∧
          (t.errCnt = s.errCnt ∨
            (t.pos = .nak ∨ t.pos = .firstCan) ∧
              (t.errCnt = s.errCnt + 1 ∨ t.failures.flashRelated = true ∧ t.errCnt = s.cfg.xMaxErrors + 1)) ∨
        s.pos = .writeLock ∧ t.pos = .ack ∧ t.seq = s.seq + 1 ∧
          t.cursor = s.cursor + BitVec.ofNat 32 (s.packetSize.getD 0) ∧ t.errCnt = 0) ∧
      (t.erased = s.erased ∨ s.pos = .eraseLock ∧ t.eFail = .empty ∧ t.erased = true))

/-- R260: a hardware reset sets `STATE` to `IDLE` and `LOCK` to 1 and leaves the array as it was, but for the bytes of a
page or word under an interrupted erase or program primitive. When it comes is the model's countdown, which a block that
takes no step of its own does not wait for, and a further one may follow (log 11). -/
def Obligations.HardwareResetEffect : Prop :=
  ∀ s : State, s.cfg.Ok → s.env.resetIn = some 0 ∨ (nextOp s = none ∧ s.env.resetIn ≠ none) →
    ∃ t, step s = .next t ∧ t.state = .idle ∧ t.lock = true ∧ sameParameters s t ∧
      (t.env.resetIn = s.env.resetGaps.head? ∧ t.env.resetGaps = s.env.resetGaps.tail) ∧
      (∀ a, nextOp s = some (.nvmErasePage a) → sameArrayOutside a.toNat (a.toNat + s.cfg.pageSize) s t) ∧
      (∀ a w, nextOp s = some (.nvmProgramWord a w) → sameArrayOutside a.toNat (a.toNat + 4) s t) ∧
      ((∀ a, nextOp s ≠ some (.nvmErasePage a)) → (∀ a w, nextOp s ≠ some (.nvmProgramWord a w)) → sameArray s t)
end

