-- ==== Sys2Proof/Laws/Decode.lean ====
section
/-! SUPPORT. The decoder on whole packets (30_encoding.md R82, R83). -/

namespace Sys2Proof.Laws

open Sys2Proof

/-- A packet body of `n` payload bytes, and what follows it. -/
theorem decodeBody_append (n : Nat) (make : Byte → Byte → List Byte → Byte → Byte → Instr) (s c h l : Byte)
    (p rest : List Byte) (hp : p.length = n) :
    decodeBody n make (s :: c :: (p ++ h :: l :: rest)) = .instr (make s c p h l) rest := by
  subst hp
  simp [decodeBody]

/-- A whole short packet decodes to its fields (R82). -/
theorem decode_pkt128 (s c h l : Byte) {p : List Byte} (rest : List Byte) (hp : p.length = 128) :
    decode (0x01#8 :: s :: c :: (p ++ h :: l :: rest)) = .instr (.pkt128 s c p h l) rest :=
  decodeBody_append 128 Instr.pkt128 s c h l p rest hp

/-- A whole long packet decodes to its fields (R83). -/
theorem decode_pkt1k (s c h l : Byte) {p : List Byte} (rest : List Byte) (hp : p.length = 1024) :
    decode (0x02#8 :: s :: c :: (p ++ h :: l :: rest)) = .instr (.pkt1k s c p h l) rest :=
  decodeBody_append 1024 Instr.pkt1k s c h l p rest hp

end Sys2Proof.Laws
end

