-- ==== Sys2Proof/Laws/Memory.lean ====
section
/-! SUPPORT. The laws of the array as data: a read after a store to the same place gives what was stored, a store leaves
every other place alone, every store keeps the canonical form, and equal reads mean equal arrays. -/

namespace Sys2Proof.Laws

open Sys2Proof Sys2Proof.Machine

/-! ### Reading through lists of cells -/

theorem read_of_not_listed {m : Memory} {x : Nat} (h : ∀ c ∈ m, c.1 ≠ x) : m.read x = Memory.unlisted := by
  induction m with
  | nil => rfl
  | cons c rest ih =>
    simp only [List.mem_cons, forall_eq_or_imp] at h
    simp only [Memory.read, if_neg h.1]
    exact ih h.2

theorem read_append_left {l r : Memory} {x : Nat} (h : ∀ c ∈ r, c.1 ≠ x) :
    Memory.read (l ++ r) x = Memory.read l x := by
  induction l with
  | nil => exact read_of_not_listed h
  | cons c rest ih => simp only [List.cons_append, Memory.read, ih]

theorem read_append_right {l r : Memory} {x : Nat} (h : ∀ c ∈ l, c.1 ≠ x) :
    Memory.read (l ++ r) x = Memory.read r x := by
  induction l with
  | nil => rfl
  | cons c rest ih =>
    simp only [List.mem_cons, forall_eq_or_imp] at h
    simp only [List.cons_append, Memory.read, if_neg h.1]
    exact ih h.2

theorem read_filter {m : Memory} {p : Nat → Bool} {x : Nat} (h : p x = true) :
    Memory.read (m.filter fun c => p c.1) x = Memory.read m x := by
  induction m with
  | nil => rfl
  | cons c rest ih =>
    obtain ⟨k, v⟩ := c
    by_cases hk : k = x
    · subst hk; simp [h, Memory.read]
    · by_cases hp : p k = true
      · simp [hp, Memory.read, hk, ih]
      · simp [hp, Memory.read, hk, ih]

/-! ### Cells of a run of bytes -/

theorem cells_keys {a : Nat} {bs : List Byte} : ∀ c ∈ Memory.cells a bs, a ≤ c.1 ∧ c.1 < a + bs.length := by
  induction bs generalizing a with
  | nil => simp [Memory.cells]
  | cons b bs ih =>
    intro c hc
    simp only [Memory.cells] at hc
    split at hc
    · have := ih c hc
      simp only [List.length_cons]
      omega
    · simp only [List.mem_cons] at hc
      rcases hc with rfl | hc
      · simp
      · have := ih c hc
        simp only [List.length_cons]
        omega

theorem read_cells {bs : List Byte} {a i : Nat} (h : i < bs.length) : Memory.read (Memory.cells a bs) (a + i) = bs[i] := by
  induction bs generalizing a i with
  | nil => simp at h
  | cons b bs ih =>
    have out : ∀ c ∈ Memory.cells (a + 1) bs, c.1 ≠ a := fun c hc => by have := cells_keys c hc; omega
    simp only [Memory.cells]
    cases i with
    | zero =>
      split
      · rename_i hb
        simpa [hb] using read_of_not_listed out
      · simp [Memory.read]
    | succ i =>
      have h' : i < bs.length := by simpa using h
      have e : a + (i + 1) = a + 1 + i := by omega
      split
      · rw [e, ih h']; simp
      · simp only [Memory.read]
        rw [if_neg (by omega), e, ih h']; simp

theorem cells_sorted (a : Nat) (bs : List Byte) : (Memory.cells a bs).Pairwise fun c d => c.1 < d.1 := by
  induction bs generalizing a with
  | nil => simp [Memory.cells]
  | cons b bs ih =>
    simp only [Memory.cells]
    split
    · exact ih _
    · refine List.pairwise_cons.2 ⟨fun c hc => ?_, ih _⟩
      have := cells_keys c hc
      simp only
      omega

theorem cells_listed (a : Nat) (bs : List Byte) : ∀ c ∈ Memory.cells a bs, c.2 ≠ Memory.unlisted := by
  induction bs generalizing a with
  | nil => simp [Memory.cells]
  | cons b bs ih =>
    simp only [Memory.cells]
    split
    · exact ih _
    · rename_i hb
      intro c hc
      rcases List.mem_cons.1 hc with rfl | hc
      · exact hb
      · exact ih _ c hc

/-! ### Store -/

/-- Outside the stored bytes every address reads as before (R57). -/
theorem read_store_outside {m : Memory} {a x : Nat} {bs : List Byte} (h : x < a ∨ a + bs.length ≤ x) :
    (m.store a bs).read x = m.read x := by
  have hc : ∀ c ∈ Memory.cells a bs, c.1 ≠ x := fun c hc => by have := cells_keys c hc; omega
  unfold Memory.store
  rcases h with h | h
  · rw [read_append_left, read_append_left hc]
    · exact read_filter (p := fun k => decide (k < a)) (by simpa using h)
    · intro c hm
      have := (List.mem_filter.1 hm).2
      simp only [decide_eq_true_eq] at this
      omega
  · rw [List.append_assoc, read_append_right, read_append_right hc]
    · exact read_filter (p := fun k => decide (a + bs.length ≤ k)) (by simpa using h)
    · intro c hm
      have := (List.mem_filter.1 hm).2
      simp only [decide_eq_true_eq] at this
      omega

/-- The stored bytes read back in order (R61). -/
theorem read_store_inside {m : Memory} {a i : Nat} {bs : List Byte} (h : i < bs.length) :
    (m.store a bs).read (a + i) = bs[i] := by
  unfold Memory.store
  rw [List.append_assoc, read_append_right, read_append_left, read_cells h]
  · intro c hm
    have := (List.mem_filter.1 hm).2
    simp only [decide_eq_true_eq] at this
    omega
  · intro c hm
    have := (List.mem_filter.1 hm).2
    simp only [decide_eq_true_eq] at this
    omega

/-- Where a stored array lists an address. -/
theorem mem_store {m : Memory} {a : Nat} {bs : List Byte} {c : Host.Cell} (h : c ∈ m.store a bs) :
    c ∈ m ∨ (a ≤ c.1 ∧ c.1 < a + bs.length) := by
  unfold Memory.store at h
  rcases List.mem_append.1 h with h | h
  · rcases List.mem_append.1 h with h | h
    · exact .inl (List.mem_filter.1 h).1
    · exact .inr (cells_keys c h)
  · exact .inl (List.mem_filter.1 h).1

/-- Every store keeps the canonical form. -/
theorem store_wf {m : Memory} {a : Nat} {bs : List Byte} (h : m.wf) : (m.store a bs).wf := by
  obtain ⟨hs, hv⟩ := h
  constructor
  · unfold Memory.store
    refine List.pairwise_append.2 ⟨List.pairwise_append.2 ⟨hs.filter _, cells_sorted a bs, ?_⟩, hs.filter _, ?_⟩
    · intro c hc d hd
      have h1 := (List.mem_filter.1 hc).2
      have h2 := cells_keys d hd
      simp only [decide_eq_true_eq] at h1
      omega
    · intro c hc d hd
      have h2 := (List.mem_filter.1 hd).2
      simp only [decide_eq_true_eq] at h2
      rcases List.mem_append.1 hc with hc | hc
      · have h1 := (List.mem_filter.1 hc).2
        simp only [decide_eq_true_eq] at h1
        omega
      · have h1 := cells_keys c hc
        omega
  · intro c hc
    unfold Memory.store at hc
    rcases List.mem_append.1 hc with hc | hc
    · rcases List.mem_append.1 hc with hc | hc
      · exact hv c (List.mem_filter.1 hc).1
      · exact cells_listed a bs c hc
    · exact hv c (List.mem_filter.1 hc).1

/-- The empty array is in canonical form: the reset array. -/
theorem reset_memory_wf : State.reset.nvm.wf := by decide

/-- The canonical form is canonical: two arrays in it that read alike are equal. -/
theorem eq_of_read_eq {m n : Memory} (hm : m.wf) (hn : n.wf) (h : ∀ a, m.read a = n.read a) : m = n := by
  induction m generalizing n with
  | nil =>
    cases n with
    | nil => rfl
    | cons d n =>
      have := h d.1
      simp only [Memory.read, if_true] at this
      exact absurd this.symm (hn.2 d (by simp))
  | cons c m ih =>
    cases n with
    | nil =>
      have := h c.1
      simp only [Memory.read, if_true] at this
      exact absurd this (hm.2 c (by simp))
    | cons d n =>
      obtain ⟨hcm, hm'⟩ := List.pairwise_cons.1 hm.1
      obtain ⟨hdn, hn'⟩ := List.pairwise_cons.1 hn.1
      have hcv := hm.2 c (by simp)
      have hdv := hn.2 d (by simp)
      have key : c.1 = d.1 := by
        rcases Nat.lt_trichotomy c.1 d.1 with hlt | heq | hgt
        · have e := h c.1
          have : Memory.read (d :: n) c.1 = Memory.unlisted :=
            read_of_not_listed fun x hx => by
              rcases List.mem_cons.1 hx with rfl | hx
              · omega
              · have := hdn x hx; omega
          rw [this] at e
          simp only [Memory.read, if_true] at e
          exact absurd e hcv
        · exact heq
        · have e := h d.1
          have : Memory.read (c :: m) d.1 = Memory.unlisted :=
            read_of_not_listed fun x hx => by
              rcases List.mem_cons.1 hx with rfl | hx
              · omega
              · have := hcm x hx; omega
          rw [this] at e
          simp only [Memory.read, if_true] at e
          exact absurd e.symm hdv
      have val : c.2 = d.2 := by
        have e := h c.1
        simpa [Memory.read, key] using e
      have tail : m = n := by
        refine ih ⟨hm', fun x hx => hm.2 x (by simp [hx])⟩ ⟨hn', fun x hx => hn.2 x (by simp [hx])⟩ fun a => ?_
        by_cases ha : a = c.1
        · have h1 : Memory.read m a = Memory.unlisted :=
            read_of_not_listed fun x hx => by have := hcm x hx; omega
          have h2 : Memory.read n a = Memory.unlisted :=
            read_of_not_listed fun x hx => by have := hdn x hx; omega
          rw [h1, h2]
        · have e := h a
          simpa [Memory.read, Ne.symm ha, key ▸ Ne.symm ha] using e
      rw [tail, Prod.ext key val]

end Sys2Proof.Laws
end

