-- ==== Sys2Proof/Laws/State.lean ====
section
/-! SUPPORT. One lemma for each field of State and each named update of it: the value written, or that the field is
unchanged. All true by unfolding the update once, so that no later proof unfolds a record update. -/

namespace Sys2Proof.Laws

open Sys2Proof Sys2Proof.Machine

/-! ### enter -/

@[simp] theorem enter_seq (st : EngineState) (s : State) : (s.enter st).seq = s.seq := rfl
@[simp] theorem enter_cursor (st : EngineState) (s : State) : (s.enter st).cursor = s.cursor := rfl
@[simp] theorem enter_erased (st : EngineState) (s : State) : (s.enter st).erased = s.erased := rfl
@[simp] theorem enter_errCnt (st : EngineState) (s : State) : (s.enter st).errCnt = s.errCnt := rfl
@[simp] theorem enter_state (st : EngineState) (s : State) : (s.enter st).state = st := rfl
@[simp] theorem enter_hdrKind (st : EngineState) (s : State) : (s.enter st).hdrKind = s.hdrKind := rfl
@[simp] theorem enter_seqB (st : EngineState) (s : State) : (s.enter st).seqB = s.seqB := rfl
@[simp] theorem enter_cmpB (st : EngineState) (s : State) : (s.enter st).cmpB = s.cmpB := rfl
@[simp] theorem enter_payload (st : EngineState) (s : State) : (s.enter st).payload = s.payload := rfl
@[simp] theorem enter_rxCrc (st : EngineState) (s : State) : (s.enter st).rxCrc = s.rxCrc := rfl
@[simp] theorem enter_commFail (st : EngineState) (s : State) : (s.enter st).commFail = s.commFail := rfl
@[simp] theorem enter_eFail (st : EngineState) (s : State) : (s.enter st).eFail = s.eFail := rfl
@[simp] theorem enter_vFail (st : EngineState) (s : State) : (s.enter st).vFail = s.vFail := rfl
@[simp] theorem enter_pFail (st : EngineState) (s : State) : (s.enter st).pFail = s.pFail := rfl
@[simp] theorem enter_crc (st : EngineState) (s : State) : (s.enter st).crc = s.crc := rfl
@[simp] theorem enter_lock (st : EngineState) (s : State) : (s.enter st).lock = s.lock := rfl
@[simp] theorem enter_pAddr (st : EngineState) (s : State) : (s.enter st).pAddr = s.pAddr := rfl
@[simp] theorem enter_pIdx (st : EngineState) (s : State) : (s.enter st).pIdx = s.pIdx := rfl
@[simp] theorem enter_nvm (st : EngineState) (s : State) : (s.enter st).nvm = s.nvm := rfl
@[simp] theorem enter_pos (st : EngineState) (s : State) : (s.enter st).pos = .start := rfl
@[simp] theorem enter_ret (st : EngineState) (s : State) : (s.enter st).ret = s.ret := rfl
@[simp] theorem enter_trace (st : EngineState) (s : State) : (s.enter st).trace = s.trace := rfl
@[simp] theorem enter_free (st : EngineState) (s : State) : (s.enter st).free = s.free := rfl
@[simp] theorem enter_env (st : EngineState) (s : State) : (s.enter st).env = s.env := rfl
@[simp] theorem enter_cfg (st : EngineState) (s : State) : (s.enter st).cfg = s.cfg := rfl

/-! ### goto -/

@[simp] theorem goto_seq (p : Pos) (s : State) : (s.goto p).seq = s.seq := rfl
@[simp] theorem goto_cursor (p : Pos) (s : State) : (s.goto p).cursor = s.cursor := rfl
@[simp] theorem goto_erased (p : Pos) (s : State) : (s.goto p).erased = s.erased := rfl
@[simp] theorem goto_errCnt (p : Pos) (s : State) : (s.goto p).errCnt = s.errCnt := rfl
@[simp] theorem goto_state (p : Pos) (s : State) : (s.goto p).state = s.state := rfl
@[simp] theorem goto_hdrKind (p : Pos) (s : State) : (s.goto p).hdrKind = s.hdrKind := rfl
@[simp] theorem goto_seqB (p : Pos) (s : State) : (s.goto p).seqB = s.seqB := rfl
@[simp] theorem goto_cmpB (p : Pos) (s : State) : (s.goto p).cmpB = s.cmpB := rfl
@[simp] theorem goto_payload (p : Pos) (s : State) : (s.goto p).payload = s.payload := rfl
@[simp] theorem goto_rxCrc (p : Pos) (s : State) : (s.goto p).rxCrc = s.rxCrc := rfl
@[simp] theorem goto_commFail (p : Pos) (s : State) : (s.goto p).commFail = s.commFail := rfl
@[simp] theorem goto_eFail (p : Pos) (s : State) : (s.goto p).eFail = s.eFail := rfl
@[simp] theorem goto_vFail (p : Pos) (s : State) : (s.goto p).vFail = s.vFail := rfl
@[simp] theorem goto_pFail (p : Pos) (s : State) : (s.goto p).pFail = s.pFail := rfl
@[simp] theorem goto_crc (p : Pos) (s : State) : (s.goto p).crc = s.crc := rfl
@[simp] theorem goto_lock (p : Pos) (s : State) : (s.goto p).lock = s.lock := rfl
@[simp] theorem goto_pAddr (p : Pos) (s : State) : (s.goto p).pAddr = s.pAddr := rfl
@[simp] theorem goto_pIdx (p : Pos) (s : State) : (s.goto p).pIdx = s.pIdx := rfl
@[simp] theorem goto_nvm (p : Pos) (s : State) : (s.goto p).nvm = s.nvm := rfl
@[simp] theorem goto_pos (p : Pos) (s : State) : (s.goto p).pos = p := rfl
@[simp] theorem goto_ret (p : Pos) (s : State) : (s.goto p).ret = s.ret := rfl
@[simp] theorem goto_trace (p : Pos) (s : State) : (s.goto p).trace = s.trace := rfl
@[simp] theorem goto_free (p : Pos) (s : State) : (s.goto p).free = s.free := rfl
@[simp] theorem goto_env (p : Pos) (s : State) : (s.goto p).env = s.env := rfl
@[simp] theorem goto_cfg (p : Pos) (s : State) : (s.goto p).cfg = s.cfg := rfl

/-! ### record -/

@[simp] theorem record_seq (e : Event) (r : Returned) (s : State) : (s.record e r).seq = s.seq := rfl
@[simp] theorem record_cursor (e : Event) (r : Returned) (s : State) : (s.record e r).cursor = s.cursor := rfl
@[simp] theorem record_erased (e : Event) (r : Returned) (s : State) : (s.record e r).erased = s.erased := rfl
@[simp] theorem record_errCnt (e : Event) (r : Returned) (s : State) : (s.record e r).errCnt = s.errCnt := rfl
@[simp] theorem record_state (e : Event) (r : Returned) (s : State) : (s.record e r).state = s.state := rfl
@[simp] theorem record_hdrKind (e : Event) (r : Returned) (s : State) : (s.record e r).hdrKind = s.hdrKind := rfl
@[simp] theorem record_seqB (e : Event) (r : Returned) (s : State) : (s.record e r).seqB = s.seqB := rfl
@[simp] theorem record_cmpB (e : Event) (r : Returned) (s : State) : (s.record e r).cmpB = s.cmpB := rfl
@[simp] theorem record_payload (e : Event) (r : Returned) (s : State) : (s.record e r).payload = s.payload := rfl
@[simp] theorem record_rxCrc (e : Event) (r : Returned) (s : State) : (s.record e r).rxCrc = s.rxCrc := rfl
@[simp] theorem record_commFail (e : Event) (r : Returned) (s : State) : (s.record e r).commFail = s.commFail := rfl
@[simp] theorem record_eFail (e : Event) (r : Returned) (s : State) : (s.record e r).eFail = s.eFail := rfl
@[simp] theorem record_vFail (e : Event) (r : Returned) (s : State) : (s.record e r).vFail = s.vFail := rfl
@[simp] theorem record_pFail (e : Event) (r : Returned) (s : State) : (s.record e r).pFail = s.pFail := rfl
@[simp] theorem record_crc (e : Event) (r : Returned) (s : State) : (s.record e r).crc = s.crc := rfl
@[simp] theorem record_lock (e : Event) (r : Returned) (s : State) : (s.record e r).lock = s.lock := rfl
@[simp] theorem record_pAddr (e : Event) (r : Returned) (s : State) : (s.record e r).pAddr = s.pAddr := rfl
@[simp] theorem record_pIdx (e : Event) (r : Returned) (s : State) : (s.record e r).pIdx = s.pIdx := rfl
@[simp] theorem record_nvm (e : Event) (r : Returned) (s : State) : (s.record e r).nvm = s.nvm := rfl
@[simp] theorem record_pos (e : Event) (r : Returned) (s : State) : (s.record e r).pos = s.pos := rfl
@[simp] theorem record_ret (e : Event) (r : Returned) (s : State) : (s.record e r).ret = r := rfl
@[simp] theorem record_trace (e : Event) (r : Returned) (s : State) : (s.record e r).trace = e :: s.trace := rfl
@[simp] theorem record_free (e : Event) (r : Returned) (s : State) : (s.record e r).free = s.free := rfl
@[simp] theorem record_env (e : Event) (r : Returned) (s : State) : (s.record e r).env = s.env := rfl
@[simp] theorem record_cfg (e : Event) (r : Returned) (s : State) : (s.record e r).cfg = s.cfg := rfl

/-! ### withKind -/

@[simp] theorem withKind_seq (k : HeaderKind) (s : State) : (s.withKind k).seq = s.seq := rfl
@[simp] theorem withKind_cursor (k : HeaderKind) (s : State) : (s.withKind k).cursor = s.cursor := rfl
@[simp] theorem withKind_erased (k : HeaderKind) (s : State) : (s.withKind k).erased = s.erased := rfl
@[simp] theorem withKind_errCnt (k : HeaderKind) (s : State) : (s.withKind k).errCnt = s.errCnt := rfl
@[simp] theorem withKind_state (k : HeaderKind) (s : State) : (s.withKind k).state = s.state := rfl
@[simp] theorem withKind_hdrKind (k : HeaderKind) (s : State) : (s.withKind k).hdrKind = k := rfl
@[simp] theorem withKind_seqB (k : HeaderKind) (s : State) : (s.withKind k).seqB = s.seqB := rfl
@[simp] theorem withKind_cmpB (k : HeaderKind) (s : State) : (s.withKind k).cmpB = s.cmpB := rfl
@[simp] theorem withKind_payload (k : HeaderKind) (s : State) : (s.withKind k).payload = s.payload := rfl
@[simp] theorem withKind_rxCrc (k : HeaderKind) (s : State) : (s.withKind k).rxCrc = s.rxCrc := rfl
@[simp] theorem withKind_commFail (k : HeaderKind) (s : State) : (s.withKind k).commFail = s.commFail := rfl
@[simp] theorem withKind_eFail (k : HeaderKind) (s : State) : (s.withKind k).eFail = s.eFail := rfl
@[simp] theorem withKind_vFail (k : HeaderKind) (s : State) : (s.withKind k).vFail = s.vFail := rfl
@[simp] theorem withKind_pFail (k : HeaderKind) (s : State) : (s.withKind k).pFail = s.pFail := rfl
@[simp] theorem withKind_crc (k : HeaderKind) (s : State) : (s.withKind k).crc = s.crc := rfl
@[simp] theorem withKind_lock (k : HeaderKind) (s : State) : (s.withKind k).lock = s.lock := rfl
@[simp] theorem withKind_pAddr (k : HeaderKind) (s : State) : (s.withKind k).pAddr = s.pAddr := rfl
@[simp] theorem withKind_pIdx (k : HeaderKind) (s : State) : (s.withKind k).pIdx = s.pIdx := rfl
@[simp] theorem withKind_nvm (k : HeaderKind) (s : State) : (s.withKind k).nvm = s.nvm := rfl
@[simp] theorem withKind_pos (k : HeaderKind) (s : State) : (s.withKind k).pos = s.pos := rfl
@[simp] theorem withKind_ret (k : HeaderKind) (s : State) : (s.withKind k).ret = s.ret := rfl
@[simp] theorem withKind_trace (k : HeaderKind) (s : State) : (s.withKind k).trace = s.trace := rfl
@[simp] theorem withKind_free (k : HeaderKind) (s : State) : (s.withKind k).free = s.free := rfl
@[simp] theorem withKind_env (k : HeaderKind) (s : State) : (s.withKind k).env = s.env := rfl
@[simp] theorem withKind_cfg (k : HeaderKind) (s : State) : (s.withKind k).cfg = s.cfg := rfl

/-! ### countError -/

@[simp] theorem countError_seq (s : State) : (countError s).seq = s.seq := rfl
@[simp] theorem countError_cursor (s : State) : (countError s).cursor = s.cursor := rfl
@[simp] theorem countError_erased (s : State) : (countError s).erased = s.erased := rfl
@[simp] theorem countError_errCnt (s : State) : (countError s).errCnt = s.errCnt + 1 := rfl
@[simp] theorem countError_state (s : State) : (countError s).state = s.state := rfl
@[simp] theorem countError_hdrKind (s : State) : (countError s).hdrKind = s.hdrKind := rfl
@[simp] theorem countError_seqB (s : State) : (countError s).seqB = s.seqB := rfl
@[simp] theorem countError_cmpB (s : State) : (countError s).cmpB = s.cmpB := rfl
@[simp] theorem countError_payload (s : State) : (countError s).payload = s.payload := rfl
@[simp] theorem countError_rxCrc (s : State) : (countError s).rxCrc = s.rxCrc := rfl
@[simp] theorem countError_commFail (s : State) : (countError s).commFail = s.commFail := rfl
@[simp] theorem countError_eFail (s : State) : (countError s).eFail = s.eFail := rfl
@[simp] theorem countError_vFail (s : State) : (countError s).vFail = s.vFail := rfl
@[simp] theorem countError_pFail (s : State) : (countError s).pFail = s.pFail := rfl
@[simp] theorem countError_crc (s : State) : (countError s).crc = s.crc := rfl
@[simp] theorem countError_lock (s : State) : (countError s).lock = s.lock := rfl
@[simp] theorem countError_pAddr (s : State) : (countError s).pAddr = s.pAddr := rfl
@[simp] theorem countError_pIdx (s : State) : (countError s).pIdx = s.pIdx := rfl
@[simp] theorem countError_nvm (s : State) : (countError s).nvm = s.nvm := rfl
@[simp] theorem countError_pos (s : State) : (countError s).pos = s.pos := rfl
@[simp] theorem countError_ret (s : State) : (countError s).ret = s.ret := rfl
@[simp] theorem countError_trace (s : State) : (countError s).trace = s.trace := rfl
@[simp] theorem countError_free (s : State) : (countError s).free = s.free := rfl
@[simp] theorem countError_env (s : State) : (countError s).env = s.env := rfl
@[simp] theorem countError_cfg (s : State) : (countError s).cfg = s.cfg := rfl

/-! ### escalate -/

@[simp] theorem escalate_seq (s : State) : (escalate s).seq = s.seq := rfl
@[simp] theorem escalate_cursor (s : State) : (escalate s).cursor = s.cursor := rfl
@[simp] theorem escalate_erased (s : State) : (escalate s).erased = s.erased := rfl
@[simp] theorem escalate_errCnt (s : State) : (escalate s).errCnt = s.cfg.xMaxErrors := rfl
@[simp] theorem escalate_state (s : State) : (escalate s).state = s.state := rfl
@[simp] theorem escalate_hdrKind (s : State) : (escalate s).hdrKind = s.hdrKind := rfl
@[simp] theorem escalate_seqB (s : State) : (escalate s).seqB = s.seqB := rfl
@[simp] theorem escalate_cmpB (s : State) : (escalate s).cmpB = s.cmpB := rfl
@[simp] theorem escalate_payload (s : State) : (escalate s).payload = s.payload := rfl
@[simp] theorem escalate_rxCrc (s : State) : (escalate s).rxCrc = s.rxCrc := rfl
@[simp] theorem escalate_commFail (s : State) : (escalate s).commFail = s.commFail := rfl
@[simp] theorem escalate_eFail (s : State) : (escalate s).eFail = s.eFail := rfl
@[simp] theorem escalate_vFail (s : State) : (escalate s).vFail = s.vFail := rfl
@[simp] theorem escalate_pFail (s : State) : (escalate s).pFail = s.pFail := rfl
@[simp] theorem escalate_crc (s : State) : (escalate s).crc = s.crc := rfl
@[simp] theorem escalate_lock (s : State) : (escalate s).lock = s.lock := rfl
@[simp] theorem escalate_pAddr (s : State) : (escalate s).pAddr = s.pAddr := rfl
@[simp] theorem escalate_pIdx (s : State) : (escalate s).pIdx = s.pIdx := rfl
@[simp] theorem escalate_nvm (s : State) : (escalate s).nvm = s.nvm := rfl
@[simp] theorem escalate_pos (s : State) : (escalate s).pos = s.pos := rfl
@[simp] theorem escalate_ret (s : State) : (escalate s).ret = s.ret := rfl
@[simp] theorem escalate_trace (s : State) : (escalate s).trace = s.trace := rfl
@[simp] theorem escalate_free (s : State) : (escalate s).free = s.free := rfl
@[simp] theorem escalate_env (s : State) : (escalate s).env = s.env := rfl
@[simp] theorem escalate_cfg (s : State) : (escalate s).cfg = s.cfg := rfl

/-! ### handlerReturn -/

@[simp] theorem handlerReturn_seq (s : State) : (handlerReturn s).seq = s.seq := rfl
@[simp] theorem handlerReturn_cursor (s : State) : (handlerReturn s).cursor = s.cursor := rfl
@[simp] theorem handlerReturn_erased (s : State) : (handlerReturn s).erased = s.erased := rfl
@[simp] theorem handlerReturn_errCnt (s : State) : (handlerReturn s).errCnt = s.errCnt := rfl
@[simp] theorem handlerReturn_state (s : State) : (handlerReturn s).state = .awaitHeader := rfl
@[simp] theorem handlerReturn_hdrKind (s : State) : (handlerReturn s).hdrKind = s.hdrKind := rfl
@[simp] theorem handlerReturn_seqB (s : State) : (handlerReturn s).seqB = s.seqB := rfl
@[simp] theorem handlerReturn_cmpB (s : State) : (handlerReturn s).cmpB = s.cmpB := rfl
@[simp] theorem handlerReturn_payload (s : State) : (handlerReturn s).payload = s.payload := rfl
@[simp] theorem handlerReturn_rxCrc (s : State) : (handlerReturn s).rxCrc = s.rxCrc := rfl
@[simp] theorem handlerReturn_commFail (s : State) : (handlerReturn s).commFail = s.commFail := rfl
@[simp] theorem handlerReturn_eFail (s : State) : (handlerReturn s).eFail = s.eFail := rfl
@[simp] theorem handlerReturn_vFail (s : State) : (handlerReturn s).vFail = s.vFail := rfl
@[simp] theorem handlerReturn_pFail (s : State) : (handlerReturn s).pFail = s.pFail := rfl
@[simp] theorem handlerReturn_crc (s : State) : (handlerReturn s).crc = s.crc := rfl
@[simp] theorem handlerReturn_lock (s : State) : (handlerReturn s).lock = s.lock := rfl
@[simp] theorem handlerReturn_pAddr (s : State) : (handlerReturn s).pAddr = s.pAddr := rfl
@[simp] theorem handlerReturn_pIdx (s : State) : (handlerReturn s).pIdx = s.pIdx := rfl
@[simp] theorem handlerReturn_nvm (s : State) : (handlerReturn s).nvm = s.nvm := rfl
@[simp] theorem handlerReturn_pos (s : State) : (handlerReturn s).pos = .start := rfl
@[simp] theorem handlerReturn_ret (s : State) : (handlerReturn s).ret = s.ret := rfl
@[simp] theorem handlerReturn_trace (s : State) : (handlerReturn s).trace = s.trace := rfl
@[simp] theorem handlerReturn_free (s : State) : (handlerReturn s).free = s.free := rfl
@[simp] theorem handlerReturn_env (s : State) : (handlerReturn s).env = s.env := rfl
@[simp] theorem handlerReturn_cfg (s : State) : (handlerReturn s).cfg = s.cfg := rfl

/-! ### clearFailures -/

@[simp] theorem clearFailures_seq (s : State) : (clearFailures s).seq = s.seq := rfl
@[simp] theorem clearFailures_cursor (s : State) : (clearFailures s).cursor = s.cursor := rfl
@[simp] theorem clearFailures_erased (s : State) : (clearFailures s).erased = s.erased := rfl
@[simp] theorem clearFailures_errCnt (s : State) : (clearFailures s).errCnt = s.errCnt := rfl
@[simp] theorem clearFailures_state (s : State) : (clearFailures s).state = s.state := rfl
@[simp] theorem clearFailures_hdrKind (s : State) : (clearFailures s).hdrKind = s.hdrKind := rfl
@[simp] theorem clearFailures_seqB (s : State) : (clearFailures s).seqB = s.seqB := rfl
@[simp] theorem clearFailures_cmpB (s : State) : (clearFailures s).cmpB = s.cmpB := rfl
@[simp] theorem clearFailures_payload (s : State) : (clearFailures s).payload = s.payload := rfl
@[simp] theorem clearFailures_rxCrc (s : State) : (clearFailures s).rxCrc = s.rxCrc := rfl
@[simp] theorem clearFailures_commFail (s : State) : (clearFailures s).commFail = s.commFail := rfl
@[simp] theorem clearFailures_eFail (s : State) : (clearFailures s).eFail = .empty := rfl
@[simp] theorem clearFailures_vFail (s : State) : (clearFailures s).vFail = .empty := rfl
@[simp] theorem clearFailures_pFail (s : State) : (clearFailures s).pFail = .empty := rfl
@[simp] theorem clearFailures_crc (s : State) : (clearFailures s).crc = s.crc := rfl
@[simp] theorem clearFailures_lock (s : State) : (clearFailures s).lock = s.lock := rfl
@[simp] theorem clearFailures_pAddr (s : State) : (clearFailures s).pAddr = s.pAddr := rfl
@[simp] theorem clearFailures_pIdx (s : State) : (clearFailures s).pIdx = s.pIdx := rfl
@[simp] theorem clearFailures_nvm (s : State) : (clearFailures s).nvm = s.nvm := rfl
@[simp] theorem clearFailures_pos (s : State) : (clearFailures s).pos = s.pos := rfl
@[simp] theorem clearFailures_ret (s : State) : (clearFailures s).ret = s.ret := rfl
@[simp] theorem clearFailures_trace (s : State) : (clearFailures s).trace = s.trace := rfl
@[simp] theorem clearFailures_free (s : State) : (clearFailures s).free = s.free := rfl
@[simp] theorem clearFailures_env (s : State) : (clearFailures s).env = s.env := rfl
@[simp] theorem clearFailures_cfg (s : State) : (clearFailures s).cfg = s.cfg := rfl

/-! ### beginPacket -/

@[simp] theorem beginPacket_seq (s : State) : (beginPacket s).seq = s.seq := rfl
@[simp] theorem beginPacket_cursor (s : State) : (beginPacket s).cursor = s.cursor := rfl
@[simp] theorem beginPacket_erased (s : State) : (beginPacket s).erased = s.erased := rfl
@[simp] theorem beginPacket_errCnt (s : State) : (beginPacket s).errCnt = s.errCnt := rfl
@[simp] theorem beginPacket_state (s : State) : (beginPacket s).state = s.state := rfl
@[simp] theorem beginPacket_hdrKind (s : State) : (beginPacket s).hdrKind = s.hdrKind := rfl
@[simp] theorem beginPacket_seqB (s : State) : (beginPacket s).seqB = s.seqB := rfl
@[simp] theorem beginPacket_cmpB (s : State) : (beginPacket s).cmpB = s.cmpB := rfl
@[simp] theorem beginPacket_payload (s : State) : (beginPacket s).payload = s.payload := rfl
@[simp] theorem beginPacket_rxCrc (s : State) : (beginPacket s).rxCrc = s.rxCrc := rfl
@[simp] theorem beginPacket_commFail (s : State) : (beginPacket s).commFail = false := rfl
@[simp] theorem beginPacket_eFail (s : State) : (beginPacket s).eFail = .empty := rfl
@[simp] theorem beginPacket_vFail (s : State) : (beginPacket s).vFail = .empty := rfl
@[simp] theorem beginPacket_pFail (s : State) : (beginPacket s).pFail = .empty := rfl
@[simp] theorem beginPacket_crc (s : State) : (beginPacket s).crc = s.crc := rfl
@[simp] theorem beginPacket_lock (s : State) : (beginPacket s).lock = s.lock := rfl
@[simp] theorem beginPacket_pAddr (s : State) : (beginPacket s).pAddr = s.pAddr := rfl
@[simp] theorem beginPacket_pIdx (s : State) : (beginPacket s).pIdx = s.pIdx := rfl
@[simp] theorem beginPacket_nvm (s : State) : (beginPacket s).nvm = s.nvm := rfl
@[simp] theorem beginPacket_pos (s : State) : (beginPacket s).pos = s.pos := rfl
@[simp] theorem beginPacket_ret (s : State) : (beginPacket s).ret = s.ret := rfl
@[simp] theorem beginPacket_trace (s : State) : (beginPacket s).trace = s.trace := rfl
@[simp] theorem beginPacket_free (s : State) : (beginPacket s).free = s.free := rfl
@[simp] theorem beginPacket_env (s : State) : (beginPacket s).env = s.env := rfl
@[simp] theorem beginPacket_cfg (s : State) : (beginPacket s).cfg = s.cfg := rfl

/-! ### commitPacket -/

@[simp] theorem commitPacket_seq (n : Nat) (s : State) : (commitPacket n s).seq = s.seq + 1 := rfl
@[simp] theorem commitPacket_cursor (n : Nat) (s : State) : (commitPacket n s).cursor = s.cursor + BitVec.ofNat 32 n := rfl
@[simp] theorem commitPacket_erased (n : Nat) (s : State) : (commitPacket n s).erased = s.erased := rfl
@[simp] theorem commitPacket_errCnt (n : Nat) (s : State) : (commitPacket n s).errCnt = 0 := rfl
@[simp] theorem commitPacket_state (n : Nat) (s : State) : (commitPacket n s).state = s.state := rfl
@[simp] theorem commitPacket_hdrKind (n : Nat) (s : State) : (commitPacket n s).hdrKind = s.hdrKind := rfl
@[simp] theorem commitPacket_seqB (n : Nat) (s : State) : (commitPacket n s).seqB = s.seqB := rfl
@[simp] theorem commitPacket_cmpB (n : Nat) (s : State) : (commitPacket n s).cmpB = s.cmpB := rfl
@[simp] theorem commitPacket_payload (n : Nat) (s : State) : (commitPacket n s).payload = s.payload := rfl
@[simp] theorem commitPacket_rxCrc (n : Nat) (s : State) : (commitPacket n s).rxCrc = s.rxCrc := rfl
@[simp] theorem commitPacket_commFail (n : Nat) (s : State) : (commitPacket n s).commFail = s.commFail := rfl
@[simp] theorem commitPacket_eFail (n : Nat) (s : State) : (commitPacket n s).eFail = s.eFail := rfl
@[simp] theorem commitPacket_vFail (n : Nat) (s : State) : (commitPacket n s).vFail = s.vFail := rfl
@[simp] theorem commitPacket_pFail (n : Nat) (s : State) : (commitPacket n s).pFail = s.pFail := rfl
@[simp] theorem commitPacket_crc (n : Nat) (s : State) : (commitPacket n s).crc = s.crc := rfl
@[simp] theorem commitPacket_lock (n : Nat) (s : State) : (commitPacket n s).lock = s.lock := rfl
@[simp] theorem commitPacket_pAddr (n : Nat) (s : State) : (commitPacket n s).pAddr = s.pAddr := rfl
@[simp] theorem commitPacket_pIdx (n : Nat) (s : State) : (commitPacket n s).pIdx = s.pIdx := rfl
@[simp] theorem commitPacket_nvm (n : Nat) (s : State) : (commitPacket n s).nvm = s.nvm := rfl
@[simp] theorem commitPacket_pos (n : Nat) (s : State) : (commitPacket n s).pos = s.pos := rfl
@[simp] theorem commitPacket_ret (n : Nat) (s : State) : (commitPacket n s).ret = s.ret := rfl
@[simp] theorem commitPacket_trace (n : Nat) (s : State) : (commitPacket n s).trace = s.trace := rfl
@[simp] theorem commitPacket_free (n : Nat) (s : State) : (commitPacket n s).free = s.free := rfl
@[simp] theorem commitPacket_env (n : Nat) (s : State) : (commitPacket n s).env = s.env := rfl
@[simp] theorem commitPacket_cfg (n : Nat) (s : State) : (commitPacket n s).cfg = s.cfg := rfl

/-! ### aimAtPage -/

@[simp] theorem aimAtPage_seq (start : Addr) (s : State) : (aimAtPage start s).seq = s.seq := rfl
@[simp] theorem aimAtPage_cursor (start : Addr) (s : State) : (aimAtPage start s).cursor = s.cursor := rfl
@[simp] theorem aimAtPage_erased (start : Addr) (s : State) : (aimAtPage start s).erased = s.erased := rfl
@[simp] theorem aimAtPage_errCnt (start : Addr) (s : State) : (aimAtPage start s).errCnt = s.errCnt := rfl
@[simp] theorem aimAtPage_state (start : Addr) (s : State) : (aimAtPage start s).state = s.state := rfl
@[simp] theorem aimAtPage_hdrKind (start : Addr) (s : State) : (aimAtPage start s).hdrKind = s.hdrKind := rfl
@[simp] theorem aimAtPage_seqB (start : Addr) (s : State) : (aimAtPage start s).seqB = s.seqB := rfl
@[simp] theorem aimAtPage_cmpB (start : Addr) (s : State) : (aimAtPage start s).cmpB = s.cmpB := rfl
@[simp] theorem aimAtPage_payload (start : Addr) (s : State) : (aimAtPage start s).payload = s.payload := rfl
@[simp] theorem aimAtPage_rxCrc (start : Addr) (s : State) : (aimAtPage start s).rxCrc = s.rxCrc := rfl
@[simp] theorem aimAtPage_commFail (start : Addr) (s : State) : (aimAtPage start s).commFail = s.commFail := rfl
@[simp] theorem aimAtPage_eFail (start : Addr) (s : State) : (aimAtPage start s).eFail = s.eFail := rfl
@[simp] theorem aimAtPage_vFail (start : Addr) (s : State) : (aimAtPage start s).vFail = s.vFail := rfl
@[simp] theorem aimAtPage_pFail (start : Addr) (s : State) : (aimAtPage start s).pFail = s.pFail := rfl
@[simp] theorem aimAtPage_crc (start : Addr) (s : State) : (aimAtPage start s).crc = s.crc := rfl
@[simp] theorem aimAtPage_lock (start : Addr) (s : State) : (aimAtPage start s).lock = s.lock := rfl
@[simp] theorem aimAtPage_pAddr (start : Addr) (s : State) : (aimAtPage start s).pAddr = pageAddress s.cfg start s.pIdx := rfl
@[simp] theorem aimAtPage_pIdx (start : Addr) (s : State) : (aimAtPage start s).pIdx = s.pIdx := rfl
@[simp] theorem aimAtPage_nvm (start : Addr) (s : State) : (aimAtPage start s).nvm = s.nvm := rfl
@[simp] theorem aimAtPage_pos (start : Addr) (s : State) : (aimAtPage start s).pos = s.pos := rfl
@[simp] theorem aimAtPage_ret (start : Addr) (s : State) : (aimAtPage start s).ret = s.ret := rfl
@[simp] theorem aimAtPage_trace (start : Addr) (s : State) : (aimAtPage start s).trace = s.trace := rfl
@[simp] theorem aimAtPage_free (start : Addr) (s : State) : (aimAtPage start s).free = s.free := rfl
@[simp] theorem aimAtPage_env (start : Addr) (s : State) : (aimAtPage start s).env = s.env := rfl
@[simp] theorem aimAtPage_cfg (start : Addr) (s : State) : (aimAtPage start s).cfg = s.cfg := rfl

/-! ### nextPage -/

@[simp] theorem nextPage_seq (s : State) : (nextPage s).seq = s.seq := rfl
@[simp] theorem nextPage_cursor (s : State) : (nextPage s).cursor = s.cursor := rfl
@[simp] theorem nextPage_erased (s : State) : (nextPage s).erased = s.erased := rfl
@[simp] theorem nextPage_errCnt (s : State) : (nextPage s).errCnt = s.errCnt := rfl
@[simp] theorem nextPage_state (s : State) : (nextPage s).state = s.state := rfl
@[simp] theorem nextPage_hdrKind (s : State) : (nextPage s).hdrKind = s.hdrKind := rfl
@[simp] theorem nextPage_seqB (s : State) : (nextPage s).seqB = s.seqB := rfl
@[simp] theorem nextPage_cmpB (s : State) : (nextPage s).cmpB = s.cmpB := rfl
@[simp] theorem nextPage_payload (s : State) : (nextPage s).payload = s.payload := rfl
@[simp] theorem nextPage_rxCrc (s : State) : (nextPage s).rxCrc = s.rxCrc := rfl
@[simp] theorem nextPage_commFail (s : State) : (nextPage s).commFail = s.commFail := rfl
@[simp] theorem nextPage_eFail (s : State) : (nextPage s).eFail = s.eFail := rfl
@[simp] theorem nextPage_vFail (s : State) : (nextPage s).vFail = s.vFail := rfl
@[simp] theorem nextPage_pFail (s : State) : (nextPage s).pFail = s.pFail := rfl
@[simp] theorem nextPage_crc (s : State) : (nextPage s).crc = s.crc := rfl
@[simp] theorem nextPage_lock (s : State) : (nextPage s).lock = s.lock := rfl
@[simp] theorem nextPage_pAddr (s : State) : (nextPage s).pAddr = s.pAddr := rfl
@[simp] theorem nextPage_pIdx (s : State) : (nextPage s).pIdx = s.pIdx + 1 := rfl
@[simp] theorem nextPage_nvm (s : State) : (nextPage s).nvm = s.nvm := rfl
@[simp] theorem nextPage_pos (s : State) : (nextPage s).pos = s.pos := rfl
@[simp] theorem nextPage_ret (s : State) : (nextPage s).ret = s.ret := rfl
@[simp] theorem nextPage_trace (s : State) : (nextPage s).trace = s.trace := rfl
@[simp] theorem nextPage_free (s : State) : (nextPage s).free = s.free := rfl
@[simp] theorem nextPage_env (s : State) : (nextPage s).env = s.env := rfl
@[simp] theorem nextPage_cfg (s : State) : (nextPage s).cfg = s.cfg := rfl

/-! ### nextWord -/

@[simp] theorem nextWord_seq (s : State) : (nextWord s).seq = s.seq := rfl
@[simp] theorem nextWord_cursor (s : State) : (nextWord s).cursor = s.cursor := rfl
@[simp] theorem nextWord_erased (s : State) : (nextWord s).erased = s.erased := rfl
@[simp] theorem nextWord_errCnt (s : State) : (nextWord s).errCnt = s.errCnt := rfl
@[simp] theorem nextWord_state (s : State) : (nextWord s).state = s.state := rfl
@[simp] theorem nextWord_hdrKind (s : State) : (nextWord s).hdrKind = s.hdrKind := rfl
@[simp] theorem nextWord_seqB (s : State) : (nextWord s).seqB = s.seqB := rfl
@[simp] theorem nextWord_cmpB (s : State) : (nextWord s).cmpB = s.cmpB := rfl
@[simp] theorem nextWord_payload (s : State) : (nextWord s).payload = s.payload := rfl
@[simp] theorem nextWord_rxCrc (s : State) : (nextWord s).rxCrc = s.rxCrc := rfl
@[simp] theorem nextWord_commFail (s : State) : (nextWord s).commFail = s.commFail := rfl
@[simp] theorem nextWord_eFail (s : State) : (nextWord s).eFail = s.eFail := rfl
@[simp] theorem nextWord_vFail (s : State) : (nextWord s).vFail = s.vFail := rfl
@[simp] theorem nextWord_pFail (s : State) : (nextWord s).pFail = s.pFail := rfl
@[simp] theorem nextWord_crc (s : State) : (nextWord s).crc = s.crc := rfl
@[simp] theorem nextWord_lock (s : State) : (nextWord s).lock = s.lock := rfl
@[simp] theorem nextWord_pAddr (s : State) : (nextWord s).pAddr = s.pAddr + 4 := rfl
@[simp] theorem nextWord_pIdx (s : State) : (nextWord s).pIdx = s.pIdx + 1 := rfl
@[simp] theorem nextWord_nvm (s : State) : (nextWord s).nvm = s.nvm := rfl
@[simp] theorem nextWord_pos (s : State) : (nextWord s).pos = s.pos := rfl
@[simp] theorem nextWord_ret (s : State) : (nextWord s).ret = s.ret := rfl
@[simp] theorem nextWord_trace (s : State) : (nextWord s).trace = s.trace := rfl
@[simp] theorem nextWord_free (s : State) : (nextWord s).free = s.free := rfl
@[simp] theorem nextWord_env (s : State) : (nextWord s).env = s.env := rfl
@[simp] theorem nextWord_cfg (s : State) : (nextWord s).cfg = s.cfg := rfl

/-! ### noteEraseFailed -/

@[simp] theorem noteEraseFailed_seq (s : State) : (noteEraseFailed s).seq = s.seq := rfl
@[simp] theorem noteEraseFailed_cursor (s : State) : (noteEraseFailed s).cursor = s.cursor := rfl
@[simp] theorem noteEraseFailed_erased (s : State) : (noteEraseFailed s).erased = s.erased := rfl
@[simp] theorem noteEraseFailed_errCnt (s : State) : (noteEraseFailed s).errCnt = s.errCnt := rfl
@[simp] theorem noteEraseFailed_state (s : State) : (noteEraseFailed s).state = s.state := rfl
@[simp] theorem noteEraseFailed_hdrKind (s : State) : (noteEraseFailed s).hdrKind = s.hdrKind := rfl
@[simp] theorem noteEraseFailed_seqB (s : State) : (noteEraseFailed s).seqB = s.seqB := rfl
@[simp] theorem noteEraseFailed_cmpB (s : State) : (noteEraseFailed s).cmpB = s.cmpB := rfl
@[simp] theorem noteEraseFailed_payload (s : State) : (noteEraseFailed s).payload = s.payload := rfl
@[simp] theorem noteEraseFailed_rxCrc (s : State) : (noteEraseFailed s).rxCrc = s.rxCrc := rfl
@[simp] theorem noteEraseFailed_commFail (s : State) : (noteEraseFailed s).commFail = s.commFail := rfl
@[simp] theorem noteEraseFailed_eFail (s : State) : (noteEraseFailed s).eFail = ⟨true⟩ := rfl
@[simp] theorem noteEraseFailed_vFail (s : State) : (noteEraseFailed s).vFail = s.vFail := rfl
@[simp] theorem noteEraseFailed_pFail (s : State) : (noteEraseFailed s).pFail = s.pFail := rfl
@[simp] theorem noteEraseFailed_crc (s : State) : (noteEraseFailed s).crc = s.crc := rfl
@[simp] theorem noteEraseFailed_lock (s : State) : (noteEraseFailed s).lock = s.lock := rfl
@[simp] theorem noteEraseFailed_pAddr (s : State) : (noteEraseFailed s).pAddr = s.pAddr := rfl
@[simp] theorem noteEraseFailed_pIdx (s : State) : (noteEraseFailed s).pIdx = s.pIdx := rfl
@[simp] theorem noteEraseFailed_nvm (s : State) : (noteEraseFailed s).nvm = s.nvm := rfl
@[simp] theorem noteEraseFailed_pos (s : State) : (noteEraseFailed s).pos = s.pos := rfl
@[simp] theorem noteEraseFailed_ret (s : State) : (noteEraseFailed s).ret = s.ret := rfl
@[simp] theorem noteEraseFailed_trace (s : State) : (noteEraseFailed s).trace = s.trace := rfl
@[simp] theorem noteEraseFailed_free (s : State) : (noteEraseFailed s).free = s.free := rfl
@[simp] theorem noteEraseFailed_env (s : State) : (noteEraseFailed s).env = s.env := rfl
@[simp] theorem noteEraseFailed_cfg (s : State) : (noteEraseFailed s).cfg = s.cfg := rfl

/-! ### noteTooLarge -/

@[simp] theorem noteTooLarge_seq (s : State) : (noteTooLarge s).seq = s.seq := rfl
@[simp] theorem noteTooLarge_cursor (s : State) : (noteTooLarge s).cursor = s.cursor := rfl
@[simp] theorem noteTooLarge_erased (s : State) : (noteTooLarge s).erased = s.erased := rfl
@[simp] theorem noteTooLarge_errCnt (s : State) : (noteTooLarge s).errCnt = s.errCnt := rfl
@[simp] theorem noteTooLarge_state (s : State) : (noteTooLarge s).state = s.state := rfl
@[simp] theorem noteTooLarge_hdrKind (s : State) : (noteTooLarge s).hdrKind = s.hdrKind := rfl
@[simp] theorem noteTooLarge_seqB (s : State) : (noteTooLarge s).seqB = s.seqB := rfl
@[simp] theorem noteTooLarge_cmpB (s : State) : (noteTooLarge s).cmpB = s.cmpB := rfl
@[simp] theorem noteTooLarge_payload (s : State) : (noteTooLarge s).payload = s.payload := rfl
@[simp] theorem noteTooLarge_rxCrc (s : State) : (noteTooLarge s).rxCrc = s.rxCrc := rfl
@[simp] theorem noteTooLarge_commFail (s : State) : (noteTooLarge s).commFail = s.commFail := rfl
@[simp] theorem noteTooLarge_eFail (s : State) : (noteTooLarge s).eFail = s.eFail := rfl
@[simp] theorem noteTooLarge_vFail (s : State) : (noteTooLarge s).vFail = s.vFail := rfl
@[simp] theorem noteTooLarge_pFail (s : State) : (noteTooLarge s).pFail = { s.pFail with binaryTooLarge := true } := rfl
@[simp] theorem noteTooLarge_crc (s : State) : (noteTooLarge s).crc = s.crc := rfl
@[simp] theorem noteTooLarge_lock (s : State) : (noteTooLarge s).lock = s.lock := rfl
@[simp] theorem noteTooLarge_pAddr (s : State) : (noteTooLarge s).pAddr = s.pAddr := rfl
@[simp] theorem noteTooLarge_pIdx (s : State) : (noteTooLarge s).pIdx = s.pIdx := rfl
@[simp] theorem noteTooLarge_nvm (s : State) : (noteTooLarge s).nvm = s.nvm := rfl
@[simp] theorem noteTooLarge_pos (s : State) : (noteTooLarge s).pos = s.pos := rfl
@[simp] theorem noteTooLarge_ret (s : State) : (noteTooLarge s).ret = s.ret := rfl
@[simp] theorem noteTooLarge_trace (s : State) : (noteTooLarge s).trace = s.trace := rfl
@[simp] theorem noteTooLarge_free (s : State) : (noteTooLarge s).free = s.free := rfl
@[simp] theorem noteTooLarge_env (s : State) : (noteTooLarge s).env = s.env := rfl
@[simp] theorem noteTooLarge_cfg (s : State) : (noteTooLarge s).cfg = s.cfg := rfl

/-! ### noteMismatch -/

@[simp] theorem noteMismatch_seq (s : State) : (noteMismatch s).seq = s.seq := rfl
@[simp] theorem noteMismatch_cursor (s : State) : (noteMismatch s).cursor = s.cursor := rfl
@[simp] theorem noteMismatch_erased (s : State) : (noteMismatch s).erased = s.erased := rfl
@[simp] theorem noteMismatch_errCnt (s : State) : (noteMismatch s).errCnt = s.errCnt := rfl
@[simp] theorem noteMismatch_state (s : State) : (noteMismatch s).state = s.state := rfl
@[simp] theorem noteMismatch_hdrKind (s : State) : (noteMismatch s).hdrKind = s.hdrKind := rfl
@[simp] theorem noteMismatch_seqB (s : State) : (noteMismatch s).seqB = s.seqB := rfl
@[simp] theorem noteMismatch_cmpB (s : State) : (noteMismatch s).cmpB = s.cmpB := rfl
@[simp] theorem noteMismatch_payload (s : State) : (noteMismatch s).payload = s.payload := rfl
@[simp] theorem noteMismatch_rxCrc (s : State) : (noteMismatch s).rxCrc = s.rxCrc := rfl
@[simp] theorem noteMismatch_commFail (s : State) : (noteMismatch s).commFail = s.commFail := rfl
@[simp] theorem noteMismatch_eFail (s : State) : (noteMismatch s).eFail = s.eFail := rfl
@[simp] theorem noteMismatch_vFail (s : State) : (noteMismatch s).vFail = s.vFail := rfl
@[simp] theorem noteMismatch_pFail (s : State) : (noteMismatch s).pFail = { s.pFail with readbackMismatch := true } := rfl
@[simp] theorem noteMismatch_crc (s : State) : (noteMismatch s).crc = s.crc := rfl
@[simp] theorem noteMismatch_lock (s : State) : (noteMismatch s).lock = s.lock := rfl
@[simp] theorem noteMismatch_pAddr (s : State) : (noteMismatch s).pAddr = s.pAddr := rfl
@[simp] theorem noteMismatch_pIdx (s : State) : (noteMismatch s).pIdx = s.pIdx := rfl
@[simp] theorem noteMismatch_nvm (s : State) : (noteMismatch s).nvm = s.nvm := rfl
@[simp] theorem noteMismatch_pos (s : State) : (noteMismatch s).pos = s.pos := rfl
@[simp] theorem noteMismatch_ret (s : State) : (noteMismatch s).ret = s.ret := rfl
@[simp] theorem noteMismatch_trace (s : State) : (noteMismatch s).trace = s.trace := rfl
@[simp] theorem noteMismatch_free (s : State) : (noteMismatch s).free = s.free := rfl
@[simp] theorem noteMismatch_env (s : State) : (noteMismatch s).env = s.env := rfl
@[simp] theorem noteMismatch_cfg (s : State) : (noteMismatch s).cfg = s.cfg := rfl

/-! ### aimWrite -/

@[simp] theorem aimWrite_seq (addr : Addr) (s : State) : (aimWrite addr s).seq = s.seq := rfl
@[simp] theorem aimWrite_cursor (addr : Addr) (s : State) : (aimWrite addr s).cursor = s.cursor := rfl
@[simp] theorem aimWrite_erased (addr : Addr) (s : State) : (aimWrite addr s).erased = s.erased := rfl
@[simp] theorem aimWrite_errCnt (addr : Addr) (s : State) : (aimWrite addr s).errCnt = s.errCnt := rfl
@[simp] theorem aimWrite_state (addr : Addr) (s : State) : (aimWrite addr s).state = s.state := rfl
@[simp] theorem aimWrite_hdrKind (addr : Addr) (s : State) : (aimWrite addr s).hdrKind = s.hdrKind := rfl
@[simp] theorem aimWrite_seqB (addr : Addr) (s : State) : (aimWrite addr s).seqB = s.seqB := rfl
@[simp] theorem aimWrite_cmpB (addr : Addr) (s : State) : (aimWrite addr s).cmpB = s.cmpB := rfl
@[simp] theorem aimWrite_payload (addr : Addr) (s : State) : (aimWrite addr s).payload = s.payload := rfl
@[simp] theorem aimWrite_rxCrc (addr : Addr) (s : State) : (aimWrite addr s).rxCrc = s.rxCrc := rfl
@[simp] theorem aimWrite_commFail (addr : Addr) (s : State) : (aimWrite addr s).commFail = s.commFail := rfl
@[simp] theorem aimWrite_eFail (addr : Addr) (s : State) : (aimWrite addr s).eFail = s.eFail := rfl
@[simp] theorem aimWrite_vFail (addr : Addr) (s : State) : (aimWrite addr s).vFail = s.vFail := rfl
@[simp] theorem aimWrite_pFail (addr : Addr) (s : State) : (aimWrite addr s).pFail = .empty := rfl
@[simp] theorem aimWrite_crc (addr : Addr) (s : State) : (aimWrite addr s).crc = s.crc := rfl
@[simp] theorem aimWrite_lock (addr : Addr) (s : State) : (aimWrite addr s).lock = s.lock := rfl
@[simp] theorem aimWrite_pAddr (addr : Addr) (s : State) : (aimWrite addr s).pAddr = addr := rfl
@[simp] theorem aimWrite_pIdx (addr : Addr) (s : State) : (aimWrite addr s).pIdx = s.pIdx := rfl
@[simp] theorem aimWrite_nvm (addr : Addr) (s : State) : (aimWrite addr s).nvm = s.nvm := rfl
@[simp] theorem aimWrite_pos (addr : Addr) (s : State) : (aimWrite addr s).pos = s.pos := rfl
@[simp] theorem aimWrite_ret (addr : Addr) (s : State) : (aimWrite addr s).ret = s.ret := rfl
@[simp] theorem aimWrite_trace (addr : Addr) (s : State) : (aimWrite addr s).trace = s.trace := rfl
@[simp] theorem aimWrite_free (addr : Addr) (s : State) : (aimWrite addr s).free = s.free := rfl
@[simp] theorem aimWrite_env (addr : Addr) (s : State) : (aimWrite addr s).env = s.env := rfl
@[simp] theorem aimWrite_cfg (addr : Addr) (s : State) : (aimWrite addr s).cfg = s.cfg := rfl

/-! ### beginErase -/

@[simp] theorem beginErase_seq (s : State) : (beginErase s).seq = s.seq := rfl
@[simp] theorem beginErase_cursor (s : State) : (beginErase s).cursor = s.cursor := rfl
@[simp] theorem beginErase_erased (s : State) : (beginErase s).erased = s.erased := rfl
@[simp] theorem beginErase_errCnt (s : State) : (beginErase s).errCnt = s.errCnt := rfl
@[simp] theorem beginErase_state (s : State) : (beginErase s).state = s.state := rfl
@[simp] theorem beginErase_hdrKind (s : State) : (beginErase s).hdrKind = s.hdrKind := rfl
@[simp] theorem beginErase_seqB (s : State) : (beginErase s).seqB = s.seqB := rfl
@[simp] theorem beginErase_cmpB (s : State) : (beginErase s).cmpB = s.cmpB := rfl
@[simp] theorem beginErase_payload (s : State) : (beginErase s).payload = s.payload := rfl
@[simp] theorem beginErase_rxCrc (s : State) : (beginErase s).rxCrc = s.rxCrc := rfl
@[simp] theorem beginErase_commFail (s : State) : (beginErase s).commFail = s.commFail := rfl
@[simp] theorem beginErase_eFail (s : State) : (beginErase s).eFail = .empty := rfl
@[simp] theorem beginErase_vFail (s : State) : (beginErase s).vFail = s.vFail := rfl
@[simp] theorem beginErase_pFail (s : State) : (beginErase s).pFail = s.pFail := rfl
@[simp] theorem beginErase_crc (s : State) : (beginErase s).crc = s.crc := rfl
@[simp] theorem beginErase_lock (s : State) : (beginErase s).lock = false := rfl
@[simp] theorem beginErase_pAddr (s : State) : (beginErase s).pAddr = s.pAddr := rfl
@[simp] theorem beginErase_pIdx (s : State) : (beginErase s).pIdx = 0 := rfl
@[simp] theorem beginErase_nvm (s : State) : (beginErase s).nvm = s.nvm := rfl
@[simp] theorem beginErase_pos (s : State) : (beginErase s).pos = s.pos := rfl
@[simp] theorem beginErase_ret (s : State) : (beginErase s).ret = .nothing := rfl
@[simp] theorem beginErase_trace (s : State) : (beginErase s).trace = .nvmUnlock :: s.trace := rfl
@[simp] theorem beginErase_free (s : State) : (beginErase s).free = s.free := rfl
@[simp] theorem beginErase_env (s : State) : (beginErase s).env = s.env := rfl
@[simp] theorem beginErase_cfg (s : State) : (beginErase s).cfg = s.cfg := rfl

/-! ### beginWrite -/

@[simp] theorem beginWrite_seq (addr : Addr) (s : State) : (beginWrite addr s).seq = s.seq := rfl
@[simp] theorem beginWrite_cursor (addr : Addr) (s : State) : (beginWrite addr s).cursor = s.cursor := rfl
@[simp] theorem beginWrite_erased (addr : Addr) (s : State) : (beginWrite addr s).erased = s.erased := rfl
@[simp] theorem beginWrite_errCnt (addr : Addr) (s : State) : (beginWrite addr s).errCnt = s.errCnt := rfl
@[simp] theorem beginWrite_state (addr : Addr) (s : State) : (beginWrite addr s).state = s.state := rfl
@[simp] theorem beginWrite_hdrKind (addr : Addr) (s : State) : (beginWrite addr s).hdrKind = s.hdrKind := rfl
@[simp] theorem beginWrite_seqB (addr : Addr) (s : State) : (beginWrite addr s).seqB = s.seqB := rfl
@[simp] theorem beginWrite_cmpB (addr : Addr) (s : State) : (beginWrite addr s).cmpB = s.cmpB := rfl
@[simp] theorem beginWrite_payload (addr : Addr) (s : State) : (beginWrite addr s).payload = s.payload := rfl
@[simp] theorem beginWrite_rxCrc (addr : Addr) (s : State) : (beginWrite addr s).rxCrc = s.rxCrc := rfl
@[simp] theorem beginWrite_commFail (addr : Addr) (s : State) : (beginWrite addr s).commFail = s.commFail := rfl
@[simp] theorem beginWrite_eFail (addr : Addr) (s : State) : (beginWrite addr s).eFail = s.eFail := rfl
@[simp] theorem beginWrite_vFail (addr : Addr) (s : State) : (beginWrite addr s).vFail = s.vFail := rfl
@[simp] theorem beginWrite_pFail (addr : Addr) (s : State) : (beginWrite addr s).pFail = .empty := rfl
@[simp] theorem beginWrite_crc (addr : Addr) (s : State) : (beginWrite addr s).crc = s.crc := rfl
@[simp] theorem beginWrite_lock (addr : Addr) (s : State) : (beginWrite addr s).lock = false := rfl
@[simp] theorem beginWrite_pAddr (addr : Addr) (s : State) : (beginWrite addr s).pAddr = addr := rfl
@[simp] theorem beginWrite_pIdx (addr : Addr) (s : State) : (beginWrite addr s).pIdx = 0 := rfl
@[simp] theorem beginWrite_nvm (addr : Addr) (s : State) : (beginWrite addr s).nvm = s.nvm := rfl
@[simp] theorem beginWrite_pos (addr : Addr) (s : State) : (beginWrite addr s).pos = s.pos := rfl
@[simp] theorem beginWrite_ret (addr : Addr) (s : State) : (beginWrite addr s).ret = .nothing := rfl
@[simp] theorem beginWrite_trace (addr : Addr) (s : State) : (beginWrite addr s).trace = .nvmUnlock :: s.trace := rfl
@[simp] theorem beginWrite_free (addr : Addr) (s : State) : (beginWrite addr s).free = s.free := rfl
@[simp] theorem beginWrite_env (addr : Addr) (s : State) : (beginWrite addr s).env = s.env := rfl
@[simp] theorem beginWrite_cfg (addr : Addr) (s : State) : (beginWrite addr s).cfg = s.cfg := rfl

/-! ### nvmUnlock -/

@[simp] theorem nvmUnlock_seq (s : State) : (nvmUnlock s).seq = s.seq := rfl
@[simp] theorem nvmUnlock_cursor (s : State) : (nvmUnlock s).cursor = s.cursor := rfl
@[simp] theorem nvmUnlock_erased (s : State) : (nvmUnlock s).erased = s.erased := rfl
@[simp] theorem nvmUnlock_errCnt (s : State) : (nvmUnlock s).errCnt = s.errCnt := rfl
@[simp] theorem nvmUnlock_state (s : State) : (nvmUnlock s).state = s.state := rfl
@[simp] theorem nvmUnlock_hdrKind (s : State) : (nvmUnlock s).hdrKind = s.hdrKind := rfl
@[simp] theorem nvmUnlock_seqB (s : State) : (nvmUnlock s).seqB = s.seqB := rfl
@[simp] theorem nvmUnlock_cmpB (s : State) : (nvmUnlock s).cmpB = s.cmpB := rfl
@[simp] theorem nvmUnlock_payload (s : State) : (nvmUnlock s).payload = s.payload := rfl
@[simp] theorem nvmUnlock_rxCrc (s : State) : (nvmUnlock s).rxCrc = s.rxCrc := rfl
@[simp] theorem nvmUnlock_commFail (s : State) : (nvmUnlock s).commFail = s.commFail := rfl
@[simp] theorem nvmUnlock_eFail (s : State) : (nvmUnlock s).eFail = s.eFail := rfl
@[simp] theorem nvmUnlock_vFail (s : State) : (nvmUnlock s).vFail = s.vFail := rfl
@[simp] theorem nvmUnlock_pFail (s : State) : (nvmUnlock s).pFail = s.pFail := rfl
@[simp] theorem nvmUnlock_crc (s : State) : (nvmUnlock s).crc = s.crc := rfl
@[simp] theorem nvmUnlock_lock (s : State) : (nvmUnlock s).lock = false := rfl
@[simp] theorem nvmUnlock_pAddr (s : State) : (nvmUnlock s).pAddr = s.pAddr := rfl
@[simp] theorem nvmUnlock_pIdx (s : State) : (nvmUnlock s).pIdx = s.pIdx := rfl
@[simp] theorem nvmUnlock_nvm (s : State) : (nvmUnlock s).nvm = s.nvm := rfl
@[simp] theorem nvmUnlock_pos (s : State) : (nvmUnlock s).pos = s.pos := rfl
@[simp] theorem nvmUnlock_ret (s : State) : (nvmUnlock s).ret = .nothing := rfl
@[simp] theorem nvmUnlock_trace (s : State) : (nvmUnlock s).trace = .nvmUnlock :: s.trace := rfl
@[simp] theorem nvmUnlock_free (s : State) : (nvmUnlock s).free = s.free := rfl
@[simp] theorem nvmUnlock_env (s : State) : (nvmUnlock s).env = s.env := rfl
@[simp] theorem nvmUnlock_cfg (s : State) : (nvmUnlock s).cfg = s.cfg := rfl

/-! ### nvmLock -/

@[simp] theorem nvmLock_seq (s : State) : (nvmLock s).seq = s.seq := rfl
@[simp] theorem nvmLock_cursor (s : State) : (nvmLock s).cursor = s.cursor := rfl
@[simp] theorem nvmLock_erased (s : State) : (nvmLock s).erased = s.erased := rfl
@[simp] theorem nvmLock_errCnt (s : State) : (nvmLock s).errCnt = s.errCnt := rfl
@[simp] theorem nvmLock_state (s : State) : (nvmLock s).state = s.state := rfl
@[simp] theorem nvmLock_hdrKind (s : State) : (nvmLock s).hdrKind = s.hdrKind := rfl
@[simp] theorem nvmLock_seqB (s : State) : (nvmLock s).seqB = s.seqB := rfl
@[simp] theorem nvmLock_cmpB (s : State) : (nvmLock s).cmpB = s.cmpB := rfl
@[simp] theorem nvmLock_payload (s : State) : (nvmLock s).payload = s.payload := rfl
@[simp] theorem nvmLock_rxCrc (s : State) : (nvmLock s).rxCrc = s.rxCrc := rfl
@[simp] theorem nvmLock_commFail (s : State) : (nvmLock s).commFail = s.commFail := rfl
@[simp] theorem nvmLock_eFail (s : State) : (nvmLock s).eFail = s.eFail := rfl
@[simp] theorem nvmLock_vFail (s : State) : (nvmLock s).vFail = s.vFail := rfl
@[simp] theorem nvmLock_pFail (s : State) : (nvmLock s).pFail = s.pFail := rfl
@[simp] theorem nvmLock_crc (s : State) : (nvmLock s).crc = s.crc := rfl
@[simp] theorem nvmLock_lock (s : State) : (nvmLock s).lock = true := rfl
@[simp] theorem nvmLock_pAddr (s : State) : (nvmLock s).pAddr = s.pAddr := rfl
@[simp] theorem nvmLock_pIdx (s : State) : (nvmLock s).pIdx = s.pIdx := rfl
@[simp] theorem nvmLock_nvm (s : State) : (nvmLock s).nvm = s.nvm := rfl
@[simp] theorem nvmLock_pos (s : State) : (nvmLock s).pos = s.pos := rfl
@[simp] theorem nvmLock_ret (s : State) : (nvmLock s).ret = .nothing := rfl
@[simp] theorem nvmLock_trace (s : State) : (nvmLock s).trace = .nvmLock :: s.trace := rfl
@[simp] theorem nvmLock_free (s : State) : (nvmLock s).free = s.free := rfl
@[simp] theorem nvmLock_env (s : State) : (nvmLock s).env = s.env := rfl
@[simp] theorem nvmLock_cfg (s : State) : (nvmLock s).cfg = s.cfg := rfl

/-! ### receive -/

@[simp] theorem receive_seq (n : Nat) (s : State) : (receive n s).seq = s.seq := rfl
@[simp] theorem receive_cursor (n : Nat) (s : State) : (receive n s).cursor = s.cursor := rfl
@[simp] theorem receive_erased (n : Nat) (s : State) : (receive n s).erased = s.erased := rfl
@[simp] theorem receive_errCnt (n : Nat) (s : State) : (receive n s).errCnt = s.errCnt := rfl
@[simp] theorem receive_state (n : Nat) (s : State) : (receive n s).state = s.state := rfl
@[simp] theorem receive_hdrKind (n : Nat) (s : State) : (receive n s).hdrKind = s.hdrKind := rfl
@[simp] theorem receive_seqB (n : Nat) (s : State) : (receive n s).seqB = s.seqB := rfl
@[simp] theorem receive_cmpB (n : Nat) (s : State) : (receive n s).cmpB = s.cmpB := rfl
@[simp] theorem receive_payload (n : Nat) (s : State) : (receive n s).payload = s.payload := rfl
@[simp] theorem receive_rxCrc (n : Nat) (s : State) : (receive n s).rxCrc = s.rxCrc := rfl
@[simp] theorem receive_commFail (n : Nat) (s : State) : (receive n s).commFail = s.commFail := rfl
@[simp] theorem receive_eFail (n : Nat) (s : State) : (receive n s).eFail = s.eFail := rfl
@[simp] theorem receive_vFail (n : Nat) (s : State) : (receive n s).vFail = s.vFail := rfl
@[simp] theorem receive_pFail (n : Nat) (s : State) : (receive n s).pFail = s.pFail := rfl
@[simp] theorem receive_crc (n : Nat) (s : State) : (receive n s).crc = s.crc := rfl
@[simp] theorem receive_lock (n : Nat) (s : State) : (receive n s).lock = s.lock := rfl
@[simp] theorem receive_pAddr (n : Nat) (s : State) : (receive n s).pAddr = s.pAddr := rfl
@[simp] theorem receive_pIdx (n : Nat) (s : State) : (receive n s).pIdx = s.pIdx := rfl
@[simp] theorem receive_nvm (n : Nat) (s : State) : (receive n s).nvm = s.nvm := rfl
@[simp] theorem receive_pos (n : Nat) (s : State) : (receive n s).pos = s.pos := rfl
@[simp] theorem receive_cfg (n : Nat) (s : State) : (receive n s).cfg = s.cfg := rfl

/-! ### transmit -/

@[simp] theorem transmit_seq (b : Byte) (s : State) : (transmit b s).seq = s.seq := rfl
@[simp] theorem transmit_cursor (b : Byte) (s : State) : (transmit b s).cursor = s.cursor := rfl
@[simp] theorem transmit_erased (b : Byte) (s : State) : (transmit b s).erased = s.erased := rfl
@[simp] theorem transmit_errCnt (b : Byte) (s : State) : (transmit b s).errCnt = s.errCnt := rfl
@[simp] theorem transmit_state (b : Byte) (s : State) : (transmit b s).state = s.state := rfl
@[simp] theorem transmit_hdrKind (b : Byte) (s : State) : (transmit b s).hdrKind = s.hdrKind := rfl
@[simp] theorem transmit_seqB (b : Byte) (s : State) : (transmit b s).seqB = s.seqB := rfl
@[simp] theorem transmit_cmpB (b : Byte) (s : State) : (transmit b s).cmpB = s.cmpB := rfl
@[simp] theorem transmit_payload (b : Byte) (s : State) : (transmit b s).payload = s.payload := rfl
@[simp] theorem transmit_rxCrc (b : Byte) (s : State) : (transmit b s).rxCrc = s.rxCrc := rfl
@[simp] theorem transmit_commFail (b : Byte) (s : State) : (transmit b s).commFail = s.commFail := rfl
@[simp] theorem transmit_eFail (b : Byte) (s : State) : (transmit b s).eFail = s.eFail := rfl
@[simp] theorem transmit_vFail (b : Byte) (s : State) : (transmit b s).vFail = s.vFail := rfl
@[simp] theorem transmit_pFail (b : Byte) (s : State) : (transmit b s).pFail = s.pFail := rfl
@[simp] theorem transmit_crc (b : Byte) (s : State) : (transmit b s).crc = s.crc := rfl
@[simp] theorem transmit_lock (b : Byte) (s : State) : (transmit b s).lock = s.lock := rfl
@[simp] theorem transmit_pAddr (b : Byte) (s : State) : (transmit b s).pAddr = s.pAddr := rfl
@[simp] theorem transmit_pIdx (b : Byte) (s : State) : (transmit b s).pIdx = s.pIdx := rfl
@[simp] theorem transmit_nvm (b : Byte) (s : State) : (transmit b s).nvm = s.nvm := rfl
@[simp] theorem transmit_pos (b : Byte) (s : State) : (transmit b s).pos = s.pos := rfl
@[simp] theorem transmit_cfg (b : Byte) (s : State) : (transmit b s).cfg = s.cfg := rfl

/-! ### transmitText -/

@[simp] theorem transmitText_seq (text : List Byte) (s : State) : (transmitText text s).seq = s.seq := rfl
@[simp] theorem transmitText_cursor (text : List Byte) (s : State) : (transmitText text s).cursor = s.cursor := rfl
@[simp] theorem transmitText_erased (text : List Byte) (s : State) : (transmitText text s).erased = s.erased := rfl
@[simp] theorem transmitText_errCnt (text : List Byte) (s : State) : (transmitText text s).errCnt = s.errCnt := rfl
@[simp] theorem transmitText_state (text : List Byte) (s : State) : (transmitText text s).state = s.state := rfl
@[simp] theorem transmitText_hdrKind (text : List Byte) (s : State) : (transmitText text s).hdrKind = s.hdrKind := rfl
@[simp] theorem transmitText_seqB (text : List Byte) (s : State) : (transmitText text s).seqB = s.seqB := rfl
@[simp] theorem transmitText_cmpB (text : List Byte) (s : State) : (transmitText text s).cmpB = s.cmpB := rfl
@[simp] theorem transmitText_payload (text : List Byte) (s : State) : (transmitText text s).payload = s.payload := rfl
@[simp] theorem transmitText_rxCrc (text : List Byte) (s : State) : (transmitText text s).rxCrc = s.rxCrc := rfl
@[simp] theorem transmitText_commFail (text : List Byte) (s : State) : (transmitText text s).commFail = s.commFail := rfl
@[simp] theorem transmitText_eFail (text : List Byte) (s : State) : (transmitText text s).eFail = s.eFail := rfl
@[simp] theorem transmitText_vFail (text : List Byte) (s : State) : (transmitText text s).vFail = s.vFail := rfl
@[simp] theorem transmitText_pFail (text : List Byte) (s : State) : (transmitText text s).pFail = s.pFail := rfl
@[simp] theorem transmitText_crc (text : List Byte) (s : State) : (transmitText text s).crc = s.crc := rfl
@[simp] theorem transmitText_lock (text : List Byte) (s : State) : (transmitText text s).lock = s.lock := rfl
@[simp] theorem transmitText_pAddr (text : List Byte) (s : State) : (transmitText text s).pAddr = s.pAddr := rfl
@[simp] theorem transmitText_pIdx (text : List Byte) (s : State) : (transmitText text s).pIdx = s.pIdx := rfl
@[simp] theorem transmitText_nvm (text : List Byte) (s : State) : (transmitText text s).nvm = s.nvm := rfl
@[simp] theorem transmitText_pos (text : List Byte) (s : State) : (transmitText text s).pos = s.pos := rfl
@[simp] theorem transmitText_cfg (text : List Byte) (s : State) : (transmitText text s).cfg = s.cfg := rfl

/-! ### validate -/

@[simp] theorem validate_seq (seqB cmpB : Byte) (payload : List Byte) (rxCrc : CrcWord) (expected : Byte) (s : State) : (validate seqB cmpB payload rxCrc expected s).seq = s.seq := rfl
@[simp] theorem validate_cursor (seqB cmpB : Byte) (payload : List Byte) (rxCrc : CrcWord) (expected : Byte) (s : State) : (validate seqB cmpB payload rxCrc expected s).cursor = s.cursor := rfl
@[simp] theorem validate_erased (seqB cmpB : Byte) (payload : List Byte) (rxCrc : CrcWord) (expected : Byte) (s : State) : (validate seqB cmpB payload rxCrc expected s).erased = s.erased := rfl
@[simp] theorem validate_errCnt (seqB cmpB : Byte) (payload : List Byte) (rxCrc : CrcWord) (expected : Byte) (s : State) : (validate seqB cmpB payload rxCrc expected s).errCnt = s.errCnt := rfl
@[simp] theorem validate_state (seqB cmpB : Byte) (payload : List Byte) (rxCrc : CrcWord) (expected : Byte) (s : State) : (validate seqB cmpB payload rxCrc expected s).state = s.state := rfl
@[simp] theorem validate_hdrKind (seqB cmpB : Byte) (payload : List Byte) (rxCrc : CrcWord) (expected : Byte) (s : State) : (validate seqB cmpB payload rxCrc expected s).hdrKind = s.hdrKind := rfl
@[simp] theorem validate_seqB (seqB cmpB : Byte) (payload : List Byte) (rxCrc : CrcWord) (expected : Byte) (s : State) : (validate seqB cmpB payload rxCrc expected s).seqB = s.seqB := rfl
@[simp] theorem validate_cmpB (seqB cmpB : Byte) (payload : List Byte) (rxCrc : CrcWord) (expected : Byte) (s : State) : (validate seqB cmpB payload rxCrc expected s).cmpB = s.cmpB := rfl
@[simp] theorem validate_payload (seqB cmpB : Byte) (payload : List Byte) (rxCrc : CrcWord) (expected : Byte) (s : State) : (validate seqB cmpB payload rxCrc expected s).payload = s.payload := rfl
@[simp] theorem validate_rxCrc (seqB cmpB : Byte) (payload : List Byte) (rxCrc : CrcWord) (expected : Byte) (s : State) : (validate seqB cmpB payload rxCrc expected s).rxCrc = s.rxCrc := rfl
@[simp] theorem validate_commFail (seqB cmpB : Byte) (payload : List Byte) (rxCrc : CrcWord) (expected : Byte) (s : State) : (validate seqB cmpB payload rxCrc expected s).commFail = s.commFail := rfl
@[simp] theorem validate_eFail (seqB cmpB : Byte) (payload : List Byte) (rxCrc : CrcWord) (expected : Byte) (s : State) : (validate seqB cmpB payload rxCrc expected s).eFail = s.eFail := rfl
@[simp] theorem validate_pFail (seqB cmpB : Byte) (payload : List Byte) (rxCrc : CrcWord) (expected : Byte) (s : State) : (validate seqB cmpB payload rxCrc expected s).pFail = s.pFail := rfl
@[simp] theorem validate_lock (seqB cmpB : Byte) (payload : List Byte) (rxCrc : CrcWord) (expected : Byte) (s : State) : (validate seqB cmpB payload rxCrc expected s).lock = s.lock := rfl
@[simp] theorem validate_pAddr (seqB cmpB : Byte) (payload : List Byte) (rxCrc : CrcWord) (expected : Byte) (s : State) : (validate seqB cmpB payload rxCrc expected s).pAddr = s.pAddr := rfl
@[simp] theorem validate_pIdx (seqB cmpB : Byte) (payload : List Byte) (rxCrc : CrcWord) (expected : Byte) (s : State) : (validate seqB cmpB payload rxCrc expected s).pIdx = s.pIdx := rfl
@[simp] theorem validate_nvm (seqB cmpB : Byte) (payload : List Byte) (rxCrc : CrcWord) (expected : Byte) (s : State) : (validate seqB cmpB payload rxCrc expected s).nvm = s.nvm := rfl
@[simp] theorem validate_pos (seqB cmpB : Byte) (payload : List Byte) (rxCrc : CrcWord) (expected : Byte) (s : State) : (validate seqB cmpB payload rxCrc expected s).pos = s.pos := rfl
@[simp] theorem validate_ret (seqB cmpB : Byte) (payload : List Byte) (rxCrc : CrcWord) (expected : Byte) (s : State) : (validate seqB cmpB payload rxCrc expected s).ret = s.ret := rfl
@[simp] theorem validate_trace (seqB cmpB : Byte) (payload : List Byte) (rxCrc : CrcWord) (expected : Byte) (s : State) : (validate seqB cmpB payload rxCrc expected s).trace = s.trace := rfl
@[simp] theorem validate_free (seqB cmpB : Byte) (payload : List Byte) (rxCrc : CrcWord) (expected : Byte) (s : State) : (validate seqB cmpB payload rxCrc expected s).free = s.free := rfl
@[simp] theorem validate_env (seqB cmpB : Byte) (payload : List Byte) (rxCrc : CrcWord) (expected : Byte) (s : State) : (validate seqB cmpB payload rxCrc expected s).env = s.env := rfl
@[simp] theorem validate_cfg (seqB cmpB : Byte) (payload : List Byte) (rxCrc : CrcWord) (expected : Byte) (s : State) : (validate seqB cmpB payload rxCrc expected s).cfg = s.cfg := rfl

/-! ### readHeader -/

@[simp] theorem readHeader_seq (s : State) : (readHeader s).seq = s.seq := rfl
@[simp] theorem readHeader_cursor (s : State) : (readHeader s).cursor = s.cursor := rfl
@[simp] theorem readHeader_erased (s : State) : (readHeader s).erased = s.erased := rfl
@[simp] theorem readHeader_errCnt (s : State) : (readHeader s).errCnt = s.errCnt := rfl
@[simp] theorem readHeader_state (s : State) : (readHeader s).state = s.state := rfl
@[simp] theorem readHeader_seqB (s : State) : (readHeader s).seqB = s.seqB := rfl
@[simp] theorem readHeader_cmpB (s : State) : (readHeader s).cmpB = s.cmpB := rfl
@[simp] theorem readHeader_payload (s : State) : (readHeader s).payload = s.payload := rfl
@[simp] theorem readHeader_rxCrc (s : State) : (readHeader s).rxCrc = s.rxCrc := rfl
@[simp] theorem readHeader_commFail (s : State) : (readHeader s).commFail = s.commFail := rfl
@[simp] theorem readHeader_eFail (s : State) : (readHeader s).eFail = s.eFail := rfl
@[simp] theorem readHeader_vFail (s : State) : (readHeader s).vFail = s.vFail := rfl
@[simp] theorem readHeader_pFail (s : State) : (readHeader s).pFail = s.pFail := rfl
@[simp] theorem readHeader_crc (s : State) : (readHeader s).crc = s.crc := rfl
@[simp] theorem readHeader_lock (s : State) : (readHeader s).lock = s.lock := rfl
@[simp] theorem readHeader_pAddr (s : State) : (readHeader s).pAddr = s.pAddr := rfl
@[simp] theorem readHeader_pIdx (s : State) : (readHeader s).pIdx = s.pIdx := rfl
@[simp] theorem readHeader_nvm (s : State) : (readHeader s).nvm = s.nvm := rfl
@[simp] theorem readHeader_pos (s : State) : (readHeader s).pos = s.pos := rfl
@[simp] theorem readHeader_cfg (s : State) : (readHeader s).cfg = s.cfg := rfl

/-! ### validatePacket -/

@[simp] theorem validatePacket_seq (n : Nat) (s : State) : (validatePacket n s).seq = s.seq := rfl
@[simp] theorem validatePacket_cursor (n : Nat) (s : State) : (validatePacket n s).cursor = s.cursor := rfl
@[simp] theorem validatePacket_erased (n : Nat) (s : State) : (validatePacket n s).erased = s.erased := rfl
@[simp] theorem validatePacket_errCnt (n : Nat) (s : State) : (validatePacket n s).errCnt = s.errCnt := rfl
@[simp] theorem validatePacket_state (n : Nat) (s : State) : (validatePacket n s).state = s.state := rfl
@[simp] theorem validatePacket_hdrKind (n : Nat) (s : State) : (validatePacket n s).hdrKind = s.hdrKind := rfl
@[simp] theorem validatePacket_seqB (n : Nat) (s : State) : (validatePacket n s).seqB = s.seqB := rfl
@[simp] theorem validatePacket_cmpB (n : Nat) (s : State) : (validatePacket n s).cmpB = s.cmpB := rfl
@[simp] theorem validatePacket_payload (n : Nat) (s : State) : (validatePacket n s).payload = s.payload := rfl
@[simp] theorem validatePacket_rxCrc (n : Nat) (s : State) : (validatePacket n s).rxCrc = s.rxCrc := rfl
@[simp] theorem validatePacket_commFail (n : Nat) (s : State) : (validatePacket n s).commFail = s.commFail := rfl
@[simp] theorem validatePacket_eFail (n : Nat) (s : State) : (validatePacket n s).eFail = s.eFail := rfl
@[simp] theorem validatePacket_pFail (n : Nat) (s : State) : (validatePacket n s).pFail = s.pFail := rfl
@[simp] theorem validatePacket_lock (n : Nat) (s : State) : (validatePacket n s).lock = s.lock := rfl
@[simp] theorem validatePacket_pAddr (n : Nat) (s : State) : (validatePacket n s).pAddr = s.pAddr := rfl
@[simp] theorem validatePacket_pIdx (n : Nat) (s : State) : (validatePacket n s).pIdx = s.pIdx := rfl
@[simp] theorem validatePacket_nvm (n : Nat) (s : State) : (validatePacket n s).nvm = s.nvm := rfl
@[simp] theorem validatePacket_pos (n : Nat) (s : State) : (validatePacket n s).pos = s.pos := rfl
@[simp] theorem validatePacket_ret (n : Nat) (s : State) : (validatePacket n s).ret = s.ret := rfl
@[simp] theorem validatePacket_trace (n : Nat) (s : State) : (validatePacket n s).trace = s.trace := rfl
@[simp] theorem validatePacket_free (n : Nat) (s : State) : (validatePacket n s).free = s.free := rfl
@[simp] theorem validatePacket_env (n : Nat) (s : State) : (validatePacket n s).env = s.env := rfl
@[simp] theorem validatePacket_cfg (n : Nat) (s : State) : (validatePacket n s).cfg = s.cfg := rfl

/-! ### takeSeqB -/

@[simp] theorem takeSeqB_seq (t : State) : (takeSeqB t).seq = t.seq := by unfold takeSeqB; split <;> rfl
@[simp] theorem takeSeqB_cursor (t : State) : (takeSeqB t).cursor = t.cursor := by unfold takeSeqB; split <;> rfl
@[simp] theorem takeSeqB_erased (t : State) : (takeSeqB t).erased = t.erased := by unfold takeSeqB; split <;> rfl
@[simp] theorem takeSeqB_errCnt (t : State) : (takeSeqB t).errCnt = t.errCnt := by unfold takeSeqB; split <;> rfl
@[simp] theorem takeSeqB_state (t : State) : (takeSeqB t).state = t.state := by unfold takeSeqB; split <;> rfl
@[simp] theorem takeSeqB_hdrKind (t : State) : (takeSeqB t).hdrKind = t.hdrKind := by unfold takeSeqB; split <;> rfl
@[simp] theorem takeSeqB_cmpB (t : State) : (takeSeqB t).cmpB = t.cmpB := by unfold takeSeqB; split <;> rfl
@[simp] theorem takeSeqB_payload (t : State) : (takeSeqB t).payload = t.payload := by unfold takeSeqB; split <;> rfl
@[simp] theorem takeSeqB_rxCrc (t : State) : (takeSeqB t).rxCrc = t.rxCrc := by unfold takeSeqB; split <;> rfl
@[simp] theorem takeSeqB_eFail (t : State) : (takeSeqB t).eFail = t.eFail := by unfold takeSeqB; split <;> rfl
@[simp] theorem takeSeqB_vFail (t : State) : (takeSeqB t).vFail = t.vFail := by unfold takeSeqB; split <;> rfl
@[simp] theorem takeSeqB_pFail (t : State) : (takeSeqB t).pFail = t.pFail := by unfold takeSeqB; split <;> rfl
@[simp] theorem takeSeqB_crc (t : State) : (takeSeqB t).crc = t.crc := by unfold takeSeqB; split <;> rfl
@[simp] theorem takeSeqB_lock (t : State) : (takeSeqB t).lock = t.lock := by unfold takeSeqB; split <;> rfl
@[simp] theorem takeSeqB_pAddr (t : State) : (takeSeqB t).pAddr = t.pAddr := by unfold takeSeqB; split <;> rfl
@[simp] theorem takeSeqB_pIdx (t : State) : (takeSeqB t).pIdx = t.pIdx := by unfold takeSeqB; split <;> rfl
@[simp] theorem takeSeqB_nvm (t : State) : (takeSeqB t).nvm = t.nvm := by unfold takeSeqB; split <;> rfl
@[simp] theorem takeSeqB_pos (t : State) : (takeSeqB t).pos = t.pos := by unfold takeSeqB; split <;> rfl
@[simp] theorem takeSeqB_ret (t : State) : (takeSeqB t).ret = t.ret := by unfold takeSeqB; split <;> rfl
@[simp] theorem takeSeqB_trace (t : State) : (takeSeqB t).trace = t.trace := by unfold takeSeqB; split <;> rfl
@[simp] theorem takeSeqB_env (t : State) : (takeSeqB t).env = t.env := by unfold takeSeqB; split <;> rfl
@[simp] theorem takeSeqB_cfg (t : State) : (takeSeqB t).cfg = t.cfg := by unfold takeSeqB; split <;> rfl

/-! ### takeCmpB -/

@[simp] theorem takeCmpB_seq (t : State) : (takeCmpB t).seq = t.seq := by unfold takeCmpB; split <;> rfl
@[simp] theorem takeCmpB_cursor (t : State) : (takeCmpB t).cursor = t.cursor := by unfold takeCmpB; split <;> rfl
@[simp] theorem takeCmpB_erased (t : State) : (takeCmpB t).erased = t.erased := by unfold takeCmpB; split <;> rfl
@[simp] theorem takeCmpB_errCnt (t : State) : (takeCmpB t).errCnt = t.errCnt := by unfold takeCmpB; split <;> rfl
@[simp] theorem takeCmpB_state (t : State) : (takeCmpB t).state = t.state := by unfold takeCmpB; split <;> rfl
@[simp] theorem takeCmpB_hdrKind (t : State) : (takeCmpB t).hdrKind = t.hdrKind := by unfold takeCmpB; split <;> rfl
@[simp] theorem takeCmpB_seqB (t : State) : (takeCmpB t).seqB = t.seqB := by unfold takeCmpB; split <;> rfl
@[simp] theorem takeCmpB_payload (t : State) : (takeCmpB t).payload = t.payload := by unfold takeCmpB; split <;> rfl
@[simp] theorem takeCmpB_rxCrc (t : State) : (takeCmpB t).rxCrc = t.rxCrc := by unfold takeCmpB; split <;> rfl
@[simp] theorem takeCmpB_eFail (t : State) : (takeCmpB t).eFail = t.eFail := by unfold takeCmpB; split <;> rfl
@[simp] theorem takeCmpB_vFail (t : State) : (takeCmpB t).vFail = t.vFail := by unfold takeCmpB; split <;> rfl
@[simp] theorem takeCmpB_pFail (t : State) : (takeCmpB t).pFail = t.pFail := by unfold takeCmpB; split <;> rfl
@[simp] theorem takeCmpB_crc (t : State) : (takeCmpB t).crc = t.crc := by unfold takeCmpB; split <;> rfl
@[simp] theorem takeCmpB_lock (t : State) : (takeCmpB t).lock = t.lock := by unfold takeCmpB; split <;> rfl
@[simp] theorem takeCmpB_pAddr (t : State) : (takeCmpB t).pAddr = t.pAddr := by unfold takeCmpB; split <;> rfl
@[simp] theorem takeCmpB_pIdx (t : State) : (takeCmpB t).pIdx = t.pIdx := by unfold takeCmpB; split <;> rfl
@[simp] theorem takeCmpB_nvm (t : State) : (takeCmpB t).nvm = t.nvm := by unfold takeCmpB; split <;> rfl
@[simp] theorem takeCmpB_pos (t : State) : (takeCmpB t).pos = t.pos := by unfold takeCmpB; split <;> rfl
@[simp] theorem takeCmpB_ret (t : State) : (takeCmpB t).ret = t.ret := by unfold takeCmpB; split <;> rfl
@[simp] theorem takeCmpB_trace (t : State) : (takeCmpB t).trace = t.trace := by unfold takeCmpB; split <;> rfl
@[simp] theorem takeCmpB_env (t : State) : (takeCmpB t).env = t.env := by unfold takeCmpB; split <;> rfl
@[simp] theorem takeCmpB_cfg (t : State) : (takeCmpB t).cfg = t.cfg := by unfold takeCmpB; split <;> rfl

/-! ### takePayload -/

@[simp] theorem takePayload_seq (t : State) : (takePayload t).seq = t.seq := by unfold takePayload; split <;> rfl
@[simp] theorem takePayload_cursor (t : State) : (takePayload t).cursor = t.cursor := by unfold takePayload; split <;> rfl
@[simp] theorem takePayload_erased (t : State) : (takePayload t).erased = t.erased := by unfold takePayload; split <;> rfl
@[simp] theorem takePayload_errCnt (t : State) : (takePayload t).errCnt = t.errCnt := by unfold takePayload; split <;> rfl
@[simp] theorem takePayload_state (t : State) : (takePayload t).state = t.state := by unfold takePayload; split <;> rfl
@[simp] theorem takePayload_hdrKind (t : State) : (takePayload t).hdrKind = t.hdrKind := by unfold takePayload; split <;> rfl
@[simp] theorem takePayload_seqB (t : State) : (takePayload t).seqB = t.seqB := by unfold takePayload; split <;> rfl
@[simp] theorem takePayload_cmpB (t : State) : (takePayload t).cmpB = t.cmpB := by unfold takePayload; split <;> rfl
@[simp] theorem takePayload_rxCrc (t : State) : (takePayload t).rxCrc = t.rxCrc := by unfold takePayload; split <;> rfl
@[simp] theorem takePayload_eFail (t : State) : (takePayload t).eFail = t.eFail := by unfold takePayload; split <;> rfl
@[simp] theorem takePayload_vFail (t : State) : (takePayload t).vFail = t.vFail := by unfold takePayload; split <;> rfl
@[simp] theorem takePayload_pFail (t : State) : (takePayload t).pFail = t.pFail := by unfold takePayload; split <;> rfl
@[simp] theorem takePayload_crc (t : State) : (takePayload t).crc = t.crc := by unfold takePayload; split <;> rfl
@[simp] theorem takePayload_lock (t : State) : (takePayload t).lock = t.lock := by unfold takePayload; split <;> rfl
@[simp] theorem takePayload_pAddr (t : State) : (takePayload t).pAddr = t.pAddr := by unfold takePayload; split <;> rfl
@[simp] theorem takePayload_pIdx (t : State) : (takePayload t).pIdx = t.pIdx := by unfold takePayload; split <;> rfl
@[simp] theorem takePayload_nvm (t : State) : (takePayload t).nvm = t.nvm := by unfold takePayload; split <;> rfl
@[simp] theorem takePayload_pos (t : State) : (takePayload t).pos = t.pos := by unfold takePayload; split <;> rfl
@[simp] theorem takePayload_ret (t : State) : (takePayload t).ret = t.ret := by unfold takePayload; split <;> rfl
@[simp] theorem takePayload_trace (t : State) : (takePayload t).trace = t.trace := by unfold takePayload; split <;> rfl
@[simp] theorem takePayload_env (t : State) : (takePayload t).env = t.env := by unfold takePayload; split <;> rfl
@[simp] theorem takePayload_cfg (t : State) : (takePayload t).cfg = t.cfg := by unfold takePayload; split <;> rfl

/-! ### takeCrc -/

@[simp] theorem takeCrc_seq (t : State) : (takeCrc t).seq = t.seq := by unfold takeCrc; split <;> rfl
@[simp] theorem takeCrc_cursor (t : State) : (takeCrc t).cursor = t.cursor := by unfold takeCrc; split <;> rfl
@[simp] theorem takeCrc_erased (t : State) : (takeCrc t).erased = t.erased := by unfold takeCrc; split <;> rfl
@[simp] theorem takeCrc_errCnt (t : State) : (takeCrc t).errCnt = t.errCnt := by unfold takeCrc; split <;> rfl
@[simp] theorem takeCrc_state (t : State) : (takeCrc t).state = t.state := by unfold takeCrc; split <;> rfl
@[simp] theorem takeCrc_hdrKind (t : State) : (takeCrc t).hdrKind = t.hdrKind := by unfold takeCrc; split <;> rfl
@[simp] theorem takeCrc_seqB (t : State) : (takeCrc t).seqB = t.seqB := by unfold takeCrc; split <;> rfl
@[simp] theorem takeCrc_cmpB (t : State) : (takeCrc t).cmpB = t.cmpB := by unfold takeCrc; split <;> rfl
@[simp] theorem takeCrc_payload (t : State) : (takeCrc t).payload = t.payload := by unfold takeCrc; split <;> rfl
@[simp] theorem takeCrc_eFail (t : State) : (takeCrc t).eFail = t.eFail := by unfold takeCrc; split <;> rfl
@[simp] theorem takeCrc_vFail (t : State) : (takeCrc t).vFail = t.vFail := by unfold takeCrc; split <;> rfl
@[simp] theorem takeCrc_pFail (t : State) : (takeCrc t).pFail = t.pFail := by unfold takeCrc; split <;> rfl
@[simp] theorem takeCrc_crc (t : State) : (takeCrc t).crc = t.crc := by unfold takeCrc; split <;> rfl
@[simp] theorem takeCrc_lock (t : State) : (takeCrc t).lock = t.lock := by unfold takeCrc; split <;> rfl
@[simp] theorem takeCrc_pAddr (t : State) : (takeCrc t).pAddr = t.pAddr := by unfold takeCrc; split <;> rfl
@[simp] theorem takeCrc_pIdx (t : State) : (takeCrc t).pIdx = t.pIdx := by unfold takeCrc; split <;> rfl
@[simp] theorem takeCrc_nvm (t : State) : (takeCrc t).nvm = t.nvm := by unfold takeCrc; split <;> rfl
@[simp] theorem takeCrc_pos (t : State) : (takeCrc t).pos = t.pos := by unfold takeCrc; split <;> rfl
@[simp] theorem takeCrc_ret (t : State) : (takeCrc t).ret = t.ret := by unfold takeCrc; split <;> rfl
@[simp] theorem takeCrc_trace (t : State) : (takeCrc t).trace = t.trace := by unfold takeCrc; split <;> rfl
@[simp] theorem takeCrc_env (t : State) : (takeCrc t).env = t.env := by unfold takeCrc; split <;> rfl
@[simp] theorem takeCrc_cfg (t : State) : (takeCrc t).cfg = t.cfg := by unfold takeCrc; split <;> rfl

/-! ### noteProgram -/

@[simp] theorem noteProgram_seq (s : State) : (noteProgram s).seq = s.seq := by unfold noteProgram; split <;> rfl
@[simp] theorem noteProgram_cursor (s : State) : (noteProgram s).cursor = s.cursor := by unfold noteProgram; split <;> rfl
@[simp] theorem noteProgram_erased (s : State) : (noteProgram s).erased = s.erased := by unfold noteProgram; split <;> rfl
@[simp] theorem noteProgram_errCnt (s : State) : (noteProgram s).errCnt = s.errCnt := by unfold noteProgram; split <;> rfl
@[simp] theorem noteProgram_state (s : State) : (noteProgram s).state = s.state := by unfold noteProgram; split <;> rfl
@[simp] theorem noteProgram_hdrKind (s : State) : (noteProgram s).hdrKind = s.hdrKind := by unfold noteProgram; split <;> rfl
@[simp] theorem noteProgram_seqB (s : State) : (noteProgram s).seqB = s.seqB := by unfold noteProgram; split <;> rfl
@[simp] theorem noteProgram_cmpB (s : State) : (noteProgram s).cmpB = s.cmpB := by unfold noteProgram; split <;> rfl
@[simp] theorem noteProgram_payload (s : State) : (noteProgram s).payload = s.payload := by unfold noteProgram; split <;> rfl
@[simp] theorem noteProgram_rxCrc (s : State) : (noteProgram s).rxCrc = s.rxCrc := by unfold noteProgram; split <;> rfl
@[simp] theorem noteProgram_commFail (s : State) : (noteProgram s).commFail = s.commFail := by unfold noteProgram; split <;> rfl
@[simp] theorem noteProgram_eFail (s : State) : (noteProgram s).eFail = s.eFail := by unfold noteProgram; split <;> rfl
@[simp] theorem noteProgram_vFail (s : State) : (noteProgram s).vFail = s.vFail := by unfold noteProgram; split <;> rfl
@[simp] theorem noteProgram_crc (s : State) : (noteProgram s).crc = s.crc := by unfold noteProgram; split <;> rfl
@[simp] theorem noteProgram_lock (s : State) : (noteProgram s).lock = s.lock := by unfold noteProgram; split <;> rfl
@[simp] theorem noteProgram_pAddr (s : State) : (noteProgram s).pAddr = s.pAddr := by unfold noteProgram; split <;> rfl
@[simp] theorem noteProgram_pIdx (s : State) : (noteProgram s).pIdx = s.pIdx := by unfold noteProgram; split <;> rfl
@[simp] theorem noteProgram_nvm (s : State) : (noteProgram s).nvm = s.nvm := by unfold noteProgram; split <;> rfl
@[simp] theorem noteProgram_pos (s : State) : (noteProgram s).pos = s.pos := by unfold noteProgram; split <;> rfl
@[simp] theorem noteProgram_ret (s : State) : (noteProgram s).ret = s.ret := by unfold noteProgram; split <;> rfl
@[simp] theorem noteProgram_trace (s : State) : (noteProgram s).trace = s.trace := by unfold noteProgram; split <;> rfl
@[simp] theorem noteProgram_free (s : State) : (noteProgram s).free = s.free := by unfold noteProgram; split <;> rfl
@[simp] theorem noteProgram_env (s : State) : (noteProgram s).env = s.env := by unfold noteProgram; split <;> rfl
@[simp] theorem noteProgram_cfg (s : State) : (noteProgram s).cfg = s.cfg := by unfold noteProgram; split <;> rfl

/-! ### noteErased -/

@[simp] theorem noteErased_seq (s : State) : (noteErased s).seq = s.seq := by unfold noteErased; split <;> rfl
@[simp] theorem noteErased_cursor (s : State) : (noteErased s).cursor = s.cursor := by unfold noteErased; split <;> rfl
@[simp] theorem noteErased_errCnt (s : State) : (noteErased s).errCnt = s.errCnt := by unfold noteErased; split <;> rfl
@[simp] theorem noteErased_state (s : State) : (noteErased s).state = s.state := by unfold noteErased; split <;> rfl
@[simp] theorem noteErased_hdrKind (s : State) : (noteErased s).hdrKind = s.hdrKind := by unfold noteErased; split <;> rfl
@[simp] theorem noteErased_seqB (s : State) : (noteErased s).seqB = s.seqB := by unfold noteErased; split <;> rfl
@[simp] theorem noteErased_cmpB (s : State) : (noteErased s).cmpB = s.cmpB := by unfold noteErased; split <;> rfl
@[simp] theorem noteErased_payload (s : State) : (noteErased s).payload = s.payload := by unfold noteErased; split <;> rfl
@[simp] theorem noteErased_rxCrc (s : State) : (noteErased s).rxCrc = s.rxCrc := by unfold noteErased; split <;> rfl
@[simp] theorem noteErased_commFail (s : State) : (noteErased s).commFail = s.commFail := by unfold noteErased; split <;> rfl
@[simp] theorem noteErased_eFail (s : State) : (noteErased s).eFail = s.eFail := by unfold noteErased; split <;> rfl
@[simp] theorem noteErased_vFail (s : State) : (noteErased s).vFail = s.vFail := by unfold noteErased; split <;> rfl
@[simp] theorem noteErased_pFail (s : State) : (noteErased s).pFail = s.pFail := by unfold noteErased; split <;> rfl
@[simp] theorem noteErased_crc (s : State) : (noteErased s).crc = s.crc := by unfold noteErased; split <;> rfl
@[simp] theorem noteErased_lock (s : State) : (noteErased s).lock = s.lock := by unfold noteErased; split <;> rfl
@[simp] theorem noteErased_pAddr (s : State) : (noteErased s).pAddr = s.pAddr := by unfold noteErased; split <;> rfl
@[simp] theorem noteErased_pIdx (s : State) : (noteErased s).pIdx = s.pIdx := by unfold noteErased; split <;> rfl
@[simp] theorem noteErased_nvm (s : State) : (noteErased s).nvm = s.nvm := by unfold noteErased; split <;> rfl
@[simp] theorem noteErased_pos (s : State) : (noteErased s).pos = s.pos := by unfold noteErased; split <;> rfl
@[simp] theorem noteErased_ret (s : State) : (noteErased s).ret = s.ret := by unfold noteErased; split <;> rfl
@[simp] theorem noteErased_trace (s : State) : (noteErased s).trace = s.trace := by unfold noteErased; split <;> rfl
@[simp] theorem noteErased_free (s : State) : (noteErased s).free = s.free := by unfold noteErased; split <;> rfl
@[simp] theorem noteErased_env (s : State) : (noteErased s).env = s.env := by unfold noteErased; split <;> rfl
@[simp] theorem noteErased_cfg (s : State) : (noteErased s).cfg = s.cfg := by unfold noteErased; split <;> rfl

/-! ### escalateIfFlash -/

@[simp] theorem escalateIfFlash_seq (s : State) : (escalateIfFlash s).seq = s.seq := by unfold escalateIfFlash; split <;> rfl
@[simp] theorem escalateIfFlash_cursor (s : State) : (escalateIfFlash s).cursor = s.cursor := by unfold escalateIfFlash; split <;> rfl
@[simp] theorem escalateIfFlash_erased (s : State) : (escalateIfFlash s).erased = s.erased := by unfold escalateIfFlash; split <;> rfl
@[simp] theorem escalateIfFlash_state (s : State) : (escalateIfFlash s).state = s.state := by unfold escalateIfFlash; split <;> rfl
@[simp] theorem escalateIfFlash_hdrKind (s : State) : (escalateIfFlash s).hdrKind = s.hdrKind := by unfold escalateIfFlash; split <;> rfl
@[simp] theorem escalateIfFlash_seqB (s : State) : (escalateIfFlash s).seqB = s.seqB := by unfold escalateIfFlash; split <;> rfl
@[simp] theorem escalateIfFlash_cmpB (s : State) : (escalateIfFlash s).cmpB = s.cmpB := by unfold escalateIfFlash; split <;> rfl
@[simp] theorem escalateIfFlash_payload (s : State) : (escalateIfFlash s).payload = s.payload := by unfold escalateIfFlash; split <;> rfl
@[simp] theorem escalateIfFlash_rxCrc (s : State) : (escalateIfFlash s).rxCrc = s.rxCrc := by unfold escalateIfFlash; split <;> rfl
@[simp] theorem escalateIfFlash_commFail (s : State) : (escalateIfFlash s).commFail = s.commFail := by unfold escalateIfFlash; split <;> rfl
@[simp] theorem escalateIfFlash_eFail (s : State) : (escalateIfFlash s).eFail = s.eFail := by unfold escalateIfFlash; split <;> rfl
@[simp] theorem escalateIfFlash_vFail (s : State) : (escalateIfFlash s).vFail = s.vFail := by unfold escalateIfFlash; split <;> rfl
@[simp] theorem escalateIfFlash_pFail (s : State) : (escalateIfFlash s).pFail = s.pFail := by unfold escalateIfFlash; split <;> rfl
@[simp] theorem escalateIfFlash_crc (s : State) : (escalateIfFlash s).crc = s.crc := by unfold escalateIfFlash; split <;> rfl
@[simp] theorem escalateIfFlash_lock (s : State) : (escalateIfFlash s).lock = s.lock := by unfold escalateIfFlash; split <;> rfl
@[simp] theorem escalateIfFlash_pAddr (s : State) : (escalateIfFlash s).pAddr = s.pAddr := by unfold escalateIfFlash; split <;> rfl
@[simp] theorem escalateIfFlash_pIdx (s : State) : (escalateIfFlash s).pIdx = s.pIdx := by unfold escalateIfFlash; split <;> rfl
@[simp] theorem escalateIfFlash_nvm (s : State) : (escalateIfFlash s).nvm = s.nvm := by unfold escalateIfFlash; split <;> rfl
@[simp] theorem escalateIfFlash_pos (s : State) : (escalateIfFlash s).pos = s.pos := by unfold escalateIfFlash; split <;> rfl
@[simp] theorem escalateIfFlash_ret (s : State) : (escalateIfFlash s).ret = s.ret := by unfold escalateIfFlash; split <;> rfl
@[simp] theorem escalateIfFlash_trace (s : State) : (escalateIfFlash s).trace = s.trace := by unfold escalateIfFlash; split <;> rfl
@[simp] theorem escalateIfFlash_free (s : State) : (escalateIfFlash s).free = s.free := by unfold escalateIfFlash; split <;> rfl
@[simp] theorem escalateIfFlash_env (s : State) : (escalateIfFlash s).env = s.env := by unfold escalateIfFlash; split <;> rfl
@[simp] theorem escalateIfFlash_cfg (s : State) : (escalateIfFlash s).cfg = s.cfg := by unfold escalateIfFlash; split <;> rfl

/-! ### tick -/

@[simp] theorem tick_seq (s : State) : (s.tick).seq = s.seq := rfl
@[simp] theorem tick_cursor (s : State) : (s.tick).cursor = s.cursor := rfl
@[simp] theorem tick_erased (s : State) : (s.tick).erased = s.erased := rfl
@[simp] theorem tick_errCnt (s : State) : (s.tick).errCnt = s.errCnt := rfl
@[simp] theorem tick_state (s : State) : (s.tick).state = s.state := rfl
@[simp] theorem tick_hdrKind (s : State) : (s.tick).hdrKind = s.hdrKind := rfl
@[simp] theorem tick_seqB (s : State) : (s.tick).seqB = s.seqB := rfl
@[simp] theorem tick_cmpB (s : State) : (s.tick).cmpB = s.cmpB := rfl
@[simp] theorem tick_payload (s : State) : (s.tick).payload = s.payload := rfl
@[simp] theorem tick_rxCrc (s : State) : (s.tick).rxCrc = s.rxCrc := rfl
@[simp] theorem tick_commFail (s : State) : (s.tick).commFail = s.commFail := rfl
@[simp] theorem tick_eFail (s : State) : (s.tick).eFail = s.eFail := rfl
@[simp] theorem tick_vFail (s : State) : (s.tick).vFail = s.vFail := rfl
@[simp] theorem tick_pFail (s : State) : (s.tick).pFail = s.pFail := rfl
@[simp] theorem tick_crc (s : State) : (s.tick).crc = s.crc := rfl
@[simp] theorem tick_lock (s : State) : (s.tick).lock = s.lock := rfl
@[simp] theorem tick_pAddr (s : State) : (s.tick).pAddr = s.pAddr := rfl
@[simp] theorem tick_pIdx (s : State) : (s.tick).pIdx = s.pIdx := rfl
@[simp] theorem tick_nvm (s : State) : (s.tick).nvm = s.nvm := rfl
@[simp] theorem tick_pos (s : State) : (s.tick).pos = s.pos := rfl
@[simp] theorem tick_ret (s : State) : (s.tick).ret = s.ret := rfl
@[simp] theorem tick_trace (s : State) : (s.tick).trace = s.trace := rfl
@[simp] theorem tick_free (s : State) : (s.tick).free = s.free := rfl
@[simp] theorem tick_cfg (s : State) : (s.tick).cfg = s.cfg := rfl

end Sys2Proof.Laws
end

