-- ==== Sys2Proof/Laws/Ops.lean ====
section
/-! SUPPORT. One lemma for each shared operation that says once what it can do: sequencing, what the environment's draws
give, the transport and memory primitives, the record of interactions, and the error-handler policy. -/

namespace Sys2Proof.Laws

open Sys2Proof Sys2Proof.Machine

/-! ### Sequencing and applicability -/

@[simp] theorem andThen_next (s : State) (k : State → Out) : andThen (.next s) k = k s := rfl
@[simp] theorem andThen_fault (r : Fault) (k : State → Out) : andThen (.fault r) k = .fault r := rfl
@[simp] theorem andThen_refused (r : Refusal) (k : State → Out) : andThen (.refused r) k = .refused r := rfl

theorem andThen_eq_next {o : Out} {k : State → Out} {t : State} (h : andThen o k = .next t) :
    ∃ s, o = .next s ∧ k s = .next t := by
  cases o with
  | next s => exact ⟨s, rfl, h⟩
  | fault r => cases h
  | refused r => cases h

theorem andThen_assoc (o : Out) (k l : State → Out) :
    andThen (andThen o k) l = andThen o fun s => andThen (k s) l := by
  cases o <;> rfl

theorem onlyIn_of {st : EngineState} {s : State} (k : State → Out) (h : s.state = st) : onlyIn st s k = k s := if_pos h

theorem onlyIn_refused {st : EngineState} {s : State} (k : State → Out) (h : s.state ≠ st) :
    onlyIn st s k = .refused .notApplicable := if_neg h

theorem onlyIn_eq_next {st : EngineState} {s t : State} {k : State → Out} (h : onlyIn st s k = .next t) :
    s.state = st ∧ k s = .next t := by
  unfold onlyIn at h
  split at h
  · exact ⟨‹_›, h⟩
  · cases h

theorem withPacketSize_of {s : State} {n : Nat} (k : Nat → State → Out) (h : s.packetSize = some n) :
    withPacketSize s k = k n s := by
  unfold withPacketSize; rw [h]

theorem withPacketSize_refused {s : State} (k : Nat → State → Out) (h : s.packetSize = none) :
    withPacketSize s k = .refused .notApplicable := by
  unfold withPacketSize; rw [h]

theorem withPacketSize_eq_next {s t : State} {k : Nat → State → Out} (h : withPacketSize s k = .next t) :
    ∃ n, s.packetSize = some n ∧ k n s = .next t := by
  cases hn : s.packetSize with
  | some n => exact ⟨n, rfl, withPacketSize_of k hn ▸ h⟩
  | none => rw [withPacketSize_refused k hn] at h; cases h

/-- A packet has 128 or 1024 payload bytes (R88). -/
theorem packetSize_cases {s : State} {n : Nat} (h : s.packetSize = some n) : n = 128 ∨ n = 1024 := by
  unfold State.packetSize payloadSize at h
  split at h <;> simp_all

/-! ### The record -/

@[simp] theorem sentBytes_cons (e : Event) (tr : List Event) : sentBytes (e :: tr) = sentBytes tr ++ e.sent := by
  simp [sentBytes]

@[simp] theorem memoryCalls_cons (e : Event) (tr : List Event) :
    memoryCalls (e :: tr) = memoryCalls tr + if e.isMemory then 1 else 0 := by
  simp [memoryCalls, List.countP_cons]

/-! ### What the line gives -/

theorem takeLine_bytes (bytes : List Byte) (rest : List LineItem) :
    takeLine bytes.length (bytes.map LineItem.byte ++ rest) = .full bytes rest := by
  induction bytes with
  | nil => cases rest <;> rfl
  | cons b bs ih => simp [takeLine, ih, Taken.cons]

theorem takeLine_quiet {n : Nat} {bytes : List Byte} (rest : List LineItem) (h : bytes.length < n) :
    takeLine n (bytes.map LineItem.byte ++ .quiet :: rest) = .silent rest := by
  induction bytes generalizing n with
  | nil =>
    cases n with
    | zero => simp at h
    | succ n => rfl
  | cons b bs ih =>
    cases n with
    | zero => simp at h
    | succ n => simp [takeLine, ih (by simpa using h), Taken.cons]

theorem takeLine_length (n : Nat) (line : List LineItem) :
    (∀ bs rest, takeLine n line = .full bs rest → bs.length = n) ∧
    (∀ bs, takeLine n line = .ended bs → bs.length ≤ n) := by
  induction n generalizing line with
  | zero => simp [takeLine]
  | succ n ih =>
    cases line with
    | nil => simp [takeLine]
    | cons x line =>
      cases x with
      | quiet => simp [takeLine]
      | byte b =>
        have := ih line
        simp only [takeLine]
        cases ht : takeLine n line with
        | full bs rest => simpa [Taken.cons] using this.1 _ _ ht
        | silent rest => simp [Taken.cons]
        | ended bs => simpa [Taken.cons] using this.2 _ ht

/-- An answer `ok` carries exactly the bytes asked for (R171). -/
theorem drawReceive_length {n k : Nat} {line : List LineItem} {bytes : List Byte}
    (h : (drawReceive n line k).answer = .ok bytes) : bytes.length = n := by
  have hl := takeLine_length n line
  unfold drawReceive at h
  split at h
  · rename_i bs rest ht
    cases h
    exact hl.1 _ _ ht
  · cases h
  · rename_i bs ht
    simp only at h
    split at h
    · cases h
      have := hl.2 _ ht
      simp [freeBytes]
      omega
    · cases h

/-! ### Transport primitives -/

/-- `Receive` on a line that holds the bytes asked for (R171). -/
theorem receive_bytes {s : State} {n : Nat} {bytes : List Byte} {rest : List LineItem} (hn : bytes.length = n)
    (h : s.env.line = bytes.map LineItem.byte ++ rest) :
    receive n s = { s with
      env := { s.env with line := rest }
      trace := .receive n s.cfg.tRx (.ok bytes) :: s.trace
      ret := .received (.ok bytes) } := by
  subst hn
  simp [receive, drawReceive, h, takeLine_bytes, State.record]

/-- `Receive` when the host falls silent first (R174). -/
theorem receive_quiet {s : State} {n : Nat} {bytes : List Byte} {rest : List LineItem} (hn : bytes.length < n)
    (h : s.env.line = bytes.map LineItem.byte ++ .quiet :: rest) :
    receive n s = { s with
      env := { s.env with line := rest }
      trace := .receive n s.cfg.tRx .fail :: s.trace
      ret := .received .fail } := by
  simp [receive, drawReceive, h, takeLine_quiet rest hn, State.record]

/-- `Receive` whatever the line holds. -/
theorem receive_cases (n : Nat) (s : State) :
    ∃ a line free, (∀ bytes, a = .ok bytes → bytes.length = n) ∧
      receive n s = { s with
        env := { s.env with line := line }
        free := free
        trace := .receive n s.cfg.tRx a :: s.trace
        ret := .received a } :=
  ⟨(drawReceive n s.env.line s.free).answer, (drawReceive n s.env.line s.free).line,
    (drawReceive n s.env.line s.free).free, fun _ h => drawReceive_length h, rfl⟩

/-- `Transmit`: an answer, the bytes in the record, and no register (R172). -/
theorem transmit_cases (b : Byte) (s : State) :
    ∃ st left free, transmit b s = { s with
      env := { s.env with transmitAnswers := left }
      free := free
      trace := .transmit b st :: s.trace
      ret := .status st } :=
  ⟨_, _, _, rfl⟩

/-- `TransmitText`, likewise (R173). -/
theorem transmitText_cases (text : List Byte) (s : State) :
    ∃ st left free, transmitText text s = { s with
      env := { s.env with textAnswers := left }
      free := free
      trace := .transmitText text st :: s.trace
      ret := .status st } :=
  ⟨_, _, _, rfl⟩

@[simp] theorem transmit_sends (b : Byte) (s : State) :
    sentBytes (transmit b s).trace = sentBytes s.trace ++ [b] := by
  obtain ⟨st, l, f, h⟩ := transmit_cases b s; rw [h]; simp [Event.sent]

@[simp] theorem transmitText_sends (text : List Byte) (s : State) :
    sentBytes (transmitText text s).trace = sentBytes s.trace ++ text := by
  obtain ⟨st, l, f, h⟩ := transmitText_cases text s; rw [h]; simp [Event.sent]

@[simp] theorem transmit_memoryCalls (b : Byte) (s : State) :
    memoryCalls (transmit b s).trace = memoryCalls s.trace := by
  obtain ⟨st, l, f, h⟩ := transmit_cases b s; rw [h]; simp [Event.isMemory]

@[simp] theorem transmitText_memoryCalls (text : List Byte) (s : State) :
    memoryCalls (transmitText text s).trace = memoryCalls s.trace := by
  obtain ⟨st, l, f, h⟩ := transmitText_cases text s; rw [h]; simp [Event.isMemory]

@[simp] theorem receive_memoryCalls (n : Nat) (s : State) :
    memoryCalls (receive n s).trace = memoryCalls s.trace := by
  obtain ⟨a, l, f, _, h⟩ := receive_cases n s; rw [h]; simp [Event.isMemory]

@[simp] theorem receive_sends (n : Nat) (s : State) :
    sentBytes (receive n s).trace = sentBytes s.trace := by
  obtain ⟨a, l, f, _, h⟩ := receive_cases n s; rw [h]; simp [Event.sent]

/-! ### Memory primitives -/

@[simp] theorem bytes_length (w : NvmWord) : w.bytes.length = 4 := rfl

/-- `NvmErasePage` under its precondition (R54). -/
theorem nvmErasePage_completes {s : State} {a : Addr} (hl : s.lock = false) (ha : legalPage s.cfg a) :
    ∃ st page left free, page.length = s.cfg.pageSize ∧
      (st = .ok → page = List.replicate s.cfg.pageSize s.cfg.erasedByte) ∧
      (∀ answer rest, s.env.eraseAnswers = answer :: rest → st = answer ∧ left = rest) ∧
      nvmErasePage a s = .next { s with
        nvm := s.nvm.store a.toNat page
        env := { s.env with eraseAnswers := left }
        free := free
        trace := .nvmErasePage a st :: s.trace
        ret := .status st } := by
  unfold nvmErasePage
  rw [if_pos ⟨hl, ha⟩]
  refine ⟨_, _, _, _, ?_, ?_, ?_, rfl⟩
  · generalize drawStatus s.env.eraseAnswers s.free = d
    rcases d with ⟨st, l, f⟩
    cases st <;> simp [freeBytes]
  · intro h; rw [h]
  · intro answer rest h; simp [drawStatus, h]

/-- What a completed `NvmErasePage` was and did (R54, R58). -/
theorem nvmErasePage_inv {s t : State} {a : Addr} (h : nvmErasePage a s = .next t) :
    s.lock = false ∧ legalPage s.cfg a ∧ ∃ st page left free, page.length = s.cfg.pageSize ∧
      (st = .ok → page = List.replicate s.cfg.pageSize s.cfg.erasedByte) ∧
      t = { s with
        nvm := s.nvm.store a.toNat page
        env := { s.env with eraseAnswers := left }
        free := free
        trace := .nvmErasePage a st :: s.trace
        ret := .status st } := by
  by_cases hp : s.lock = false ∧ legalPage s.cfg a
  · obtain ⟨st, page, l, f, h1, h2, _, h3⟩ := nvmErasePage_completes hp.1 hp.2
    rw [h3] at h
    cases h
    exact ⟨hp.1, hp.2, st, page, l, f, h1, h2, rfl⟩
  · unfold nvmErasePage at h
    rw [if_neg hp] at h
    cases h

/-- `NvmProgramWord` under its precondition (R55). -/
theorem nvmProgramWord_completes {s : State} {a : Addr} (w : NvmWord) (hl : s.lock = false) (ha : legalWord s.cfg a) :
    ∃ st leaves left free,
      (∀ p rest, s.env.programAnswers = p :: rest → st = p.status ∧ leaves = p.leave.getD w ∧ left = rest) ∧
      nvmProgramWord a w s = .next { s with
        nvm := s.nvm.store a.toNat leaves.bytes
        env := { s.env with programAnswers := left }
        free := free
        trace := .nvmProgramWord a w st :: s.trace
        ret := .status st } := by
  unfold nvmProgramWord
  rw [if_pos ⟨hl, ha⟩]
  refine ⟨_, _, _, _, ?_, rfl⟩
  intro p rest h; simp [drawProgram, h]

/-- What a completed `NvmProgramWord` was and did (R55, R58). -/
theorem nvmProgramWord_inv {s t : State} {a : Addr} {w : NvmWord} (h : nvmProgramWord a w s = .next t) :
    s.lock = false ∧ legalWord s.cfg a ∧ ∃ st leaves left free,
      t = { s with
        nvm := s.nvm.store a.toNat (NvmWord.bytes leaves)
        env := { s.env with programAnswers := left }
        free := free
        trace := .nvmProgramWord a w st :: s.trace
        ret := .status st } := by
  by_cases hp : s.lock = false ∧ legalWord s.cfg a
  · obtain ⟨st, v, l, f, _, h3⟩ := nvmProgramWord_completes w hp.1 hp.2
    rw [h3] at h
    cases h
    exact ⟨hp.1, hp.2, st, v, l, f, rfl⟩
  · unfold nvmProgramWord at h
    rw [if_neg hp] at h
    cases h

/-- `NvmReadWord` under its precondition (R56). -/
theorem nvmReadWord_completes {s : State} {a : Addr} (ha : legalWord s.cfg a) :
    nvmReadWord a s = .next { s with
      trace := .nvmReadWord a (s.nvm.readWord a.toNat) :: s.trace
      ret := .word (s.nvm.readWord a.toNat) } := by
  unfold nvmReadWord
  rw [if_pos ha]
  rfl

/-- What a completed `NvmReadWord` was and did (R56, R58). -/
theorem nvmReadWord_inv {s t : State} {a : Addr} (h : nvmReadWord a s = .next t) :
    legalWord s.cfg a ∧ t = { s with
      trace := .nvmReadWord a (s.nvm.readWord a.toNat) :: s.trace
      ret := .word (s.nvm.readWord a.toNat) } := by
  by_cases hp : legalWord s.cfg a
  · rw [nvmReadWord_completes hp] at h
    cases h
    exact ⟨hp, rfl⟩
  · unfold nvmReadWord at h
    rw [if_neg hp] at h
    cases h

/-- A word that was stored reads back (R56, R61). -/
@[simp] theorem readWord_store (m : Memory) (a : Nat) (w : NvmWord) : (m.store a w.bytes).readWord a = w := by
  have h (i : Nat) (hi : i < w.bytes.length) := read_store_inside (m := m) (a := a) (bs := w.bytes) (i := i) hi
  have h0 := h 0 (by simp)
  have h1 := h 1 (by simp)
  have h2 := h 2 (by simp)
  have h3 := h 3 (by simp)
  simp only [Nat.add_zero] at h0
  unfold Memory.readWord
  rw [h0, h1, h2, h3]
  rfl

/-- A word outside the stored bytes reads as before (R57). -/
theorem readWord_store_outside {m : Memory} {a x : Nat} {bs : List Byte} (h : x + 4 ≤ a ∨ a + bs.length ≤ x) :
    (m.store a bs).readWord x = m.readWord x := by
  unfold Memory.readWord
  rw [read_store_outside, read_store_outside, read_store_outside, read_store_outside] <;> omega

/-- Equal words mean equal bytes, and conversely. -/
theorem readWord_eq {m : Memory} {x : Nat} {w : NvmWord} :
    m.readWord x = w ↔ m.read x = w.b0 ∧ m.read (x + 1) = w.b1 ∧ m.read (x + 2) = w.b2 ∧ m.read (x + 3) = w.b3 := by
  cases w
  simp [Memory.readWord]

/-- Reading alike byte by byte, words read alike. -/
theorem readWord_congr {m n : Memory} {x : Nat} (h : ∀ a, x ≤ a → a < x + 4 → m.read a = n.read a) :
    m.readWord x = n.readWord x := by
  unfold Memory.readWord
  rw [h x, h (x + 1), h (x + 2), h (x + 3)] <;> omega

/-! ### The error-handler policy -/

/-- The policy at the maximum (R205). -/
theorem errorHandler_aborts {s : State} (h : thresholdReached (countError s) = true) :
    ∃ (left : List Status × List Status) (free : Nat) (ret : Returned) (trace : List Event), errorHandler s = { s with
        errCnt := s.errCnt + 1
        env := { s.env with transmitAnswers := left.1, textAnswers := left.2 }
        free := free
        ret := ret
        trace := trace
        state := .terminalAbort
        pos := .start } ∧
      sentBytes trace = sentBytes s.trace ++ ([wireCan, wireCan] ++ s.cfg.noticeAbort) ∧
      memoryCalls trace = memoryCalls s.trace := by
  refine ⟨((errorHandler s).env.transmitAnswers, (errorHandler s).env.textAnswers), (errorHandler s).free,
    (errorHandler s).ret, (errorHandler s).trace, ?_, ?_, ?_⟩
  · unfold errorHandler; simp only [h, if_true]; rfl
  · unfold errorHandler; simp [h]
  · unfold errorHandler; simp [h]

/-- The policy below the maximum (R205, R239). -/
theorem errorHandler_returns {s : State} (h : thresholdReached (countError s) = false) :
    ∃ (left : List Status × List Status) (free : Nat) (ret : Returned) (trace : List Event), errorHandler s = { s with
        errCnt := s.errCnt + 1
        env := { s.env with transmitAnswers := left.1, textAnswers := left.2 }
        free := free
        ret := ret
        trace := trace
        state := .awaitHeader
        pos := .start } ∧
      sentBytes trace = sentBytes s.trace ++ [wireNak] ∧
      memoryCalls trace = memoryCalls s.trace := by
  refine ⟨((errorHandler s).env.transmitAnswers, (errorHandler s).env.textAnswers), (errorHandler s).free,
    (errorHandler s).ret, (errorHandler s).trace, ?_, ?_, ?_⟩
  · unfold errorHandler; simp only [h, Bool.false_eq_true, if_false]; rfl
  · unfold errorHandler; simp [h]
  · unfold errorHandler; simp [h]

/-! ### What the transport leaves of the environment -/

@[simp] theorem receive_resetIn (n : Nat) (s : State) : (receive n s).env.resetIn = s.env.resetIn := rfl
@[simp] theorem receive_invokes (n : Nat) (s : State) : (receive n s).env.invokes = s.env.invokes := rfl
@[simp] theorem receive_eraseAnswers (n : Nat) (s : State) : (receive n s).env.eraseAnswers = s.env.eraseAnswers := rfl
@[simp] theorem receive_programAnswers (n : Nat) (s : State) :
    (receive n s).env.programAnswers = s.env.programAnswers := rfl
@[simp] theorem receive_transmitAnswers (n : Nat) (s : State) :
    (receive n s).env.transmitAnswers = s.env.transmitAnswers := rfl
@[simp] theorem receive_textAnswers (n : Nat) (s : State) : (receive n s).env.textAnswers = s.env.textAnswers := rfl
@[simp] theorem transmit_line (b : Byte) (s : State) : (transmit b s).env.line = s.env.line := rfl
@[simp] theorem transmit_resetIn (b : Byte) (s : State) : (transmit b s).env.resetIn = s.env.resetIn := rfl
@[simp] theorem transmitText_line (text : List Byte) (s : State) : (transmitText text s).env.line = s.env.line := rfl
@[simp] theorem transmitText_resetIn (text : List Byte) (s : State) :
    (transmitText text s).env.resetIn = s.env.resetIn := rfl

end Sys2Proof.Laws
end

