-- ==== Sys2Proof/Laws/Programmer.lean ====
section
/-! SUPPORT. What the two loops of the Memory Programmer do, once and for every use: they complete from every state the
programmer starts them in, what they leave unchanged, what success means, and where they stop on each answer. -/

namespace Sys2Proof.Laws

open Sys2Proof Sys2Proof.Machine

/-! ### Frames of the two loops -/

/-- All that the loop of `ERASE` leaves unchanged, the array apart. -/
structure EraseFrame (s t : State) : Prop where
  session : sameSession s t
  control : sameControl s t
  packet : samePacket s t
  commFail : t.commFail = s.commFail
  vFail : t.vFail = s.vFail
  pFail : t.pFail = s.pFail
  crc : t.crc = s.crc
  lock : t.lock = s.lock
  cfg : t.cfg = s.cfg
  line : t.env.line = s.env.line
  programAnswers : t.env.programAnswers = s.env.programAnswers
  transmitAnswers : t.env.transmitAnswers = s.env.transmitAnswers
  textAnswers : t.env.textAnswers = s.env.textAnswers
  invokes : t.env.invokes = s.env.invokes
  resetIn : t.env.resetIn = s.env.resetIn
  sent : sentBytes t.trace = sentBytes s.trace
  wf : s.nvm.wf → t.nvm.wf

theorem EraseFrame.rfl' (s : State) : EraseFrame s s := by constructor <;> simp [sameSession, sameControl, samePacket]

theorem EraseFrame.trans {s t u : State} (h : EraseFrame s t) (k : EraseFrame t u) : EraseFrame s u where
  session := by simp only [sameSession, h.session, k.session, and_self]
  control := by simp only [sameControl, h.control, k.control, and_self]
  packet := by simp only [samePacket, h.packet, k.packet, and_self]
  commFail := k.commFail.trans h.commFail
  vFail := k.vFail.trans h.vFail
  pFail := k.pFail.trans h.pFail
  crc := k.crc.trans h.crc
  lock := k.lock.trans h.lock
  cfg := k.cfg.trans h.cfg
  line := k.line.trans h.line
  programAnswers := k.programAnswers.trans h.programAnswers
  transmitAnswers := k.transmitAnswers.trans h.transmitAnswers
  textAnswers := k.textAnswers.trans h.textAnswers
  invokes := k.invokes.trans h.invokes
  resetIn := k.resetIn.trans h.resetIn
  sent := k.sent.trans h.sent
  wf := fun hw => k.wf (h.wf hw)

/-- All that the loop of `WRITE` leaves unchanged, the array apart. -/
structure WriteFrame (s t : State) : Prop where
  session : sameSession s t
  control : sameControl s t
  packet : samePacket s t
  commFail : t.commFail = s.commFail
  vFail : t.vFail = s.vFail
  eFail : t.eFail = s.eFail
  crc : t.crc = s.crc
  lock : t.lock = s.lock
  cfg : t.cfg = s.cfg
  line : t.env.line = s.env.line
  eraseAnswers : t.env.eraseAnswers = s.env.eraseAnswers
  transmitAnswers : t.env.transmitAnswers = s.env.transmitAnswers
  textAnswers : t.env.textAnswers = s.env.textAnswers
  invokes : t.env.invokes = s.env.invokes
  resetIn : t.env.resetIn = s.env.resetIn
  sent : sentBytes t.trace = sentBytes s.trace
  wf : s.nvm.wf → t.nvm.wf

theorem WriteFrame.rfl' (s : State) : WriteFrame s s := by constructor <;> simp [sameSession, sameControl, samePacket]

theorem WriteFrame.trans {s t u : State} (h : WriteFrame s t) (k : WriteFrame t u) : WriteFrame s u where
  session := by simp only [sameSession, h.session, k.session, and_self]
  control := by simp only [sameControl, h.control, k.control, and_self]
  packet := by simp only [samePacket, h.packet, k.packet, and_self]
  commFail := k.commFail.trans h.commFail
  vFail := k.vFail.trans h.vFail
  eFail := k.eFail.trans h.eFail
  crc := k.crc.trans h.crc
  lock := k.lock.trans h.lock
  cfg := k.cfg.trans h.cfg
  line := k.line.trans h.line
  eraseAnswers := k.eraseAnswers.trans h.eraseAnswers
  transmitAnswers := k.transmitAnswers.trans h.transmitAnswers
  textAnswers := k.textAnswers.trans h.textAnswers
  invokes := k.invokes.trans h.invokes
  resetIn := k.resetIn.trans h.resetIn
  sent := k.sent.trans h.sent
  wf := fun hw => k.wf (h.wf hw)

/-! ### Pages -/

/-- From a legal operand the pages fill the region to its end exactly (R132). -/
theorem pages_exact {cfg : Config} {start : Addr} (hok : cfg.Ok) (hs : legalErase cfg start) :
    start.toNat + pageCount cfg start * cfg.pageSize = cfg.appEnd.toNat := by
  obtain ⟨h1, h2, h3, h4, h5, h6, h7, h8, h9⟩ := hok
  obtain ⟨e1, e2, e3⟩ := hs
  have h : (cfg.appEnd.toNat - start.toNat) % cfg.pageSize = 0 := by
    rw [← Nat.dvd_iff_mod_eq_zero] at *
    have := (Nat.dvd_sub h7 e3)
    rwa [show cfg.appEnd.toNat - cfg.appBase.toNat - (start.toNat - cfg.appBase.toNat) =
      cfg.appEnd.toNat - start.toNat by omega] at this
  unfold pageCount
  rw [Nat.div_mul_cancel (Nat.dvd_of_mod_eq_zero h)]
  omega

theorem pageAddress_toNat {cfg : Config} {start : Addr} {i : Nat} (hok : cfg.Ok) (hs : legalErase cfg start)
    (hi : i ≤ pageCount cfg start) : (pageAddress cfg start i).toNat = start.toNat + i * cfg.pageSize := by
  have h := pages_exact hok hs
  have := cfg.appEnd.isLt
  have : i * cfg.pageSize ≤ pageCount cfg start * cfg.pageSize := Nat.mul_le_mul_right _ hi
  simp only [pageAddress, BitVec.toNat_ofNat]
  omega

/-- Every page the loop visits meets the precondition of `NvmErasePage` (R54, R62). -/
theorem pageAddress_legal {cfg : Config} {start : Addr} {i : Nat} (hok : cfg.Ok) (hs : legalErase cfg start)
    (hi : i < pageCount cfg start) : legalPage cfg (pageAddress cfg start i) := by
  have h := pages_exact hok hs
  have e := pageAddress_toNat hok hs (Nat.le_of_lt hi)
  have : (i + 1) * cfg.pageSize ≤ pageCount cfg start * cfg.pageSize := Nat.mul_le_mul_right _ hi
  rw [Nat.add_mul, Nat.one_mul] at this
  obtain ⟨h1, h2, h3, h4, h5, h6, h7, h8, h9⟩ := hok
  obtain ⟨e1, e2, e3⟩ := hs
  refine ⟨by omega, by omega, ?_⟩
  rw [e, show start.toNat + i * cfg.pageSize - cfg.appBase.toNat =
    (start.toNat - cfg.appBase.toNat) + i * cfg.pageSize by omega, Nat.add_mul_mod_self_right]
  exact e3

theorem legalErase_base {cfg : Config} (hok : cfg.Ok) : legalErase cfg cfg.appBase :=
  ⟨Nat.le_refl _, Nat.le_of_lt hok.1, by simp⟩

/-! ### The loop of ERASE -/

/-- One page of the loop (R131, R133). -/
theorem erasePages_succ {s : State} {start : Addr} {k : Nat} (hok : s.cfg.Ok) (hs : legalErase s.cfg start)
    (hl : s.lock = false) (hi : s.pIdx < pageCount s.cfg start) :
    ∃ st page left free, page.length = s.cfg.pageSize ∧
      (st = .ok → page = List.replicate s.cfg.pageSize s.cfg.erasedByte) ∧
      (∀ answer rest, s.env.eraseAnswers = answer :: rest → st = answer ∧ left = rest) ∧
      erasePages start (k + 1) s =
        let t := { s with
          pAddr := pageAddress s.cfg start s.pIdx
          nvm := s.nvm.store (start.toNat + s.pIdx * s.cfg.pageSize) page
          env := { s.env with eraseAnswers := left }
          free := free
          trace := .nvmErasePage (pageAddress s.cfg start s.pIdx) st :: s.trace
          ret := .status st }
        if st = .fail then .next (noteEraseFailed t) else erasePages start k (nextPage t) := by
  have ha : legalPage (aimAtPage start s).cfg (aimAtPage start s).pAddr := pageAddress_legal hok hs hi
  obtain ⟨st, page, left, free, h1, h2, h3, h4⟩ :=
    nvmErasePage_completes (s := aimAtPage start s) (a := (aimAtPage start s).pAddr) hl ha
  refine ⟨st, page, left, free, h1, h2, h3, ?_⟩
  simp only [erasePages]
  rw [h4]
  simp only [andThen_next]
  have e := pageAddress_toNat hok hs (Nat.le_of_lt hi)
  simp only [aimAtPage_pAddr, e]
  cases st <;> rfl

/-- The whole loop of `ERASE` from page `PIDX` on (R131 to R134). -/
theorem erasePages_spec {start : Addr} (k : Nat) {s : State} (hok : s.cfg.Ok) (hs : legalErase s.cfg start)
    (hl : s.lock = false) (he : s.eFail = .empty) (hk : s.pIdx + k = pageCount s.cfg start) :
    ∃ t, erasePages start k s = .next t ∧ EraseFrame s t ∧ (t.eFail = .empty ∨ t.eFail = ⟨true⟩) ∧
      (t.eFail = .empty → ∀ a, start.toNat + s.pIdx * s.cfg.pageSize ≤ a → a < s.cfg.appEnd.toNat →
        t.nvm.read a = s.cfg.erasedByte) ∧
      (∀ a, a < start.toNat + s.pIdx * s.cfg.pageSize ∨ s.cfg.appEnd.toNat ≤ a → t.nvm.read a = s.nvm.read a) ∧
      (∀ rest, s.env.eraseAnswers = List.replicate k .ok ++ rest → t.eFail = .empty ∧ t.env.eraseAnswers = rest) ∧
      (∀ j rest, j < k → s.env.eraseAnswers = List.replicate j .ok ++ .fail :: rest →
        t.eFail = ⟨true⟩ ∧ t.env.eraseAnswers = rest ∧
        (∀ a, start.toNat + s.pIdx * s.cfg.pageSize ≤ a → a < start.toNat + (s.pIdx + j) * s.cfg.pageSize →
          t.nvm.read a = s.cfg.erasedByte) ∧
        ∀ a, start.toNat + (s.pIdx + j + 1) * s.cfg.pageSize ≤ a → t.nvm.read a = s.nvm.read a) := by
  induction k generalizing s with
  | zero =>
    refine ⟨s, rfl, .rfl' s, .inl he, ?_, fun _ _ => rfl, ?_, ?_⟩
    · intro _ a h1 h2
      have := pages_exact hok hs
      rw [← hk, Nat.add_zero] at this
      omega
    · intro rest h; exact ⟨he, by simpa using h⟩
    · intro j rest h; omega
  | succ k ih =>
    have hi : s.pIdx < pageCount s.cfg start := by omega
    obtain ⟨st, page, left, free, h1, h2, h3, h4⟩ := erasePages_succ (k := k) hok hs hl hi
    have hend : start.toNat + (s.pIdx + 1) * s.cfg.pageSize ≤ s.cfg.appEnd.toNat := by
      rw [← pages_exact hok hs]
      exact Nat.add_le_add_left (Nat.mul_le_mul_right _ hi) _
    have hmul : (s.pIdx + 1) * s.cfg.pageSize = s.pIdx * s.cfg.pageSize + s.cfg.pageSize := by ring
    rw [h4]
    cases st with
    | fail =>
      refine ⟨_, rfl, ?_, .inr rfl, ?_, ?_, ?_, ?_⟩
      · constructor <;> first | exact store_wf | simp [sameSession, sameControl, samePacket, Event.sent]
      · intro h; simp [EraseFailures.empty] at h
      · intro a ha
        exact read_store_outside (by rw [h1]; omega)
      · intro rest h
        have := (h3 .ok (List.replicate k .ok ++ rest) (by rw [h]; rfl)).1
        cases this
      · intro j rest hj h
        cases j with
        | zero =>
          obtain ⟨_, rfl⟩ := h3 .fail rest (by simpa using h)
          refine ⟨rfl, rfl, fun a h5 h6 => by simp at h6; omega, fun a h5 => ?_⟩
          exact read_store_outside (by rw [h1]; simp at h5; omega)
        | succ j =>
          have := (h3 .ok (List.replicate j .ok ++ .fail :: rest) (by rw [h]; rfl)).1
          cases this
    | ok =>
      simp only [reduceCtorEq, if_false]
      have hpage : ∀ a, start.toNat + s.pIdx * s.cfg.pageSize ≤ a →
          a < start.toNat + (s.pIdx + 1) * s.cfg.pageSize →
          (s.nvm.store (start.toNat + s.pIdx * s.cfg.pageSize) page).read a = s.cfg.erasedByte := by
        intro a h5 h6
        have h7 : a - (start.toNat + s.pIdx * s.cfg.pageSize) < page.length := by rw [h1]; omega
        have := read_store_inside (m := s.nvm) (a := start.toNat + s.pIdx * s.cfg.pageSize) h7
        rw [show start.toNat + s.pIdx * s.cfg.pageSize + (a - (start.toNat + s.pIdx * s.cfg.pageSize)) = a by omega]
          at this
        rw [this]
        simp [h2 rfl]
      have hout : ∀ a, a < start.toNat + s.pIdx * s.cfg.pageSize ∨
          start.toNat + (s.pIdx + 1) * s.cfg.pageSize ≤ a →
          (s.nvm.store (start.toNat + s.pIdx * s.cfg.pageSize) page).read a = s.nvm.read a := by
        intro a ha
        exact read_store_outside (by rw [h1]; omega)
      obtain ⟨t, r1, r2, r3, r4, r5, r6, r7⟩ := ih (s := nextPage { s with
          pAddr := pageAddress s.cfg start s.pIdx
          nvm := s.nvm.store (start.toNat + s.pIdx * s.cfg.pageSize) page
          env := { s.env with eraseAnswers := left }
          free := free
          trace := .nvmErasePage (pageAddress s.cfg start s.pIdx) .ok :: s.trace
          ret := .status .ok }) hok hs hl he (by simp; omega)
      simp only [nextPage_pIdx, nextPage_cfg, nextPage_nvm, nextPage_env] at r4 r5 r6 r7
      refine ⟨t, r1, .trans ?_ r2, r3, ?_, ?_, ?_, ?_⟩
      · constructor <;> first | exact store_wf | simp [sameSession, sameControl, samePacket, Event.sent]
      · intro h a h5 h6
        by_cases h7 : a < start.toNat + (s.pIdx + 1) * s.cfg.pageSize
        · rw [r5 a (.inl h7)]; exact hpage a h5 h7
        · exact r4 h a (by omega) h6
      · intro a ha
        rw [r5 a (by omega)]
        exact hout a (by omega)
      · intro rest h
        exact r6 rest (h3 .ok (List.replicate k .ok ++ rest) (by rw [h]; rfl)).2
      · intro j rest hj h
        cases j with
        | zero => have := (h3 .fail rest (by simpa using h)).1; cases this
        | succ j =>
          have hr := (h3 .ok (List.replicate j .ok ++ .fail :: rest) (by rw [h]; rfl)).2
          obtain ⟨q1, q2, q3, q4⟩ := r7 j rest (by omega) hr
          have hm : (s.pIdx + 1) * s.cfg.pageSize ≤ (s.pIdx + 1 + j) * s.cfg.pageSize :=
            Nat.mul_le_mul_right _ (by omega)
          have hm' : (s.pIdx + 1 + j) * s.cfg.pageSize ≤ (s.pIdx + 1 + j + 1) * s.cfg.pageSize :=
            Nat.mul_le_mul_right _ (by omega)
          rw [show s.pIdx + (j + 1) = s.pIdx + 1 + j by omega]
          refine ⟨q1, q2, fun a h5 h6 => ?_, fun a h5 => ?_⟩
          · by_cases h7 : a < start.toNat + (s.pIdx + 1) * s.cfg.pageSize
            · rw [r5 a (.inl h7)]; exact hpage a h5 h7
            · exact q3 a (by omega) h6
          · rw [q4 a h5]
            exact hout a (by omega)

/-! ### The loop of WRITE -/

/-- A word address below the end of the region meets the precondition of the word primitives (R136, R142). -/
theorem legalWord_of {cfg : Config} {a : Addr} (hok : cfg.Ok) (ha : legalWrite cfg a) (hlt : a.toNat < cfg.appEnd.toNat) :
    legalWord cfg a := by
  obtain ⟨h1, h2, h3, h4, h5, h6, h7, h8, h9⟩ := hok
  exact ⟨ha.2, by omega, ha.1⟩

theorem next_toNat {cfg : Config} {a : Addr} (hok : cfg.Ok) (ha : legalWrite cfg a) (hlt : a.toNat < cfg.appEnd.toNat) :
    (a + 4).toNat = a.toNat + 4 ∧ legalWrite cfg (a + 4) := by
  have := (legalWord_of hok ha hlt).2.1
  have := cfg.appEnd.isLt
  have e : (a + 4).toNat = a.toNat + 4 := by
    rw [BitVec.toNat_add]
    simp
    omega
  obtain ⟨h1, h2⟩ := ha
  exact ⟨e, by omega, by omega⟩

/-- The first word of the loop (R135 to R138). -/
theorem writeWords_cons {s : State} {w : NvmWord} {ws : List NvmWord} (hok : s.cfg.Ok) (hp : legalWrite s.cfg s.pAddr)
    (hl : s.lock = false) (hlt : s.pAddr.toNat < s.cfg.appEnd.toNat) :
    ∃ st leaves left free,
      (∀ p rest, s.env.programAnswers = p :: rest → st = p.status ∧ leaves = p.leave.getD w ∧ left = rest) ∧
      writeWords (w :: ws) s =
        let t := { s with
          nvm := s.nvm.store s.pAddr.toNat leaves.bytes
          pFail := if st = .fail then { s.pFail with writeFailed := true } else s.pFail
          env := { s.env with programAnswers := left }
          free := free
          trace := .nvmProgramWord s.pAddr w st :: s.trace
          ret := .status st }
        if st = .fail ∧ s.cfg.writeFailStops = true then .next t
        else
          let u := { t with
            trace := .nvmReadWord s.pAddr leaves :: t.trace
            ret := .word leaves }
          if leaves = w then writeWords ws (nextWord u) else .next (noteMismatch u) := by
  have hw := legalWord_of hok hp hlt
  obtain ⟨st, leaves, left, free, h1, h2⟩ := nvmProgramWord_completes (s := s) w hl hw
  refine ⟨st, leaves, left, free, h1, ?_⟩
  have hpast : pastEnd s = false := by simpa [pastEnd] using hlt
  simp only [writeWords, hpast, Bool.false_eq_true, if_false]
  rw [h2]
  simp only [andThen_next]
  have hr (t : State) (hc : t.cfg = s.cfg) (hn : t.nvm = s.nvm.store s.pAddr.toNat leaves.bytes) :
      nvmReadWord s.pAddr t = .next { t with trace := .nvmReadWord s.pAddr leaves :: t.trace, ret := .word leaves } := by
    rw [nvmReadWord_completes (hc ▸ hw), hn, readWord_store]
  cases st with
  | ok =>
    simp only [programStops, noteProgram, reportedFail, Returned.status?, reduceCtorEq,
      Bool.false_and, Bool.false_eq_true, if_false, false_and, show (some Status.ok == some Status.fail) = false from rfl]
    rw [hr]
    · simp [readBackEqual, Returned.word?]
    · rfl
    · rfl
  | fail =>
    simp only [programStops, noteProgram, reportedFail, Returned.status?, beq_self_eq_true, Bool.true_and, if_true,
      true_and]
    split
    · rfl
    · rw [hr]
      · simp [readBackEqual, Returned.word?]
      · rfl
      · rfl

/-- The bound check (R136). -/
theorem writeWords_past {s : State} {w : NvmWord} {ws : List NvmWord} (h : s.cfg.appEnd.toNat ≤ s.pAddr.toNat) :
    writeWords (w :: ws) s = .next (noteTooLarge s) := by
  have hpast : pastEnd s = true := by simpa [pastEnd] using h
  simp only [writeWords, hpast, if_true]

/-- The failure sets the loop can be in, or end with (R139). -/
abbrev WriteSets (stops : Bool) (p : WriteFailures) : Prop :=
  p = ⟨false, false, false⟩ ∨ p = ⟨true, false, false⟩ ∨ p = ⟨false, true, false⟩ ∨ p = ⟨false, false, true⟩ ∨
    (stops = false ∧ (p = ⟨false, true, true⟩ ∨ p = ⟨true, true, false⟩))

/-- The failure sets the loop goes on with (R137). -/
abbrev WriteGoesOn (stops : Bool) (p : WriteFailures) : Prop :=
  p = .empty ∨ (stops = false ∧ p = ⟨false, true, false⟩)

/-- The whole loop of `WRITE` from `PADDR` on (R135 to R140, R143). -/
theorem writeWords_spec (ws : List NvmWord) {s : State} (hok : s.cfg.Ok) (hp : legalWrite s.cfg s.pAddr)
    (hl : s.lock = false) (hf : WriteGoesOn s.cfg.writeFailStops s.pFail) :
    ∃ t, writeWords ws s = .next t ∧ WriteFrame s t ∧ WriteSets s.cfg.writeFailStops t.pFail ∧
      (t.pFail = .empty → s.pFail = .empty ∧ t.pAddr.toNat = s.pAddr.toNat + 4 * ws.length ∧
        t.pIdx = s.pIdx + ws.length ∧
        (ws ≠ [] → t.pAddr.toNat ≤ s.cfg.appEnd.toNat) ∧
        ∀ i w, ws[i]? = some w → t.nvm.readWord (s.pAddr.toNat + 4 * i) = w) ∧
      (∀ a, a < s.pAddr.toNat ∨ s.pAddr.toNat + 4 * ws.length ≤ a ∨ s.cfg.appEnd.toNat ≤ a →
        t.nvm.read a = s.nvm.read a) := by
  induction ws generalizing s with
  | nil =>
    refine ⟨s, rfl, .rfl' s, ?_, fun h => ⟨h, by simp, by simp, by simp, by simp⟩, fun _ _ => rfl⟩
    rcases hf with h | ⟨h1, h⟩
    · exact .inl h
    · rw [h]; simp [WriteSets]
  | cons w ws ih =>
    by_cases hlt : s.cfg.appEnd.toNat ≤ s.pAddr.toNat
    · refine ⟨_, writeWords_past hlt, ?_, ?_, ?_, fun _ _ => rfl⟩
      · constructor <;> simp [sameSession, sameControl, samePacket]
      · rcases hf with h | ⟨h1, h⟩ <;> simp [WriteSets, WriteFailures.empty, *]
      · intro h; simp [WriteFailures.empty] at h
    · have hlt : s.pAddr.toNat < s.cfg.appEnd.toNat := by omega
      have hw := legalWord_of hok hp hlt
      obtain ⟨hn1, hn2⟩ := next_toNat hok hp hlt
      obtain ⟨st, v, left, free, _, h2⟩ := writeWords_cons (ws := ws) (w := w) hok hp hl hlt
      have hout : ∀ a, a < s.pAddr.toNat ∨ s.pAddr.toNat + 4 * (w :: ws).length ≤ a ∨ s.cfg.appEnd.toNat ≤ a →
          (s.nvm.store s.pAddr.toNat v.bytes).read a = s.nvm.read a := by
        intro a ha
        refine read_store_outside ?_
        have := hw.2.1
        simp at ha ⊢
        omega
      rw [h2]
      dsimp only
      split
      · rename_i hst
        refine ⟨_, rfl, ?_, ?_, ?_, hout⟩
        · constructor <;> first | exact store_wf | simp [sameSession, sameControl, samePacket, Event.sent]
        · rcases hf with h | ⟨h1, h⟩ <;> simp [WriteSets, h, WriteFailures.empty, hst.1]
        · intro h; simp [hst.1, WriteFailures.empty] at h
      · rename_i hst
        split
        · rename_i hv
          subst hv
          obtain ⟨t, r1, r2, r3, r4, r5⟩ := ih (s := nextWord { s with
              nvm := s.nvm.store s.pAddr.toNat v.bytes
              pFail := if st = .fail then { s.pFail with writeFailed := true } else s.pFail
              env := { s.env with programAnswers := left }
              free := free
              trace := .nvmReadWord s.pAddr v :: .nvmProgramWord s.pAddr v st :: s.trace
              ret := .word v }) hok hn2 hl (by
            cases st with
            | ok => simpa using hf
            | fail =>
              have hs : s.cfg.writeFailStops = false := by simpa using hst
              rcases hf with h | ⟨h1, h⟩ <;> simp [WriteGoesOn, h, WriteFailures.empty, hs])
          simp only [nextWord_pAddr, nextWord_pFail, nextWord_pIdx, nextWord_cfg, nextWord_nvm, hn1] at r3 r4 r5
          refine ⟨t, r1, .trans ?_ r2, r3, ?_, ?_⟩
          · constructor <;> first | exact store_wf | simp [sameSession, sameControl, samePacket, Event.sent]
          · intro h
            obtain ⟨q1, q2, q3, q4, q5⟩ := r4 h
            have hs : s.pFail = .empty := by
              cases st with
              | ok => simpa using q1
              | fail => simp [WriteFailures.empty] at q1
            refine ⟨hs, by rw [q2, List.length_cons]; omega, by rw [q3, List.length_cons]; omega, fun _ => ?_, ?_⟩
            · by_cases hws : ws = []
              · subst hws
                have := hw.2.1
                simp at q2
                omega
              · exact q4 hws
            · intro i x hx
              cases i with
              | zero =>
                simp at hx
                subst hx
                rw [readWord_congr (n := s.nvm.store s.pAddr.toNat v.bytes)]
                · simp
                · intro a h5 h6
                  exact r5 a (.inl (by omega))
              | succ i =>
                rw [show s.pAddr.toNat + 4 * (i + 1) = s.pAddr.toNat + 4 + 4 * i by omega]
                exact q5 i x (by simpa using hx)
          · intro a ha
            rw [r5 a (by simp only [List.length_cons] at ha; omega)]
            exact hout a ha
        · refine ⟨_, rfl, ?_, ?_, ?_, hout⟩
          · constructor <;> first | exact store_wf | simp [sameSession, sameControl, samePacket, Event.sent]
          · cases st with
            | ok => rcases hf with h | ⟨h1, h⟩ <;> simp [WriteSets, WriteFailures.empty, *]
            | fail =>
              have hs : s.cfg.writeFailStops = false := by simpa using hst
              rcases hf with h | ⟨h1, h⟩ <;> simp [WriteSets, h, WriteFailures.empty, hs]
          · intro h; simp [WriteFailures.empty] at h

/-- The failure sets, from any state and configuration (R139). -/
theorem writeWords_sets (ws : List NvmWord) {s t : State} (hf : WriteGoesOn s.cfg.writeFailStops s.pFail)
    (h : writeWords ws s = .next t) : WriteSets s.cfg.writeFailStops t.pFail := by
  induction ws generalizing s with
  | nil =>
    cases h
    rcases hf with h | ⟨h1, h⟩
    · exact .inl h
    · rw [h]; simp [WriteSets]
  | cons w ws ih =>
    simp only [writeWords] at h
    split at h
    · cases h
      rcases hf with h | ⟨h1, h⟩ <;> simp [WriteSets, WriteFailures.empty, *]
    · obtain ⟨u, h1, h2⟩ := andThen_eq_next h
      obtain ⟨_, _, st, v, left, free, hu⟩ := nvmProgramWord_inv h1
      have hcfg : u.cfg = s.cfg := by rw [hu]
      have hp : (noteProgram u).pFail = if st = .fail then { s.pFail with writeFailed := true } else s.pFail := by
        rw [hu]; cases st <;> rfl
      have hs : programStops u = (decide (st = .fail) && s.cfg.writeFailStops) := by rw [hu]; cases st <;> rfl
      split at h2
      · rename_i hst
        rw [hs] at hst
        cases h2
        have hfail : st = .fail := by simp at hst; exact hst.1
        rw [hp, if_pos hfail]
        rcases hf with h | ⟨h1, h⟩ <;> simp [WriteSets, h, WriteFailures.empty]
      · have hg : WriteGoesOn s.cfg.writeFailStops (noteProgram u).pFail := by
          rw [hp]
          cases st with
          | ok => simpa using hf
          | fail =>
            have : s.cfg.writeFailStops = false := by simp_all
            rcases hf with h | ⟨h1, h⟩ <;> simp [WriteGoesOn, h, WriteFailures.empty, this]
        obtain ⟨r, h3, h4⟩ := andThen_eq_next h2
        obtain ⟨_, hr⟩ := nvmReadWord_inv h3
        have hrp : r.pFail = (noteProgram u).pFail := by rw [hr]
        have hrc : r.cfg = s.cfg := by rw [hr, noteProgram_cfg, hcfg]
        split at h4
        · have := ih (s := nextWord r) (by simpa [hrp, hrc] using hg) h4
          simpa [hrc] using this
        · cases h4
          simp only [noteMismatch_pFail, hrp]
          rcases hg with h | ⟨h1, h⟩ <;> rw [h] <;> simp [WriteSets, WriteFailures.empty, h1]

/-- The loop over its first words while they fit and are answered as intended (R135). -/
theorem writeWords_intended (m : Nat) {ws : List NvmWord} {s : State} {rest : List ProgramAnswer} (hok : s.cfg.Ok)
    (hp : legalWrite s.cfg s.pAddr) (hl : s.lock = false) (hm : m ≤ ws.length)
    (hfit : m ≠ 0 → s.pAddr.toNat + 4 * m ≤ s.cfg.appEnd.toNat)
    (ha : s.env.programAnswers = List.replicate m ⟨.ok, none⟩ ++ rest) :
    ∃ t, writeWords ws s = writeWords (ws.drop m) t ∧ WriteFrame s t ∧ t.pFail = s.pFail ∧
      t.pAddr.toNat = s.pAddr.toNat + 4 * m ∧ t.pIdx = s.pIdx + m ∧ legalWrite s.cfg t.pAddr ∧
      t.env.programAnswers = rest ∧ memoryCalls t.trace = memoryCalls s.trace + 2 * m ∧
      (∀ i w, i < m → ws[i]? = some w → t.nvm.readWord (s.pAddr.toNat + 4 * i) = w) ∧
      ∀ a, a < s.pAddr.toNat ∨ s.pAddr.toNat + 4 * m ≤ a → t.nvm.read a = s.nvm.read a := by
  induction m generalizing s ws with
  | zero =>
    exact ⟨s, by simp, .rfl' s, rfl, by simp, by simp, hp, by simpa using ha, by simp, by simp, fun _ _ => rfl⟩
  | succ m ih =>
    cases ws with
    | nil => simp at hm
    | cons w ws =>
      have hfit := hfit (by omega)
      have hlt : s.pAddr.toNat < s.cfg.appEnd.toNat := by omega
      obtain ⟨hn1, hn2⟩ := next_toNat hok hp hlt
      obtain ⟨st, v, left, free, h1, h2⟩ := writeWords_cons (ws := ws) (w := w) hok hp hl hlt
      obtain ⟨rfl, hv, rfl⟩ := h1 ⟨.ok, none⟩ (List.replicate m ⟨.ok, none⟩ ++ rest) (by rw [ha]; rfl)
      simp only [Option.getD_none] at hv
      rw [hv] at h2
      simp only [reduceCtorEq, false_and, if_false, if_true] at h2
      obtain ⟨t, r1, r2, r3, r4, r5, r6, r7, r8, r9, r10⟩ := ih (ws := ws) (s := nextWord { s with
          nvm := s.nvm.store s.pAddr.toNat w.bytes
          env := { s.env with programAnswers := List.replicate m ⟨.ok, none⟩ ++ rest }
          free := free
          trace := .nvmReadWord s.pAddr w :: .nvmProgramWord s.pAddr w .ok :: s.trace
          ret := .word w }) hok hn2 hl (by simpa using hm) (by simp only [nextWord_pAddr, nextWord_cfg, hn1]; omega) (by rfl)
      simp only [nextWord_pAddr, nextWord_pFail, nextWord_pIdx, nextWord_cfg, nextWord_nvm, nextWord_trace, hn1] at *
      refine ⟨t, by rw [h2, r1]; rfl, .trans ?_ r2, r3, by omega, by omega, r6, r7, ?_, ?_, ?_⟩
      · constructor <;> first | exact store_wf | simp [sameSession, sameControl, samePacket, Event.sent]
      · rw [r8]; simp [Event.isMemory]; omega
      · intro i x hi hx
        cases i with
        | zero =>
          simp at hx
          subst hx
          rw [readWord_congr (n := s.nvm.store s.pAddr.toNat w.bytes)]
          · simp
          · intro a h5 h6
            exact r10 a (.inl (by omega))
        | succ i =>
          rw [show s.pAddr.toNat + 4 * (i + 1) = s.pAddr.toNat + 4 + 4 * i by omega]
          exact r9 i x (by omega) (by simpa using hx)
      · intro a h5
        rw [r10 a (by omega)]
        exact read_store_outside (by simp; omega)

/-- A `WRITE` at one of its words, the words before it answered as intended: what that word's program primitive and read-back
do (R135 to R138). -/
theorem write_atWord {s : State} {addr : Addr} {before after : List NvmWord} {w : NvmWord} {p : ProgramAnswer}
    {rest : List ProgramAnswer}
    (hok : s.cfg.Ok) (hs : legalWrite s.cfg addr) (hlt : addr.toNat + 4 * before.length < s.cfg.appEnd.toNat)
    (ha : s.env.programAnswers = List.replicate before.length ⟨.ok, none⟩ ++ p :: rest) :
    ∃ (u : State), u.pAddr.toNat = addr.toNat + 4 * before.length ∧ u.cfg = s.cfg ∧ u.lock = false ∧ legalWrite s.cfg u.pAddr ∧
      memoryCalls u.trace = memoryCalls s.trace + 2 * before.length + 1 ∧ u.pFail = .empty ∧
      (∀ i x, before[i]? = some x → u.nvm.readWord (addr.toNat + 4 * i) = x) ∧
      (∀ a, a < addr.toNat ∨ addr.toNat + 4 * before.length ≤ a → u.nvm.read a = s.nvm.read a) ∧
      ∃ free, writeWords (before ++ w :: after) (beginWrite addr s) =
        let t := { u with
          nvm := u.nvm.store u.pAddr.toNat (p.leave.getD w).bytes
          pFail := if p.status = .fail then { u.pFail with writeFailed := true } else u.pFail
          env := { u.env with programAnswers := rest }
          free := free
          trace := .nvmProgramWord u.pAddr w p.status :: u.trace
          ret := .status p.status }
        if p.status = .fail ∧ s.cfg.writeFailStops = true then .next t
        else
          let v := { t with
            trace := .nvmReadWord u.pAddr (p.leave.getD w) :: t.trace
            ret := .word (p.leave.getD w) }
          if p.leave.getD w = w then writeWords after (nextWord v) else .next (noteMismatch v) := by
  obtain ⟨u, e1, hf, e2, e3, e4, e5, e6, e7, e8, e9⟩ := writeWords_intended before.length (ws := before ++ w :: after) (s := beginWrite addr s) (rest := p :: rest) hok hs rfl (by simp) (fun _ => by show addr.toNat + 4 * before.length ≤ s.cfg.appEnd.toNat; omega) ha
  have hcfg : u.cfg = s.cfg := by rw [hf.cfg]; rfl
  have hlk : u.lock = false := by rw [hf.lock]; rfl
  have e3 : u.pAddr.toNat = addr.toNat + 4 * before.length := e3
  rw [List.drop_left] at e1
  obtain ⟨st, v, left, free, h1, h2⟩ := writeWords_cons (ws := after) (w := w) (s := u) (hcfg ▸ hok) (hcfg ▸ e5) hlk (by rw [e3, hcfg]; exact hlt)
  obtain ⟨rfl, rfl, rfl⟩ := h1 _ _ e6
  refine ⟨u, e3, hcfg, hlk, e5, ?_, e2, ?_, e9, free, ?_⟩
  · rw [e7]; simp [beginWrite, Event.isMemory]; omega
  · intro i x hx
    have hi := (List.getElem?_eq_some_iff.1 hx).1
    exact e8 i x hi (by rw [List.getElem?_append_left hi, hx])
  · rw [e1, h2, hcfg]

/-- The words before it stand. -/
theorem write_before {u : State} {addr : Addr} {before : List NvmWord} {v : NvmWord} (hp : u.pAddr.toNat = addr.toNat + 4 * before.length)
    (h : ∀ i x, before[i]? = some x → u.nvm.readWord (addr.toNat + 4 * i) = x) :
    ∀ i x, before[i]? = some x → (u.nvm.store u.pAddr.toNat v.bytes).readWord (addr.toNat + 4 * i) = x := by
  intro i x hx
  have hi := (List.getElem?_eq_some_iff.1 hx).1
  rw [readWord_congr (n := u.nvm)]
  · exact h i x hx
  · intro a h1 h2
    exact read_store_outside (by simp; omega)

/-- The bytes outside are kept. -/
theorem write_outside {s u : State} {addr : Addr} {m : Nat} {v : NvmWord} (hp : u.pAddr.toNat = addr.toNat + 4 * m)
    (h : ∀ a, a < addr.toNat ∨ addr.toNat + 4 * m ≤ a → u.nvm.read a = s.nvm.read a) :
    ∀ a, a < addr.toNat ∨ u.pAddr.toNat + 4 ≤ a → (u.nvm.store u.pAddr.toNat v.bytes).read a = s.nvm.read a := by
  intro a ha
  rw [read_store_outside (by simp; omega)]
  exact h a (by omega)

end Sys2Proof.Laws
end

