-- ==== Sys2Proof/Laws/Engine.lean ====
section
/-! SUPPORT. What the packet framer and the engine's own operations do, once and for every use. -/

namespace Sys2Proof.Laws

open Sys2Proof Sys2Proof.Machine

/-! ### READ_HEADER and READ_PACKET -/

/-- `READ_HEADER` on a byte (R175). -/
theorem readHeader_byte {s : State} {b : Byte} {rest : List LineItem} (h : s.env.line = .byte b :: rest) :
    readHeader s = { s with
      env := { s.env with line := rest }
      trace := .receive 1 s.cfg.tRx (.ok [b]) :: s.trace
      ret := .received (.ok [b])
      hdrKind := headerKind (some b) } := by
  unfold readHeader
  rw [receive_bytes (n := 1) (bytes := [b]) rfl h]
  rfl

/-- `READ_HEADER` on a silence (R175). -/
theorem readHeader_quiet {s : State} {rest : List LineItem} (h : s.env.line = .quiet :: rest) :
    readHeader s = { s with
      env := { s.env with line := rest }
      trace := .receive 1 s.cfg.tRx .fail :: s.trace
      ret := .received .fail
      hdrKind := .none } := by
  unfold readHeader
  rw [receive_quiet (bytes := []) (by simp) h]
  rfl

/-- Bytes stored in the payload buffer read back (R29). -/
theorem storePayload_take (old : Vector Byte 1024) {bs : List Byte} {n : Nat} (hn : bs.length = n) (h : n ≤ 1024) :
    (storePayload old bs).toList.take n = bs ∧ (storePayload old bs).toList.drop n = old.toList.drop n := by
  subst hn
  have e : (storePayload old bs).toList = bs ++ old.toList.drop bs.length := by
    simp [storePayload, List.take_of_length_le h]
  rw [e]
  simp

/-- `READ_PACKET` on a packet that arrives whole (R177). -/
theorem readPacket_whole {s : State} {n : Nat} {seqB cmpB high low : Byte} {payload : List Byte} {rest : List LineItem}
    (hp : payload.length = n)
    (h : s.env.line = (seqB :: cmpB :: (payload ++ [high, low])).map LineItem.byte ++ rest) :
    readPacket n s = { s with
      seqB := seqB
      cmpB := cmpB
      payload := storePayload s.payload payload
      rxCrc := assembleCrc high low
      commFail := false
      env := { s.env with line := rest }
      trace := .receive 2 s.cfg.tRx (.ok [high, low]) :: .receive n s.cfg.tRx (.ok payload) ::
        .receive 1 s.cfg.tRx (.ok [cmpB]) :: .receive 1 s.cfg.tRx (.ok [seqB]) :: s.trace
      ret := .received (.ok [high, low]) } := by
  unfold readPacket
  rw [receive_bytes (n := 1) (bytes := [seqB]) (rest := (cmpB :: (payload ++ [high, low])).map LineItem.byte ++ rest) rfl
    (by simpa using h)]
  simp only [takeSeqB, receivedByte, Returned.bytes?, Option.bind_some, List.head?_cons]
  rw [receive_bytes (n := 1) (bytes := [cmpB]) (rest := (payload ++ [high, low]).map LineItem.byte ++ rest) rfl
    (by simp)]
  simp only [takeCmpB, receivedByte, Returned.bytes?, Option.bind_some, List.head?_cons]
  rw [receive_bytes (n := n) (bytes := payload) (rest := [high, low].map LineItem.byte ++ rest) hp (by simp)]
  simp only [takePayload, Returned.bytes?]
  rw [receive_bytes (n := 2) (bytes := [high, low]) (rest := rest) rfl rfl]
  simp only [takeCrc, Returned.bytes?]

/-- Once a read of the packet has failed, the packet has failed (R177, R178). -/
theorem takeSeqB_keeps_fail {t : State} (h : t.commFail = true) : (takeSeqB t).commFail = true := by
  unfold takeSeqB; split <;> simp [h]

theorem takeCmpB_keeps_fail {t : State} (h : t.commFail = true) : (takeCmpB t).commFail = true := by
  unfold takeCmpB; split <;> simp [h]

theorem takePayload_keeps_fail {t : State} (h : t.commFail = true) : (takePayload t).commFail = true := by
  unfold takePayload; split <;> simp [h]

theorem takeCrc_keeps_fail {t : State} (h : t.commFail = true) : (takeCrc t).commFail = true := by
  unfold takeCrc; split <;> simp [h]

/-- A packet of which the host has sent too little before it falls silent fails (R178, R179). -/
theorem readPacket_short {s : State} {n : Nat} {bytes : List Byte} {rest : List LineItem} (hb : bytes.length < n + 4)
    (h : s.env.line = bytes.map LineItem.byte ++ .quiet :: rest) : (readPacket n s).commFail = true := by
  simp only [readPacket]
  match bytes, hb, h with
  | [], _, h =>
    rw [receive_quiet (s := { s with commFail := false }) (n := 1) (bytes := []) (rest := rest) (by simp) h]
    refine takeCrc_keeps_fail ?_
    rw [receive_commFail]
    refine takePayload_keeps_fail ?_
    rw [receive_commFail]
    refine takeCmpB_keeps_fail ?_
    rw [receive_commFail]
    rfl
  | [a], _, h =>
    rw [receive_bytes (s := { s with commFail := false }) (n := 1) (bytes := [a]) (rest := .quiet :: rest) rfl h]
    rw [receive_quiet (n := 1) (bytes := []) (rest := rest) (by simp) rfl]
    refine takeCrc_keeps_fail ?_
    rw [receive_commFail]
    refine takePayload_keeps_fail ?_
    rw [receive_commFail]
    rfl
  | a :: b :: bs, hb, h =>
    rw [receive_bytes (s := { s with commFail := false }) (n := 1) (bytes := [a]) (rest := (b :: bs).map LineItem.byte ++ .quiet :: rest) rfl (by simpa using h)]
    rw [receive_bytes (n := 1) (bytes := [b]) (rest := bs.map LineItem.byte ++ .quiet :: rest) rfl (by rfl)]
    by_cases hn : bs.length < n
    · rw [receive_quiet (n := n) (bytes := bs) (rest := rest) hn rfl]
      refine takeCrc_keeps_fail ?_
      rw [receive_commFail]
      rfl
    · rw [receive_bytes (n := n) (bytes := bs.take n) (rest := (bs.drop n).map LineItem.byte ++ .quiet :: rest)
        (by simp; omega) (by
          show bs.map LineItem.byte ++ .quiet :: rest = _
          rw [← List.append_assoc, ← List.map_append, List.take_append_drop])]
      rw [receive_quiet (n := 2) (bytes := bs.drop n) (rest := rest) (by simp at hb ⊢; omega) rfl]
      rfl

/-! ### Each read of a packet -/

/-- An answer of one byte. -/
theorem answer_one {a : RxAnswer} (hl : ∀ bs, a = .ok bs → bs.length = 1) : a = .fail ∨ ∃ b, a = .ok [b] := by
  cases a with
  | fail => exact .inl rfl
  | ok bs =>
    obtain ⟨b, rfl⟩ := List.length_eq_one_iff.1 (hl bs rfl)
    exact .inr ⟨b, rfl⟩

/-- The first read (R177). -/
theorem takeSeqB_answer {t : State} {a : RxAnswer} (h : t.ret = .received a) (hl : ∀ bs, a = .ok bs → bs.length = 1) :
    ((takeSeqB t).commFail = true ↔ t.commFail = true ∨ a = .fail) ∧ (a = .fail ∨ a = .ok [(takeSeqB t).seqB]) := by
  unfold takeSeqB receivedByte
  rw [h]
  obtain rfl | ⟨b, rfl⟩ := answer_one hl <;> simp [Returned.bytes?]

/-- The second read (R177). -/
theorem takeCmpB_answer {t : State} {a : RxAnswer} (h : t.ret = .received a) (hl : ∀ bs, a = .ok bs → bs.length = 1) :
    ((takeCmpB t).commFail = true ↔ t.commFail = true ∨ a = .fail) ∧ (a = .fail ∨ a = .ok [(takeCmpB t).cmpB]) := by
  unfold takeCmpB receivedByte
  rw [h]
  obtain rfl | ⟨b, rfl⟩ := answer_one hl <;> simp [Returned.bytes?]

/-- The third read (R177). -/
theorem takePayload_answer {t : State} {a : RxAnswer} {n : Nat} (h : t.ret = .received a)
    (hl : ∀ bs, a = .ok bs → bs.length = n) (hn : n ≤ 1024) :
    ((takePayload t).commFail = true ↔ t.commFail = true ∨ a = .fail) ∧
      (a = .fail ∨ a = .ok ((takePayload t).payloadBytes n)) := by
  unfold takePayload
  rw [h]
  cases a with
  | fail => simp [Returned.bytes?]
  | ok bs => simp [Returned.bytes?, State.payloadBytes, (storePayload_take t.payload (hl bs rfl) hn).1]

/-- The fourth read (R85, R177). -/
theorem takeCrc_answer {t : State} {a : RxAnswer} (h : t.ret = .received a) (hl : ∀ bs, a = .ok bs → bs.length = 2) :
    ((takeCrc t).commFail = true ↔ t.commFail = true ∨ a = .fail) ∧
      (a = .fail ∨ ∃ high low, a = .ok [high, low] ∧ (takeCrc t).rxCrc = assembleCrc high low) := by
  unfold takeCrc
  rw [h]
  cases a with
  | fail => simp [Returned.bytes?]
  | ok bs =>
    obtain ⟨high, low, rfl⟩ := List.length_eq_two.1 (hl bs rfl)
    simp [Returned.bytes?]

/-- `READ_PACKET` makes its four reads and nothing else, whatever their answers; `COMMFAIL` says whether one of them failed, and
a read that succeeded fills its field (R177, R178). -/
theorem readPacket_reads {n : Nat} (hn : n ≤ 1024) (s : State) :
    ∃ a1 a2 a3 a4,
      (readPacket n s).trace = [.receive 2 s.cfg.tRx a4, .receive n s.cfg.tRx a3, .receive 1 s.cfg.tRx a2,
        .receive 1 s.cfg.tRx a1] ++ s.trace ∧
      ((readPacket n s).commFail = true ↔ a1 = .fail ∨ a2 = .fail ∨ a3 = .fail ∨ a4 = .fail) ∧
      (a1 = .fail ∨ a1 = .ok [(readPacket n s).seqB]) ∧ (a2 = .fail ∨ a2 = .ok [(readPacket n s).cmpB]) ∧
      (a3 = .fail ∨ a3 = .ok ((readPacket n s).payloadBytes n)) ∧
      (a4 = .fail ∨ ∃ high low, a4 = .ok [high, low] ∧ (readPacket n s).rxCrc = assembleCrc high low) := by
  obtain ⟨a1, l1, f1, h1, e1⟩ := receive_cases 1 { s with commFail := false }
  generalize hr1 : takeSeqB (receive 1 { s with commFail := false }) = r1
  obtain ⟨c1, b1⟩ := takeSeqB_answer (t := receive 1 { s with commFail := false }) (by rw [e1]) h1
  obtain ⟨a2, l2, f2, h2, e2⟩ := receive_cases 1 r1
  generalize hr2 : takeCmpB (receive 1 r1) = r2
  obtain ⟨c2, b2⟩ := takeCmpB_answer (t := receive 1 r1) (by rw [e2]) h2
  obtain ⟨a3, l3, f3, h3, e3⟩ := receive_cases n r2
  generalize hr3 : takePayload (receive n r2) = r3
  obtain ⟨c3, b3⟩ := takePayload_answer (t := receive n r2) (by rw [e3]) h3 hn
  obtain ⟨a4, l4, f4, h4, e4⟩ := receive_cases 2 r3
  obtain ⟨c4, b4⟩ := takeCrc_answer (t := receive 2 r3) (by rw [e4]) h4
  have hp : readPacket n s = takeCrc (receive 2 r3) := by unfold readPacket; simp only [hr1, hr2, hr3]
  rw [hr1] at c1 b1
  rw [hr2] at c2 b2
  rw [hr3] at c3 b3
  have k1 : r1.cfg = s.cfg ∧ r1.trace = .receive 1 s.cfg.tRx a1 :: s.trace := by rw [← hr1]; simp [e1]
  have k2 : r2.cfg = s.cfg ∧ r2.trace = .receive 1 s.cfg.tRx a2 :: r1.trace ∧ r2.seqB = r1.seqB := by
    rw [← hr2]; simp [e2, k1]
  have k3 : r3.cfg = s.cfg ∧ r3.trace = .receive n s.cfg.tRx a3 :: r2.trace ∧ r3.seqB = r2.seqB ∧ r3.cmpB = r2.cmpB := by
    rw [← hr3]; simp [e3, k2]
  rw [hp]
  refine ⟨a1, a2, a3, a4, ?_, ?_, ?_, ?_, ?_, b4⟩
  · simp [e4, k3, k2, k1]
  · rw [c4, receive_commFail, c3, receive_commFail, c2, receive_commFail, c1, receive_commFail]
    simp [or_assoc]
  · simpa [k3, k2] using b1
  · simpa [k3] using b2
  · simpa [State.payloadBytes] using b3

/-- `READ_PACKET` issues no memory primitive and sends nothing. -/
theorem readPacket_record (n : Nat) (s : State) :
    memoryCalls (readPacket n s).trace = memoryCalls s.trace ∧ sentBytes (readPacket n s).trace = sentBytes s.trace := by
  simp [readPacket]

/-! ### What `exec` is, where the rule of the operation applies -/

theorem exec_awaitHeaderStep {s : State} (h : s.state = .awaitHeader) :
    exec .awaitHeaderStep s = .next (dispatchHeader (readHeader s)) := by
  show execAwaitHeaderStep s = _
  unfold execAwaitHeaderStep; rw [onlyIn_of _ h]

theorem exec_hdrNone {s : State} (h : s.state = .awaitHeader) :
    exec .hdrNone s = .next (dispatchHeader (s.withKind .none)) := by
  show execHdrNone s = _
  unfold execHdrNone; rw [onlyIn_of _ h]; rfl

/-- The row of a header byte is the dispatch on its kind (R81, R192). -/
theorem exec_decodeHeaderByte {s : State} (b : Byte) (h : s.state = .awaitHeader) :
    exec (decodeHeaderByte b) s = .next (dispatchHeader (s.withKind (headerKind (some b)))) := by
  unfold headerKind decodeHeaderByte
  simp only
  split
  · show execSoh s = _; unfold execSoh; rw [onlyIn_of _ h]; rfl
  split
  · show execStx s = _; unfold execStx; rw [onlyIn_of _ h]; rfl
  split
  · show execEot s = _; unfold execEot; rw [onlyIn_of _ h]; rfl
  split
  · show execCan s = _; unfold execCan; rw [onlyIn_of _ h]; rfl
  · rename_i h1 h2 h3 h4
    have hb : recognizedHeader b = false := by
      simp only [wireSoh, wireStx, wireEot, wireCan] at h1 h2 h3 h4
      simp [recognizedHeader, h1, h2, h3, h4]
    show execHdrOther b s = _
    unfold execHdrOther
    rw [onlyIn_of _ h]
    simp [hb]
    rfl

theorem exec_errorHandler {s : State} (h : s.state = .awaitHeader ∨ s.state = .receivePacket) :
    exec .errorHandler s = .next (errorHandler s) := by
  show execErrorHandler s = _
  unfold execErrorHandler; rw [if_pos h]

theorem exec_readPacket {n : Nat} (s : State) (h : isPayloadSize n = true) :
    exec (.readPacket n) s = .next (readPacket n s) := by
  show execReadPacket n s = _
  unfold execReadPacket; rw [if_pos h]

theorem exec_receivePacketStep {s : State} {n : Nat} (h : s.state = .receivePacket) (hn : s.packetSize = some n) :
    exec .receivePacketStep s = receivePacket n s := by
  show execReceivePacketStep s = _
  unfold execReceivePacketStep; rw [onlyIn_of _ h, withPacketSize_of _ hn]

theorem exec_eraseStep {s : State} (h : s.state = .receivePacket) : exec .eraseStep s = eraseStep s := by
  show execEraseStep s = _
  unfold execEraseStep; rw [onlyIn_of _ h]

theorem exec_validateWriteStep {s : State} {n : Nat} (h : s.state = .receivePacket) (hn : s.packetSize = some n) :
    exec .validateWriteStep s = validateWriteStep n s := by
  show execValidateWriteStep s = _
  unfold execValidateWriteStep; rw [onlyIn_of _ h, withPacketSize_of _ hn]

theorem exec_accept {s : State} {n : Nat} (h : s.state = .receivePacket) (hn : s.packetSize = some n) :
    exec .accept s = .next (accept n s) := by
  show execAccept s = _
  unfold execAccept; rw [onlyIn_of _ h, withPacketSize_of _ hn]

theorem exec_classify {s : State} (h : s.state = .receivePacket) : exec .classify s = .next (classify s) := by
  show execClassify s = _
  unfold execClassify; rw [onlyIn_of _ h]

theorem exec_erase {s : State} {start : Addr} (h : legalErase s.cfg start) : exec (.erase start) s = eraseRegion start s := by
  show execErase start s = _
  unfold execErase; rw [if_pos h]

theorem exec_write {s : State} {addr : Addr} (ws : List NvmWord) (h : legalWrite s.cfg addr) :
    exec (.write addr ws) s = writeRegion addr ws s := by
  show execWrite addr ws s = _
  unfold execWrite; rw [if_pos h]

/-! ### The steps of RECEIVE_PACKET -/

/-- `N / 4` words for `N` bytes (R87, R88). -/
theorem wordsOf_length (m : Nat) {p : List Byte} (hp : p.length = 4 * m) : (wordsOf p).length = m := by
  induction m generalizing p with
  | zero =>
    have : p = [] := by simpa using hp
    subst this; rfl
  | succ m ih =>
    match p, hp with
    | b0 :: b1 :: b2 :: b3 :: rest, hp => simp [wordsOf, ih (p := rest) (by simp at hp; omega)]
    | [], hp => simp at hp
    | [_], hp => simp at hp; omega
    | [_, _], hp => simp at hp; omega
    | [_, _, _], hp => simp at hp; omega

theorem payloadBytes_length {s : State} {n : Nat} (h : s.packetSize = some n) : (s.payloadBytes n).length = n := by
  unfold State.payloadBytes
  rcases packetSize_cases h with rfl | rfl <;> simp

theorem packetWords_length {s : State} {n : Nat} (h : s.packetSize = some n) : (packetWords n s).length = n / 4 := by
  unfold packetWords
  apply wordsOf_length
  rw [payloadBytes_length h]
  rcases packetSize_cases h with rfl | rfl <;> rfl

/-- `ERASE` from a legal operand: what `erasePages_spec` says of its loop, with the unlock and the lock (R131, R141). -/
theorem eraseRegion_spec {s : State} {start : Addr} (hok : s.cfg.Ok) (hs : legalErase s.cfg start) :
    ∃ t, erasePages start (pageCount s.cfg start) (beginErase s) = .next t ∧ eraseRegion start s = .next (nvmLock t) ∧
      EraseFrame (beginErase s) t ∧ (t.eFail = .empty ∨ t.eFail = ⟨true⟩) ∧
      (t.eFail = .empty → ∀ a, start.toNat ≤ a → a < s.cfg.appEnd.toNat → t.nvm.read a = s.cfg.erasedByte) ∧
      (∀ a, a < start.toNat ∨ s.cfg.appEnd.toNat ≤ a → t.nvm.read a = s.nvm.read a) ∧
      (∀ rest, s.env.eraseAnswers = List.replicate (pageCount s.cfg start) .ok ++ rest →
        t.eFail = .empty ∧ t.env.eraseAnswers = rest) ∧
      (∀ j rest, j < pageCount s.cfg start → s.env.eraseAnswers = List.replicate j .ok ++ .fail :: rest →
        t.eFail = ⟨true⟩ ∧ t.env.eraseAnswers = rest ∧
        (∀ a, start.toNat ≤ a → a < start.toNat + j * s.cfg.pageSize → t.nvm.read a = s.cfg.erasedByte) ∧
        ∀ a, start.toNat + (j + 1) * s.cfg.pageSize ≤ a → t.nvm.read a = s.nvm.read a) := by
  obtain ⟨t, h1, h2⟩ := erasePages_spec (start := start) (pageCount s.cfg start) (s := beginErase s) hok hs rfl rfl
    (by simp)
  refine ⟨t, h1, ?_, by simpa using h2⟩
  unfold eraseRegion
  rw [h1, andThen_next]

/-- `WRITE` from a legal operand: what `writeWords_spec` says of its loop, with the unlock and the lock (R135, R141). -/
theorem writeRegion_spec {s : State} {addr : Addr} (ws : List NvmWord) (hok : s.cfg.Ok) (hs : legalWrite s.cfg addr) :
    ∃ t, writeWords ws (beginWrite addr s) = .next t ∧ writeRegion addr ws s = .next (nvmLock t) ∧
      WriteFrame (beginWrite addr s) t ∧ WriteSets s.cfg.writeFailStops t.pFail ∧
      (t.pFail = .empty → t.pAddr.toNat = addr.toNat + 4 * ws.length ∧ t.pIdx = ws.length ∧
        (ws ≠ [] → t.pAddr.toNat ≤ s.cfg.appEnd.toNat) ∧
        ∀ i w, ws[i]? = some w → t.nvm.readWord (addr.toNat + 4 * i) = w) ∧
      (∀ a, a < addr.toNat ∨ addr.toNat + 4 * ws.length ≤ a ∨ s.cfg.appEnd.toNat ≤ a →
        t.nvm.read a = s.nvm.read a) := by
  obtain ⟨t, h1, h2, h3, h4, h5⟩ := writeWords_spec ws (s := beginWrite addr s) hok hs rfl (.inl rfl)
  refine ⟨t, h1, ?_, h2, h3, fun h => ?_, h5⟩
  · unfold writeRegion
    rw [h1, andThen_next]
  · simpa using h4 h

/-- Steps 2 and 3 complete whenever `CURSOR` is a legal operand of `WRITE`, and keep what selects the packet (R201). -/
theorem validateWriteStep_completes {s : State} (n : Nat) (hok : s.cfg.Ok) (hw : legalWrite s.cfg s.cursor) :
    ∃ t, validateWriteStep n s = .next t ∧ sameSession s t ∧ sameControl s t ∧ samePacket s t ∧
      t.commFail = s.commFail ∧ t.eFail = s.eFail ∧ t.cfg = s.cfg ∧ t.env.line = s.env.line ∧
      sentBytes t.trace = sentBytes s.trace ∧ (s.lock = true → t.lock = true) := by
  unfold validateWriteStep
  simp only
  split
  · obtain ⟨t, -, h1, hf, -⟩ := writeRegion_spec (s := validatePacket n s) (addr := (validatePacket n s).cursor)
      (packetWords n (validatePacket n s)) hok hw
    refine ⟨_, h1, ?_, ?_, ?_, ?_, ?_, ?_, ?_, ?_, ?_⟩
    · simpa [sameSession] using hf.session
    · simpa [sameControl] using hf.control
    · simpa [samePacket] using hf.packet
    · simpa using hf.commFail
    · simpa using hf.eFail
    · simpa using hf.cfg
    · simpa [validatePacket, validate] using hf.line
    · simpa [validatePacket, validate, Event.sent] using hf.sent
    · simp
  · exact ⟨_, rfl, by simp [sameSession], by simp [sameControl], by simp [samePacket], by simp, by simp, by simp, rfl,
      rfl, by simp⟩

/-! ### Whole packets -/

/-- The block after a whole packet has been read (R177, R192, R195). -/
theorem receiveUnit_arrives {s : State} {n : Nat} {hdr seqB cmpB high low : Byte} {payload : List Byte} {k : HeaderKind}
    (hst : s.state = .awaitHeader) (hk : headerKind (some hdr) = k) (hn : payloadSize k = some n)
    (hp : payload.length = n) :
    ∃ (trace : List Event) (read : State),
      memoryCalls trace = memoryCalls s.trace ∧ sentBytes trace = sentBytes s.trace ∧
      read = { s with
          hdrKind := k
          state := .receivePacket
          pos := .start
          seqB := seqB
          cmpB := cmpB
          payload := storePayload s.payload payload
          rxCrc := assembleCrc high low
          commFail := false
          eFail := .empty
          vFail := .empty
          pFail := .empty
          trace := trace
          ret := .received (.ok [high, low]) } ∧
      receiveUnit (hdr :: seqB :: cmpB :: (payload ++ [high, low])) s =
        andThen (eraseStep read) fun ready =>
          andThen (if validateDue ready then validateWriteStep n ready else .next ready) fun done =>
            .next (if done.failures.isEmpty then accept n done else classify done) := by
  have hd : ∀ u : State, u.hdrKind = k → dispatchHeader u = u.enter .receivePacket := by
    intro u hu
    unfold dispatchHeader
    rw [hu]
    cases k <;> simp [payloadSize] at hn <;> rfl
  have e1 := readHeader_byte (s := deliver (hdr :: seqB :: cmpB :: (payload ++ [high, low])) s) (b := hdr)
    (rest := (seqB :: cmpB :: (payload ++ [high, low])).map LineItem.byte ++ s.env.line) rfl
  generalize hh : readHeader (deliver (hdr :: seqB :: cmpB :: (payload ++ [high, low])) s) = u at e1
  have hu : u.hdrKind = k := by rw [e1]; exact hk
  have e2 := readPacket_whole (s := clearFailures (u.enter .receivePacket)) (n := n) (seqB := seqB) (cmpB := cmpB)
    (high := high) (low := low) (payload := payload) (rest := s.env.line) hp (by rw [e1]; rfl)
  refine ⟨(readPacket n (clearFailures (u.enter .receivePacket))).trace,
    readPacket n (clearFailures (u.enter .receivePacket)), ?_, ?_, ?_, ?_⟩
  · rw [e2, e1]; simp [Event.isMemory, deliver]
  · rw [e2, e1]; simp [Event.sent, deliver]
  · rw [e2, e1, ← hk]
    rfl
  · unfold receiveUnit
    rw [onlyIn_of _ hst, hh, hd u hu]
    unfold execReceivePacketStep
    rw [onlyIn_of (s := u.enter .receivePacket) (st := .receivePacket) _ rfl, withPacketSize_of (n := n) _ (by rw [← hn, ← hu]; rfl)]
    unfold receivePacket
    have : eraseDue (readPacket n (clearFailures (u.enter .receivePacket))) = true := by rw [e2]; rfl
    simp only [this, if_true]

/-- A packet with a wrong sequence byte, complement or CRC does not pass (R160 to R164). -/
theorem validate_fails {seqB cmpB expected : Byte} {payload : List Byte} {crc : CrcWord}
    (hb : seqB ≠ expected ∨ seqB.toNat + cmpB.toNat ≠ 255 ∨ crc16 payload ≠ crc) :
    validateFailures seqB cmpB payload crc expected ≠ .empty := by
  unfold validateFailures ValidateFailures.empty
  have h9 : complementMatches seqB cmpB = true ↔ seqB.toNat + cmpB.toNat = 255 := by
    simp only [complementMatches, beq_iff_eq, ← BitVec.toNat_inj, BitVec.toNat_add, BitVec.toNat_setWidth, BitVec.toNat_ofNat]
    have := seqB.isLt; have := cmpB.isLt; omega
  intro h
  simp only [ValidateFailures.mk.injEq, Bool.or_eq_false_iff, Bool.not_eq_false', sequenceExpected, crcMatches, beq_iff_eq, h9] at h
  rcases hb with h1 | h1 | h1
  · exact h1 h.1.1
  · exact h1 h.1.2
  · exact h1 h.2

end Sys2Proof.Laws
end

