-- ==== Sys2Proof/Laws/Keeps.lean ====
section
/-! SUPPORT. What every operation keeps, said once for all operations: a property that only reads the array and the
parameters, and that the two destructive primitives keep, is kept by every operation. -/

namespace Sys2Proof.Laws

open Sys2Proof Sys2Proof.Machine

/-- A property of the array and the parameters that `NvmErasePage` and `NvmProgramWord` keep (R54, R55). -/
structure Kept (P : State → Prop) : Prop where
  other : ∀ {s t : State}, P s → t.nvm = s.nvm → t.cfg = s.cfg → P t
  erase : ∀ {a : Addr} {s t : State}, nvmErasePage a s = .next t → P s → P t
  program : ∀ {a : Addr} {w : NvmWord} {s t : State}, nvmProgramWord a w s = .next t → P s → P t

theorem erasePages_keeps {P : State → Prop} (hP : Kept P) {start : Addr} (k : Nat) {s t : State}
    (h : erasePages start k s = .next t) (hs : P s) : P t := by
  induction k generalizing s with
  | zero => cases h; exact hs
  | succ k ih =>
    obtain ⟨u, h1, h2⟩ := andThen_eq_next h
    have hu : P u := hP.erase h1 (hP.other hs rfl rfl)
    split at h2
    · cases h2; exact hP.other hu rfl rfl
    · exact ih h2 (hP.other hu rfl rfl)

theorem writeWords_keeps {P : State → Prop} (hP : Kept P) (ws : List NvmWord) {s t : State}
    (h : writeWords ws s = .next t) (hs : P s) : P t := by
  induction ws generalizing s with
  | nil => cases h; exact hs
  | cons w ws ih =>
    simp only [writeWords] at h
    split at h
    · cases h; exact hP.other hs rfl rfl
    · obtain ⟨u, h1, h2⟩ := andThen_eq_next h
      have hu : P (noteProgram u) := hP.other (hP.program h1 hs) (by simp) (by simp)
      split at h2
      · cases h2; exact hu
      · obtain ⟨v, h3, h4⟩ := andThen_eq_next h2
        have hv : P v := by
          obtain ⟨_, e⟩ := nvmReadWord_inv h3
          exact hP.other hu (by rw [e]) (by rw [e])
        split at h4
        · exact ih h4 (hP.other hv rfl rfl)
        · cases h4; exact hP.other hv rfl rfl

theorem eraseRegion_keeps {P : State → Prop} (hP : Kept P) {start : Addr} {s t : State}
    (h : eraseRegion start s = .next t) (hs : P s) : P t := by
  obtain ⟨u, h1, h2⟩ := andThen_eq_next h
  cases h2
  exact hP.other (erasePages_keeps hP _ h1 (hP.other hs rfl rfl)) rfl rfl

theorem writeRegion_keeps {P : State → Prop} (hP : Kept P) {addr : Addr} {ws : List NvmWord} {s t : State}
    (h : writeRegion addr ws s = .next t) (hs : P s) : P t := by
  obtain ⟨u, h1, h2⟩ := andThen_eq_next h
  cases h2
  exact hP.other (writeWords_keeps hP _ h1 (hP.other hs rfl rfl)) rfl rfl

theorem errorHandler_nvm (s : State) : (errorHandler s).nvm = s.nvm ∧ (errorHandler s).cfg = s.cfg := by
  unfold errorHandler
  simp only
  split <;> simp

theorem dispatchHeader_nvm (s : State) : (dispatchHeader s).nvm = s.nvm ∧ (dispatchHeader s).cfg = s.cfg := by
  have := errorHandler_nvm s
  unfold dispatchHeader
  split <;> first | (split <;> simp [rowProbe, this]) | simp [rowData, rowEot, rowCancel, this]

theorem eraseStep_keeps {P : State → Prop} (hP : Kept P) {s t : State} (h : eraseStep s = .next t) (hs : P s) : P t := by
  unfold eraseStep at h
  split at h
  · cases h; exact hs
  · obtain ⟨u, h1, h2⟩ := andThen_eq_next h
    cases h2
    exact hP.other (eraseRegion_keeps hP h1 hs) (by simp) (by simp)

theorem validateWriteStep_keeps {P : State → Prop} (hP : Kept P) {n : Nat} {s t : State}
    (h : validateWriteStep n s = .next t) (hs : P s) : P t := by
  unfold validateWriteStep at h
  simp only at h
  split at h
  · exact writeRegion_keeps hP h (hP.other hs rfl rfl)
  · cases h; exact hP.other hs rfl rfl

theorem classify_nvm (s : State) : (classify s).nvm = s.nvm ∧ (classify s).cfg = s.cfg := by
  unfold classify
  have := errorHandler_nvm (escalateIfFlash s)
  simpa using this

theorem receivePacket_keeps {P : State → Prop} (hP : Kept P) {n : Nat} {s t : State}
    (h : receivePacket n s = .next t) (hs : P s) : P t := by
  obtain ⟨ready, h1, h2⟩ := andThen_eq_next h
  obtain ⟨done, h3, h4⟩ := andThen_eq_next h2
  have hread : P (readPacket n (clearFailures s)) := hP.other hs (by simp [readPacket]) (by simp [readPacket])
  have hready : P ready := by
    split at h1
    · exact eraseStep_keeps hP h1 hread
    · cases h1; exact hread
  have hdone : P done := by
    split at h3
    · exact validateWriteStep_keeps hP h3 hready
    · cases h3; exact hready
  cases h4
  split
  · exact hP.other hdone (by simp [accept]) (by simp [accept])
  · exact hP.other hdone (classify_nvm done).1 (classify_nvm done).2

theorem receivePacketStep_keeps {P : State → Prop} (hP : Kept P) {s t : State}
    (h : execReceivePacketStep s = .next t) (hs : P s) : P t := by
  obtain ⟨_, h1⟩ := onlyIn_eq_next h
  obtain ⟨n, _, h2⟩ := withPacketSize_eq_next h1
  exact receivePacket_keeps hP h2 hs

theorem receiveUnit_keeps {P : State → Prop} (hP : Kept P) {bytes : List Byte} {s t : State}
    (h : receiveUnit bytes s = .next t) (hs : P s) : P t := by
  obtain ⟨_, h1⟩ := onlyIn_eq_next h
  refine receivePacketStep_keeps hP h1 (hP.other hs ?_ ?_)
  · rw [(dispatchHeader_nvm _).1]; rfl
  · rw [(dispatchHeader_nvm _).2]; rfl

/-- Every operation keeps what the two destructive primitives keep. -/
theorem exec_keeps {P : State → Prop} (hP : Kept P) {i : Instr} {s t : State} (h : exec i s = .next t) (hs : P s) : P t := by
  cases i <;> simp only [exec] at h
  case soh => obtain ⟨_, h⟩ := onlyIn_eq_next h; cases h; exact hP.other hs rfl rfl
  case stx => obtain ⟨_, h⟩ := onlyIn_eq_next h; cases h; exact hP.other hs rfl rfl
  case eot => obtain ⟨_, h⟩ := onlyIn_eq_next h; cases h; exact hP.other hs rfl rfl
  case can => obtain ⟨_, h⟩ := onlyIn_eq_next h; cases h; exact hP.other hs rfl rfl
  case hdrOther b =>
    unfold execHdrOther at h
    split at h
    · cases h
    · obtain ⟨_, h⟩ := onlyIn_eq_next h
      cases h
      exact hP.other hs (errorHandler_nvm (s.withKind .unrecognized)).1 (errorHandler_nvm (s.withKind .unrecognized)).2
  case hdrNone =>
    obtain ⟨_, h⟩ := onlyIn_eq_next h
    cases h
    split
    · exact hP.other hs (errorHandler_nvm (s.withKind .none)).1 (errorHandler_nvm (s.withKind .none)).2
    · exact hP.other hs rfl rfl
  case hdrNoneErased =>
    obtain ⟨_, h⟩ := onlyIn_eq_next h
    split at h
    · cases h
      exact hP.other hs (errorHandler_nvm (s.withKind .none)).1 (errorHandler_nvm (s.withKind .none)).2
    · cases h
  case pkt128 =>
    unfold execPkt128 at h
    split at h
    · exact receiveUnit_keeps hP h hs
    · cases h
  case pkt1k =>
    unfold execPkt1k at h
    split at h
    · exact receiveUnit_keeps hP h hs
    · cases h
  case txProbeC => cases h; exact hP.other hs rfl rfl
  case txAck => cases h; exact hP.other hs rfl rfl
  case txAckEot => cases h; exact hP.other hs (by simp) (by simp)
  case txNak => cases h; exact hP.other hs rfl rfl
  case txCanCan => cases h; exact hP.other hs (by simp) (by simp)
  case crcByte => cases h; exact hP.other hs rfl rfl
  case crc16 => cases h; exact hP.other hs rfl rfl
  case erase =>
    unfold execErase at h
    split at h
    · exact eraseRegion_keeps hP h hs
    · cases h
  case write =>
    unfold execWrite at h
    split at h
    · exact writeRegion_keeps hP h hs
    · cases h
  case validate => cases h; exact hP.other hs rfl rfl
  case readHeader => cases h; exact hP.other hs rfl rfl
  case readPacket =>
    unfold execReadPacket at h
    split at h
    · cases h; exact hP.other hs (by simp [readPacket]) (by simp [readPacket])
    · cases h
  case invoke =>
    unfold execInvoke at h
    split at h
    · cases h; exact hP.other hs rfl rfl
    · cases h
  case awaitHeaderStep =>
    obtain ⟨_, h⟩ := onlyIn_eq_next h
    cases h
    exact hP.other hs (dispatchHeader_nvm (readHeader s)).1 (dispatchHeader_nvm (readHeader s)).2
  case receivePacketStep => exact receivePacketStep_keeps hP h hs
  case eraseStep => obtain ⟨_, h⟩ := onlyIn_eq_next h; exact eraseStep_keeps hP h hs
  case validateWriteStep =>
    obtain ⟨_, h⟩ := onlyIn_eq_next h
    obtain ⟨n, _, h⟩ := withPacketSize_eq_next h
    exact validateWriteStep_keeps hP h hs
  case accept =>
    obtain ⟨_, h⟩ := onlyIn_eq_next h
    obtain ⟨n, _, h⟩ := withPacketSize_eq_next h
    cases h
    exact hP.other hs (by simp [accept]) (by simp [accept])
  case classify =>
    obtain ⟨_, h⟩ := onlyIn_eq_next h
    cases h
    exact hP.other hs (classify_nvm s).1 (classify_nvm s).2
  case errorHandler =>
    unfold execErrorHandler at h
    split at h
    · cases h; exact hP.other hs (errorHandler_nvm s).1 (errorHandler_nvm s).2
    · cases h
  case appJump =>
    obtain ⟨_, h⟩ := onlyIn_eq_next h
    split at h
    · cases h
    · cases h; exact hP.other hs rfl rfl
  case returnToCaller =>
    obtain ⟨_, h⟩ := onlyIn_eq_next h
    split at h
    · cases h
    · cases h; exact hP.other hs rfl rfl
  case nvmUnlock => cases h; exact hP.other hs rfl rfl
  case nvmLock => cases h; exact hP.other hs rfl rfl
  case nvmErasePage => exact hP.erase h hs
  case nvmProgramWord => exact hP.program h hs
  case nvmReadWord =>
    obtain ⟨_, e⟩ := nvmReadWord_inv h
    exact hP.other hs (by rw [e]) (by rw [e])
  case receive =>
    unfold execReceive at h
    split at h
    · cases h; exact hP.other hs rfl rfl
    · cases h
  case transmit => cases h; exact hP.other hs rfl rfl
  case transmitText => cases h; exact hP.other hs rfl rfl

/-- The two destructive primitives keep the canonical form. -/
theorem kept_wf : Kept fun s => s.nvm.wf where
  other hs h _ := h ▸ hs
  erase h hs := by
    obtain ⟨_, _, _, _, _, _, _, _, rfl⟩ := nvmErasePage_inv h
    exact store_wf hs
  program h hs := by
    obtain ⟨_, _, _, _, _, _, rfl⟩ := nvmProgramWord_inv h
    exact store_wf hs

/-- No primitive changes the parameters. -/
theorem kept_cfg (c : Config) : Kept fun s => s.cfg = c where
  other hs _ h := h.trans hs
  erase h hs := by
    obtain ⟨_, _, _, _, _, _, _, _, rfl⟩ := nvmErasePage_inv h
    exact hs
  program h hs := by
    obtain ⟨_, _, _, _, _, _, rfl⟩ := nvmProgramWord_inv h
    exact hs

/-- A page of the region lies in the region (R51). -/
theorem page_fits {cfg : Config} {a : Addr} (hok : cfg.Ok) (ha : legalPage cfg a) :
    a.toNat + cfg.pageSize ≤ cfg.appEnd.toNat := by
  have hs : legalErase cfg a := ⟨ha.1, Nat.le_of_lt ha.2.1, ha.2.2⟩
  have h := pages_exact hok hs
  have hlt := ha.2.1
  have : 1 ≤ pageCount cfg a := by
    rcases Nat.eq_zero_or_pos (pageCount cfg a) with h0 | h0
    · rw [h0, Nat.zero_mul] at h; omega
    · exact h0
  have := Nat.mul_le_mul_right cfg.pageSize this
  omega

/-- The primitives store inside the region only (R50, R57). -/
theorem kept_outside (c : Config) (hok : c.Ok) (m : Memory) :
    Kept fun s => s.cfg = c ∧ ∀ a, a < c.appBase.toNat ∨ c.appEnd.toNat ≤ a → s.nvm.read a = m.read a where
  other hs h h2 := by rw [h, h2]; exact hs
  erase h hs := by
    obtain ⟨_, hp, _, page, _, _, hl, _, rfl⟩ := nvmErasePage_inv h
    refine ⟨hs.1, fun a ha => ?_⟩
    rw [← hs.2 a ha]
    rw [hs.1] at hp hl
    have := page_fits hok hp
    exact read_store_outside (by rw [hl]; have := hp.1; omega)
  program h hs := by
    obtain ⟨_, hp, _, v, _, _, rfl⟩ := nvmProgramWord_inv h
    refine ⟨hs.1, fun a ha => ?_⟩
    rw [← hs.2 a ha]
    rw [hs.1] at hp
    exact read_store_outside (by have := hp.1; have := hp.2.1; simp; omega)

/-- With legal parameters the primitives keep the array's form and list nothing outside the region. -/
theorem kept_array : Kept fun s => s.cfg.Ok ∧ ArrayOk s where
  other hs h h2 := by simp only [ArrayOk] at *; rw [h, h2]; exact hs
  erase h hs := by
    obtain ⟨_, hp, _, page, _, _, hl, _, rfl⟩ := nvmErasePage_inv h
    refine ⟨hs.1, store_wf hs.2.1, fun c hc => ?_⟩
    have := page_fits hs.1 hp
    rcases mem_store hc with h | h
    · exact hs.2.2 c h
    · rw [hl] at h; have := hp.1; simp only; omega
  program h hs := by
    obtain ⟨_, hp, _, v, _, _, rfl⟩ := nvmProgramWord_inv h
    refine ⟨hs.1, store_wf hs.2.1, fun c hc => ?_⟩
    rcases mem_store hc with h | h
    · exact hs.2.2 c h
    · simp at h; have := hp.1; have := hp.2.1; simp only; omega

end Sys2Proof.Laws
end

