-- ==== Sys2Proof/Laws/Step.lean ====
section
/-! SUPPORT. What a step can be, said once, and what the internal computation between two interactions leaves alone. -/

namespace Sys2Proof.Laws

open Sys2Proof Sys2Proof.Machine

/-- A step that answers a next state is a hardware reset, or the selected operation and the computation after it. -/
theorem step_cases {s t : State} (h : step s = .next t) :
    s.cfg.Ok ∧ (t = hardwareReset s ∨
      ∃ i u, nextOp s = some i ∧ exec i s.tick = .next u ∧ t = advance s.state s.pos u) := by
  unfold step at h
  split at h
  · refine ⟨‹_›, ?_⟩
    split at h
    · rename_i i hi
      unfold operationStep at h
      split at h
      · cases h; exact .inl rfl
      · obtain ⟨u, h1, h2⟩ := andThen_eq_next h
        cases h2
        exact .inr ⟨i, u, hi, h1, rfl⟩
    · unfold stuckStep at h
      split at h
      · cases h; exact .inl rfl
      · cases h
  · cases h

/-- A step whose operation is known and whose hardware reset is not now. -/
theorem step_of_nextOp {s : State} {i : Instr} (hok : s.cfg.Ok) (hi : nextOp s = some i) (hr : s.env.resetIn ≠ some 0) :
    step s = andThen (exec i s.tick) fun t => .next (advance s.state s.pos t) := by
  unfold step
  rw [if_pos hok, hi]
  simp only [operationStep, hr, if_false]
  rfl

/-- Where no hardware reset is to come, nothing is counted. -/
theorem tick_of_none {s : State} (h : s.env.resetIn = none) : s.tick = s := by
  rcases s with ⟨⟩
  rename_i env _
  rcases env with ⟨⟩
  simp only at h
  subst h
  rfl

/-- The array and the parameters are not touched between two interactions. -/
theorem startHandler_nvm (s : State) : (startHandler s).nvm = s.nvm ∧ (startHandler s).cfg = s.cfg := by
  simp [startHandler]

theorem startFinish_nvm (s : State) : (startFinish s).nvm = s.nvm ∧ (startFinish s).cfg = s.cfg := by
  unfold startFinish; split <;> simp [startHandler_nvm]

theorem writeHead_nvm (s : State) : (writeHead s).nvm = s.nvm ∧ (writeHead s).cfg = s.cfg := by
  unfold writeHead; split <;> [split; skip] <;> simp

theorem eraseHead_nvm (s : State) : (eraseHead s).nvm = s.nvm ∧ (eraseHead s).cfg = s.cfg := by
  unfold eraseHead; split <;> simp

theorem startValidate_nvm (s : State) : (startValidate s).nvm = s.nvm ∧ (startValidate s).cfg = s.cfg := by
  unfold startValidate; simp only
  split <;> [split; skip] <;> simp [startFinish_nvm]

theorem startErase_nvm (s : State) : (startErase s).nvm = s.nvm ∧ (startErase s).cfg = s.cfg := by
  unfold startErase
  split <;> [split; skip] <;> simp [startValidate_nvm]

theorem startRow_nvm (s : State) : (startRow s).nvm = s.nvm ∧ (startRow s).cfg = s.cfg := by
  unfold startRow
  split <;> (try split) <;> simp [rowData, rowCancel, startHandler_nvm]

theorem advance_nvm (st : EngineState) (p : Pos) (t : State) :
    (advance st p t).nvm = t.nvm ∧ (advance st p t).cfg = t.cfg := by
  cases p <;> simp only [advance]
  case start => cases st <;> simp [afterFirst, startRow_nvm]
  all_goals (try split)
  all_goals simp [startErase_nvm, eraseHead_nvm, writeHead_nvm, startFinish_nvm, startValidate_nvm]

end Sys2Proof.Laws
end

