-- ==== Sys2Proof/Laws/Invariant.lean ====
section
/-! SUPPORT. The invariant, one lemma for each piece of internal computation: from what holds after an operation, the
computation up to the next interaction ends in a state that meets the invariant. -/

namespace Sys2Proof.Laws

open Sys2Proof Sys2Proof.Machine

/-! ### The parts of the invariant -/

/-- `CURSOR` as R25 has it. -/
abbrev CursorOk (s : State) : Prop :=
  s.cursor.toNat % 4 = 0 ∧ s.cfg.appBase.toNat ≤ s.cursor.toNat ∧ s.cursor.toNat ≤ s.cfg.appEnd.toNat ∧
  (s.cursor.toNat - s.cfg.appBase.toNat) % 128 = 0

/-- What holds while the engine runs and is not aborting. -/
structure Running (s : State) : Prop where
  ok : s.cfg.Ok
  array : ArrayOk s
  cursor : CursorOk s
  count : s.errCnt.toNat < s.cfg.xMaxErrors.toNat

/-- `Running` reads the array, the parameters, `CURSOR` and `ERRCNT` only. -/
theorem Running.congr {s t : State} (h : Running s) (hn : t.nvm = s.nvm) (hc : t.cfg = s.cfg) (hr : t.cursor = s.cursor)
    (he : t.errCnt = s.errCnt) : Running t where
  ok := hc ▸ h.ok
  array := by have := h.array; unfold ArrayOk at *; rw [hn, hc]; exact this
  cursor := by have := h.cursor; unfold CursorOk at *; rw [hr, hc]; exact this
  count := by rw [he, hc]; exact h.count

theorem Running.of_inv {s : State} (h : Inv s) (hr : s.state.running = true) (hp : s.pos.aborting = false) : Running s where
  ok := h.1
  array := h.2.1
  cursor := by
    obtain ⟨a, b, c, d, _⟩ := h.2.2.1 (by intro e; rw [e] at hr; cases hr)
    exact ⟨a, b, c, d⟩
  count := (h.2.2.1 (by intro e; rw [e] at hr; cases hr)).2.2.2.2.2 hr hp

theorem Running.sessionOk {s : State} (h : Running s) : SessionOk s := fun _ =>
  ⟨h.cursor.1, h.cursor.2.1, h.cursor.2.2.1, h.cursor.2.2.2, by have := h.count; omega, fun _ _ => h.count⟩

theorem Running.inv {s : State} (h : Running s) (hl : s.lock = !s.pos.unlocked) (hp : PositionOk s) : Inv s :=
  ⟨h.ok, h.array, h.sessionOk, hl, hp⟩

/-- A packet has some whole number of 128 bytes, and of words. -/
theorem inPacket_size {s : State} (h : InPacket s) :
    ∃ n, s.packetSize = some n ∧ s.packetSize.getD 0 = n ∧ n % 128 = 0 ∧ 4 * (n / 4) = n := by
  obtain ⟨n, hn⟩ := Option.isSome_iff_exists.1 h.2
  refine ⟨n, hn, by rw [hn]; rfl, ?_⟩
  rcases packetSize_cases hn with rfl | rfl <;> decide

theorem packetSize_congr {s t : State} (h : t.hdrKind = s.hdrKind) : t.packetSize = s.packetSize := by
  unfold State.packetSize; rw [h]

theorem inPacket_congr {s t : State} (h : InPacket s) (hs : t.state = s.state) (hk : t.hdrKind = s.hdrKind) : InPacket t :=
  ⟨hs.trans h.1, by rw [packetSize_congr hk]; exact h.2⟩

/-! ### The handler -/

/-- The handler's first part (R205). -/
theorem startHandler_inv {s : State} (hok : s.cfg.Ok) (ha : ArrayOk s) (hc : CursorOk s)
    (he : s.errCnt.toNat ≤ s.cfg.xMaxErrors.toNat) (hl : s.lock = true) (hr : s.state.running = true) :
    Inv (startHandler s) := by
  have hx := hok.2.2.2.2.2.2.2
  have h1 : (s.errCnt + 1).toNat = s.errCnt.toNat + 1 := by rw [BitVec.toNat_add]; simp; omega
  unfold startHandler
  simp only
  split
  · refine ⟨hok, ha, fun _ => ⟨hc.1, hc.2.1, hc.2.2.1, hc.2.2.2, ?_, fun _ h => ?_⟩, by simpa [Pos.unlocked] using hl, ?_⟩
    · simp only [goto_errCnt, countError_errCnt, goto_cfg, countError_cfg]; omega
    · simp [Pos.aborting] at h
    · simpa [PositionOk] using hr
  · rename_i ht
    have hlt : s.errCnt.toNat + 1 < s.cfg.xMaxErrors.toNat := by
      simp only [thresholdReached, countError_cfg, countError_errCnt, decide_eq_true_eq, h1] at ht
      omega
    refine Running.inv ⟨hok, ha, hc, ?_⟩ (by simpa [Pos.unlocked] using hl) (by simpa [PositionOk] using hr)
    simp only [goto_errCnt, countError_errCnt, goto_cfg, countError_cfg]; omega

theorem startHandler_running {s : State} (h : Running s) (hl : s.lock = true) (hr : s.state.running = true) :
    Inv (startHandler s) :=
  startHandler_inv h.ok h.array h.cursor (Nat.le_of_lt h.count) hl hr

/-! ### The header rows -/

/-- After the header byte (R192 to R198). -/
theorem startRow_inv {s : State} (h : Running s) (hl : s.lock = true) (hs : s.state = .awaitHeader) : Inv (startRow s) := by
  have hr : s.state.running = true := by rw [hs]; rfl
  unfold startRow
  split
  · split
    · exact startHandler_running h hl hr
    · exact Running.inv (h.congr rfl rfl rfl rfl) (by simpa [Pos.unlocked] using hl) (by simpa [PositionOk] using hs)
  · rename_i hk
    exact Running.inv (h.congr rfl rfl rfl rfl) (by simpa [rowData, Pos.unlocked] using hl)
      (by simp [PositionOk, rowData, State.packetSize, hk, payloadSize, InPacket])
  · rename_i hk
    exact Running.inv (h.congr rfl rfl rfl rfl) (by simpa [rowData, Pos.unlocked] using hl)
      (by simp [PositionOk, rowData, State.packetSize, hk, payloadSize, InPacket])
  · exact Running.inv (h.congr rfl rfl rfl rfl) (by simpa [Pos.unlocked] using hl) (by simpa [PositionOk] using hs)
  · exact Running.inv (h.congr rfl rfl rfl rfl) (by simpa [rowCancel, Pos.unlocked] using hl)
      (by simp [PositionOk, rowCancel])
  · exact startHandler_running h hl hr

/-! ### The packet -/

/-- Accept or classify (R202, R203). -/
theorem startFinish_inv {s : State} (h : Running s) (hl : s.lock = true) (hp : InPacket s)
    (hw : s.failures.isEmpty = true →
      AtWord s ∧ s.pIdx = s.packetSize.getD 0 / 4 ∧ s.pAddr.toNat ≤ s.cfg.appEnd.toNat) : Inv (startFinish s) := by
  obtain ⟨n, hn, hg, h128, h4⟩ := inPacket_size hp
  unfold startFinish
  split
  · rename_i he
    obtain ⟨w1, w2, w3⟩ := hw he
    rw [hg] at w2
    have hend : s.cursor.toNat + n ≤ s.cfg.appEnd.toNat := by
      rw [w1, w2] at w3; omega
    have hlt := s.cfg.appEnd.isLt
    have hcur : (s.cursor + BitVec.ofNat 32 n).toNat = s.cursor.toNat + n := by
      rw [BitVec.toNat_add, BitVec.toNat_ofNat]; omega
    have hx := h.ok.2.2.2.2.2.2.2
    obtain ⟨c1, c2, c3, c4⟩ := h.cursor
    refine Running.inv ⟨h.ok, h.array, ?_, ?_⟩ (by simpa [Pos.unlocked] using hl) ?_
    · simp only [CursorOk, goto_cursor, commitPacket_cursor, goto_cfg, commitPacket_cfg, hg, hcur]
      omega
    · simp only [goto_errCnt, commitPacket_errCnt, goto_cfg, commitPacket_cfg]
      simp; omega
    · simpa [PositionOk] using inPacket_congr hp (t := (commitPacket (s.packetSize.getD 0) s).goto .ack) rfl rfl
  · refine startHandler_inv (s := escalateIfFlash s) (by simpa using h.ok) (by simpa [ArrayOk] using h.array)
      (by simpa [CursorOk] using h.cursor) ?_ (by simpa using hl) (by simp [hp.1, EngineState.running])
    have := h.count
    unfold escalateIfFlash
    split
    · simp
    · omega

/-- Validation, up to the unlock of `WRITE` (R199, R201). -/
theorem startValidate_inv {s : State} (h : Running s) (hl : s.lock = true) (hp : InPacket s) : Inv (startValidate s) := by
  unfold startValidate
  simp only
  split
  · have h' : Running (validatePacket (s.packetSize.getD 0) s) := h.congr rfl rfl rfl rfl
    have hp' : InPacket (validatePacket (s.packetSize.getD 0) s) := inPacket_congr hp rfl rfl
    split
    · exact Running.inv (h'.congr rfl rfl rfl rfl) (by simpa [Pos.unlocked] using hl)
        (by
          have := inPacket_congr hp' (t := (aimWrite (validatePacket (s.packetSize.getD 0) s).cursor
            (validatePacket (s.packetSize.getD 0) s)).goto .writeUnlock) rfl rfl
          simpa [PositionOk] using this)
    · rename_i hv
      refine startFinish_inv h' hl hp' fun he => absurd ?_ hv
      simp only [Failures.isEmpty, State.failures, Failures.flashRelated, Failures.recoverable, Bool.and_eq_true,
        Bool.not_eq_true', Bool.or_eq_false_iff] at he
      obtain ⟨-, ⟨-, h1⟩, h2⟩ := he
      cases hvf : (validatePacket (s.packetSize.getD 0) s).vFail with
      | mk a b => rw [hvf] at h1 h2; simp only at h1 h2; rw [h1, h2]; rfl
  · rename_i hd
    refine startFinish_inv h hl hp fun he => absurd ?_ hd
    simp only [Failures.isEmpty, State.failures, Failures.flashRelated, Failures.recoverable, Bool.and_eq_true,
      Bool.not_eq_true', Bool.or_eq_false_iff] at he
    obtain ⟨⟨⟨⟨h1, -⟩, -⟩, -⟩, ⟨h2, -⟩, -⟩ := he
    simp only [validateDue, h2, Bool.not_false, Bool.true_and, decide_eq_true_eq]
    cases hef : s.eFail with
    | mk a => rw [hef] at h1; simp only at h1; rw [h1]; rfl

/-- The erase step, up to the unlock of `ERASE` (R199, R200). -/
theorem startErase_inv {s : State} (h : Running s) (hl : s.lock = true) (hp : InPacket s) : Inv (startErase s) := by
  unfold startErase
  split
  · split
    · exact startValidate_inv h hl hp
    · exact Running.inv (h.congr rfl rfl rfl rfl) (by simpa [Pos.unlocked] using hl)
        (by simpa [PositionOk] using inPacket_congr hp (t := { s with eFail := .empty }.goto .eraseUnlock) rfl rfl)
  · exact startValidate_inv h hl hp

/-- The head of the loop of `ERASE` (R131). -/
theorem eraseHead_inv {s : State} (h : Running s) (hl : s.lock = false) (hp : InPacket s) : Inv (eraseHead s) := by
  unfold eraseHead
  split
  · rename_i hi
    refine Running.inv (h.congr rfl rfl rfl rfl) (by simpa [Pos.unlocked] using hl) ?_
    have := inPacket_congr hp (t := (aimAtPage s.cfg.appBase s).goto .erasePage) rfl rfl
    simp only [PositionOk, goto_pos]
    exact ⟨this, hi, rfl⟩
  · exact Running.inv (h.congr rfl rfl rfl rfl) (by simpa [Pos.unlocked] using hl)
      (by simpa [PositionOk] using inPacket_congr hp (t := s.goto .eraseLock) rfl rfl)

/-- The head of the loop of `WRITE` (R135, R136). -/
theorem writeHead_inv {s : State} (h : Running s) (hl : s.lock = false) (hp : InPacket s) (ha : AtWord s)
    (hi : s.pIdx ≤ s.packetSize.getD 0 / 4) (he : s.pAddr.toNat ≤ s.cfg.appEnd.toNat) : Inv (writeHead s) := by
  unfold writeHead
  split
  · rename_i hlt
    split
    · refine Running.inv (h.congr rfl rfl rfl rfl) (by simpa [Pos.unlocked] using hl) ?_
      have := inPacket_congr hp (t := (noteTooLarge s).goto .writeLock) rfl rfl
      simp only [PositionOk, goto_pos]
      exact ⟨this, fun h => by simp [WriteFailures.empty] at h⟩
    · rename_i hpast
      refine Running.inv (h.congr rfl rfl rfl rfl) (by simpa [Pos.unlocked] using hl) ?_
      have := inPacket_congr hp (t := s.goto .writeProgram) rfl rfl
      simp only [PositionOk, goto_pos]
      exact ⟨this, ha, hlt, by simpa [pastEnd] using hpast⟩
  · refine Running.inv (h.congr rfl rfl rfl rfl) (by simpa [Pos.unlocked] using hl) ?_
    have := inPacket_congr hp (t := s.goto .writeLock) rfl rfl
    simp only [PositionOk, goto_pos]
    exact ⟨this, fun _ => ⟨ha, Nat.le_antisymm hi (by simp only [goto_pIdx]; exact Nat.le_of_not_lt ‹_›), he⟩⟩

/-! ### The preconditions of the memory primitives -/

/-- The word at `PADDR` is a legal operand of the word primitives (R55, R62). -/
theorem legalWord_at {s : State} (h : Running s) (ha : AtWord s) (hlt : s.pAddr.toNat < s.cfg.appEnd.toNat) :
    legalWord s.cfg s.pAddr := by
  obtain ⟨c1, c2, c3, c4⟩ := h.cursor
  have hok := h.ok
  obtain ⟨o1, o2, o3, o⟩ := hok
  unfold AtWord at ha
  refine ⟨by omega, by omega, by omega⟩

/-- A store at a legal page or word keeps the array inside the region. -/
theorem arrayOk_store {s : State} {t : State} {a : Nat} {bs : List Byte} (h : ArrayOk s) (hn : t.nvm = s.nvm.store a bs)
    (hc : t.cfg = s.cfg) (h1 : s.cfg.appBase.toNat ≤ a) (h2 : a + bs.length ≤ s.cfg.appEnd.toNat) : ArrayOk t := by
  unfold ArrayOk at *
  rw [hn, hc]
  refine ⟨store_wf h.1, fun c hm => ?_⟩
  rcases mem_store hm with h3 | h3
  · exact h.2 c h3
  · omega

/-- The invariant does not see how long a hardware reset is away. -/
theorem tick_inv {s : State} : Inv s → Inv s.tick := id

end Sys2Proof.Laws
end

