-- ==== Sys2Proof/Laws/Refine.lean ====
section
/-! SUPPORT. The steps of the machine and the loops of the operations: one step at each position, composition of runs, and
the two loops of the programmer as runs of single interactions. The position does not matter to any operation. -/

namespace Sys2Proof.Laws

open Sys2Proof Sys2Proof.Machine

/-! ### Runs -/

/-- Some number of steps lead from `s` to `t`. -/
def Reaches (s t : State) : Prop := ∃ k, Host.Core.run core k s = .next t

theorem Reaches.rfl' (s : State) : Reaches s s := ⟨0, rfl⟩

theorem run_add (j k : Nat) {s t : State} (h : Host.Core.run core j s = .next t) :
    Host.Core.run core (j + k) s = Host.Core.run core k t := by
  induction j generalizing s with
  | zero =>
    cases h
    rw [Nat.zero_add]
  | succ j ih =>
    rw [Nat.succ_add]
    simp only [Host.Core.run] at h ⊢
    cases hs : core.step s with
    | next u => rw [hs] at h; exact ih h
    | fault r => rw [hs] at h; cases h
    | refused r => rw [hs] at h; cases h

theorem Reaches.trans {s t u : State} (h : Reaches s t) (k : Reaches t u) : Reaches s u := by
  obtain ⟨a, ha⟩ := h
  obtain ⟨b, hb⟩ := k
  exact ⟨a + b, by rw [run_add a b ha, hb]⟩

theorem Reaches.step {s t : State} (h : Machine.step s = .next t) : Reaches s t := by
  have h1 : core.step s = .next t := h
  exact ⟨1, by simp only [Host.Core.run, h1]⟩

/-- One step whose operation and its result are known. -/
theorem Reaches.operation {s u : State} {i : Instr} (hok : s.cfg.Ok) (hr : s.env.resetIn = none) (hi : nextOp s = some i)
    (he : exec i s = .next u) : Reaches s (advance s.state s.pos u) := by
  refine Reaches.step ?_
  rw [step_of_nextOp hok hi (by rw [hr]; simp), tick_of_none hr, he]
  rfl

/-! ### The position does not matter -/

theorem receive_goto (n : Nat) (p : Pos) (s : State) : receive n (s.goto p) = (receive n s).goto p := rfl
theorem transmit_goto (b : Byte) (p : Pos) (s : State) : transmit b (s.goto p) = (transmit b s).goto p := rfl
theorem transmitText_goto (b : List Byte) (p : Pos) (s : State) :
    transmitText b (s.goto p) = (transmitText b s).goto p := rfl
theorem nvmUnlock_goto (p : Pos) (s : State) : nvmUnlock (s.goto p) = (nvmUnlock s).goto p := rfl
theorem nvmLock_goto (p : Pos) (s : State) : nvmLock (s.goto p) = (nvmLock s).goto p := rfl
theorem goto_goto (p q : Pos) (s : State) : (s.goto p).goto q = s.goto q := rfl
theorem takeSeqB_goto (p : Pos) (s : State) : takeSeqB (s.goto p) = (takeSeqB s).goto p := by
  unfold takeSeqB; simp only [receivedByte, goto_ret]; split <;> rfl
theorem takeCmpB_goto (p : Pos) (s : State) : takeCmpB (s.goto p) = (takeCmpB s).goto p := by
  unfold takeCmpB; simp only [receivedByte, goto_ret]; split <;> rfl
theorem takePayload_goto (p : Pos) (s : State) : takePayload (s.goto p) = (takePayload s).goto p := by
  unfold takePayload; simp only [goto_ret]; split <;> rfl
theorem takeCrc_goto (p : Pos) (s : State) : takeCrc (s.goto p) = (takeCrc s).goto p := by
  unfold takeCrc; simp only [goto_ret]; split <;> rfl
theorem noteProgram_goto (p : Pos) (s : State) : noteProgram (s.goto p) = (noteProgram s).goto p := by
  unfold noteProgram
  rw [show reportedFail (s.goto p) = reportedFail s from rfl]
  cases reportedFail s <;> rfl
theorem noteErased_goto (p : Pos) (s : State) : noteErased (s.goto p) = (noteErased s).goto p := by
  unfold noteErased
  rw [goto_eFail]
  by_cases h : s.eFail = .empty
  · rw [if_pos h, if_pos h]; rfl
  · rw [if_neg h, if_neg h]
theorem escalateIfFlash_goto (p : Pos) (s : State) : escalateIfFlash (s.goto p) = (escalateIfFlash s).goto p := by
  unfold escalateIfFlash
  rw [show (s.goto p).failures = s.failures from rfl]
  cases s.failures.flashRelated <;> rfl
theorem goto_of_pos {p : Pos} {s : State} (h : s.pos = p) : s.goto p = s := by subst h; rfl

theorem nvmErasePage_goto (a : Addr) (p : Pos) {s u : State} (h : nvmErasePage a s = .next u) :
    nvmErasePage a (s.goto p) = .next (u.goto p) := by
  unfold nvmErasePage at h ⊢
  by_cases hp : s.lock = false ∧ legalPage s.cfg a
  · rw [if_pos hp] at h
    rw [if_pos (show (s.goto p).lock = false ∧ legalPage (s.goto p).cfg a from hp)]
    cases h
    rfl
  · rw [if_neg hp] at h
    cases h

theorem nvmProgramWord_goto (a : Addr) (w : NvmWord) (p : Pos) {s u : State} (h : nvmProgramWord a w s = .next u) :
    nvmProgramWord a w (s.goto p) = .next (u.goto p) := by
  unfold nvmProgramWord at h ⊢
  by_cases hp : s.lock = false ∧ legalWord s.cfg a
  · rw [if_pos hp] at h
    rw [if_pos (show (s.goto p).lock = false ∧ legalWord (s.goto p).cfg a from hp)]
    cases h
    rfl
  · rw [if_neg hp] at h
    cases h

theorem nvmReadWord_goto (a : Addr) (p : Pos) {s u : State} (h : nvmReadWord a s = .next u) :
    nvmReadWord a (s.goto p) = .next (u.goto p) := by
  unfold nvmReadWord at h ⊢
  by_cases hp : legalWord s.cfg a
  · rw [if_pos hp] at h
    rw [if_pos (show legalWord (s.goto p).cfg a from hp)]
    cases h
    rfl
  · rw [if_neg hp] at h
    cases h

theorem startHandler_goto (p : Pos) (s : State) : startHandler (s.goto p) = startHandler s := rfl
theorem startFinish_goto (p : Pos) (s : State) : startFinish (s.goto p) = startFinish s := by
  unfold startFinish
  rw [escalateIfFlash_goto, startHandler_goto]
  rfl
theorem startValidate_goto (p : Pos) (s : State) : startValidate (s.goto p) = startValidate s := by
  unfold startValidate
  rw [startFinish_goto]
  simp only [show validatePacket ((s.goto p).packetSize.getD 0) (s.goto p) =
    (validatePacket (s.packetSize.getD 0) s).goto p from rfl, startFinish_goto]
  rfl
theorem startErase_goto (p : Pos) (s : State) : startErase (s.goto p) = startErase s := by
  unfold startErase
  rw [startValidate_goto]
  rfl
theorem writeHead_goto (p : Pos) (s : State) : writeHead (s.goto p) = writeHead s := rfl
theorem eraseHead_goto (p : Pos) (s : State) : eraseHead (s.goto p) = eraseHead s := rfl

/-! ### The loop of ERASE as steps -/

/-- From the head of the loop the steps run the pages still to do, and end at the lock (R131). -/
theorem eraseHead_reaches (k : Nat) {s : State} (hok : s.cfg.Ok) (hl : s.lock = false) (hr : s.env.resetIn = none)
    (hk : s.pIdx + k = pageCount s.cfg s.cfg.appBase) :
    ∃ t, erasePages s.cfg.appBase k s = .next t ∧ Reaches (eraseHead s) (t.goto .eraseLock) := by
  induction k generalizing s with
  | zero =>
    refine ⟨s, rfl, ?_⟩
    unfold eraseHead
    rw [if_neg (by omega)]
    exact .rfl' _
  | succ k ih =>
    have hi : s.pIdx < pageCount s.cfg s.cfg.appBase := by omega
    have hlegal : legalPage s.cfg (aimAtPage s.cfg.appBase s).pAddr := pageAddress_legal hok (legalErase_base hok) hi
    obtain ⟨st, page, left, free, -, -, -, h4⟩ :=
      nvmErasePage_completes (s := aimAtPage s.cfg.appBase s) (a := (aimAtPage s.cfg.appBase s).pAddr) hl hlegal
    generalize hu : ({ aimAtPage s.cfg.appBase s with nvm := _, env := _, free := _, trace := _, ret := _ } : State) = u at h4
    have hstep : Reaches ((aimAtPage s.cfg.appBase s).goto .erasePage)
        (advance s.state .erasePage (u.goto .erasePage)) :=
      Reaches.operation (s := (aimAtPage s.cfg.appBase s).goto .erasePage) (i := .nvmErasePage _) hok hr rfl
        (nvmErasePage_goto _ .erasePage h4)
    simp only [erasePages, h4, andThen_next]
    unfold eraseHead
    rw [if_pos hi]
    simp only [advance, show reportedFail (u.goto .erasePage) = reportedFail u from rfl] at hstep
    split
    · rename_i hf
      rw [if_pos hf] at hstep
      exact ⟨_, rfl, hstep⟩
    · rename_i hf
      rw [if_neg hf] at hstep
      have e1 : (nextPage u).cfg = s.cfg := by rw [← hu]; rfl
      have e2 : (nextPage u).lock = false := by rw [← hu]; exact hl
      have e3 : (nextPage u).env.resetIn = none := by rw [← hu]; exact hr
      have e4 : (nextPage u).pIdx = s.pIdx + 1 := by rw [← hu]; rfl
      obtain ⟨t, h5, h6⟩ := ih (s := nextPage u) (e1 ▸ hok) e2 e3 (by rw [e1, e4]; omega)
      rw [e1] at h5
      exact ⟨t, h5, hstep.trans h6⟩

/-! ### The loop of WRITE as steps -/

/-- From the head of the loop the steps run the words still to do, and end at the lock (R135). -/
theorem writeHead_reaches (ws : List NvmWord) {s : State} {n : Nat} (hrun : Running s) (hl : s.lock = false)
    (hr : s.env.resetIn = none) (hn : s.packetSize = some n) (ha : AtWord s) (he : s.pAddr.toNat ≤ s.cfg.appEnd.toNat)
    (hw : (packetWords n s).drop s.pIdx = ws) :
    ∃ t, writeWords ws s = .next t ∧ Reaches (writeHead s) (t.goto .writeLock) := by
  have hlen := packetWords_length hn
  have hg : s.packetSize.getD 0 = n := by rw [hn]; rfl
  induction ws generalizing s with
  | nil =>
    refine ⟨s, rfl, ?_⟩
    have : (packetWords n s).length ≤ s.pIdx := by simpa using hw
    unfold writeHead
    rw [hg, if_neg (by omega)]
    exact .rfl' _
  | cons w ws ih =>
    have hi : s.pIdx < (packetWords n s).length := by
      by_contra hc
      rw [List.drop_eq_nil_of_le (by omega)] at hw
      cases hw
    have hcur : (packetWords n s)[s.pIdx]? = some w := by
      have := congrArg (·[0]?) hw
      simpa using this
    have hrest : (packetWords n s).drop (s.pIdx + 1) = ws := by
      rw [← List.drop_drop, hw]; rfl
    unfold writeHead
    rw [hg, if_pos (by omega)]
    simp only [writeWords]
    split
    · exact ⟨_, rfl, .rfl' _⟩
    · rename_i hpast
      have hlt : s.pAddr.toNat < s.cfg.appEnd.toNat := by simpa [pastEnd] using hpast
      have hlegal := legalWord_at hrun ha hlt
      have hcw (t : State) (h1 : t.payload = s.payload) (h2 : t.hdrKind = s.hdrKind) (h3 : t.pIdx = s.pIdx) :
          currentWord t = w := by
        have h4 : t.packetSize.getD 0 = n := by rw [packetSize_congr h2, hg]
        have h5 : packetWords n t = packetWords n s := by simp only [packetWords, State.payloadBytes, h1]
        unfold currentWord
        rw [h4, h5, h3, hcur]
        rfl
      obtain ⟨st, v, left, free, -, h4⟩ := nvmProgramWord_completes w hl hlegal
      generalize hu : ({ s with nvm := _, env := _, free := _, trace := _, ret := _ } : State) = u at h4
      have hstep : Reaches (s.goto .writeProgram) (advance s.state .writeProgram (u.goto .writeProgram)) :=
        Reaches.operation (s := s.goto .writeProgram) (i := .nvmProgramWord s.pAddr w) hrun.ok hr
          (by simp only [nextOp, goto_pos, goto_pAddr, hcw (s.goto .writeProgram) rfl rfl rfl])
          (nvmProgramWord_goto _ _ .writeProgram h4)
      simp only [advance, show programStops (u.goto .writeProgram) = programStops u from rfl, noteProgram_goto,
        goto_goto] at hstep
      rw [h4, andThen_next]
      split
      · rename_i hst
        rw [if_pos hst] at hstep
        exact ⟨_, rfl, hstep⟩
      · rename_i hst
        rw [if_neg hst] at hstep
        have u1 : (noteProgram u).cfg = s.cfg := by rw [noteProgram_cfg, ← hu]
        have u2 : (noteProgram u).pAddr = s.pAddr := by rw [noteProgram_pAddr, ← hu]
        have u3 : (noteProgram u).env.resetIn = none := by rw [noteProgram_env, ← hu]; exact hr
        have u4 : (noteProgram u).state = s.state := by rw [noteProgram_state, ← hu]
        have hread := nvmReadWord_completes (s := noteProgram u) (a := (noteProgram u).pAddr) (by rw [u1, u2]; exact hlegal)
        generalize hx : ({ noteProgram u with trace := _, ret := _ } : State) = x at hread
        have hstep2 : Reaches ((noteProgram u).goto .writeRead) (advance s.state .writeRead (x.goto .writeRead)) := by
          have := Reaches.operation (s := (noteProgram u).goto .writeRead) (i := .nvmReadWord (noteProgram u).pAddr)
            (u := x.goto .writeRead) (by rw [goto_cfg, u1]; exact hrun.ok) u3 rfl (nvmReadWord_goto _ .writeRead hread)
          rwa [goto_state, u4] at this
        have x1 : x.payload = s.payload := by rw [← hx]; simp only [noteProgram_payload]; rw [← hu]
        have x2 : x.hdrKind = s.hdrKind := by rw [← hx]; simp only [noteProgram_hdrKind]; rw [← hu]
        have x3 : x.pIdx = s.pIdx := by rw [← hx]; simp only [noteProgram_pIdx]; rw [← hu]
        have x4 : x.cfg = s.cfg := by rw [← hx]; exact u1
        have x5 : x.cursor = s.cursor := by rw [← hx]; simp only [noteProgram_cursor]; rw [← hu]
        have x6 : x.errCnt = s.errCnt := by rw [← hx]; simp only [noteProgram_errCnt]; rw [← hu]
        have x7 : x.lock = false := by rw [← hx]; simp only [noteProgram_lock]; rw [← hu]; exact hl
        have x8 : x.env.resetIn = none := by rw [← hx]; exact u3
        have x9 : x.pAddr = s.pAddr := by rw [← hx]; exact u2
        have x10 : ArrayOk x := by
          have hm : x.nvm = s.nvm.store s.pAddr.toNat v.bytes := by
            rw [← hx]; simp only [noteProgram_nvm]; rw [← hu]
          exact arrayOk_store hrun.array hm x4 hlegal.1 hlegal.2.1
        have hxw : currentWord (x.goto .writeRead) = w := hcw _ x1 x2 x3
        simp only [advance, hxw, show readBackEqual w (x.goto .writeRead) = readBackEqual w x from rfl] at hstep2
        rw [hread, andThen_next]
        split
        · rename_i hq
          rw [if_pos hq] at hstep2
          obtain ⟨n1, n2⟩ := next_toNat hrun.ok (a := s.pAddr) ⟨hlegal.2.2, hlegal.1⟩ hlt
          have hpw : packetWords n (nextWord x) = packetWords n s := by
            simp only [packetWords, State.payloadBytes, nextWord_payload, x1]
          have hns : (nextWord x).packetSize = some n := by rw [packetSize_congr (s := s) (by rw [nextWord_hdrKind, x2]), hn]
          obtain ⟨t, h5, h6⟩ := ih (s := nextWord x)
            ⟨by rw [nextWord_cfg, x4]; exact hrun.ok, x10,
              by have := hrun.cursor; unfold CursorOk at *; simp only [nextWord_cursor, nextWord_cfg, x4, x5]; exact this,
              by simp only [nextWord_errCnt, nextWord_cfg, x4, x6]; exact hrun.count⟩
            x7 x8 hns
            (by simp only [AtWord, nextWord_pAddr, nextWord_cursor, nextWord_pIdx, x9, x5, x3, n1] at *; omega)
            (by simp only [nextWord_pAddr, nextWord_cfg, x9, x4, n1]; have := hlegal.2.1; omega)
            (by rw [hpw, nextWord_pIdx, x3]; exact hrest)
            (packetWords_length hns) (by rw [hns]; rfl)
          exact ⟨t, h5, (hstep.trans hstep2).trans h6⟩
        · rename_i hq
          rw [if_neg hq] at hstep2
          exact ⟨_, rfl, hstep.trans hstep2⟩

/-! ### The handler and the steps of a packet -/

/-- `Receive(n)` for a legal `n` (R171). -/
theorem exec_receive {n : Nat} (s : State) (h : 1 ≤ n) : exec (.receive n) s = .next (receive n s) := by
  show execReceive n s = _; unfold execReceive; rw [if_pos h]

/-- From the handler's first byte the steps run the rest of the handler (R205). -/
theorem startHandler_reaches {s : State} (hok : s.cfg.Ok) (hr : s.env.resetIn = none) :
    Reaches (startHandler s) (errorHandler s) := by
  unfold startHandler errorHandler
  simp only
  cases ht : thresholdReached (countError s)
  · exact Reaches.operation (s := (countError s).goto .nak) (i := .transmit wireNak)
      (u := (transmit wireNak (countError s)).goto .nak) hok hr rfl rfl
  · have s1 : Reaches ((countError s).goto .firstCan) ((transmit wireCan (countError s)).goto .secondCan) :=
      Reaches.operation (s := (countError s).goto .firstCan) (i := .transmit wireCan)
        (u := (transmit wireCan (countError s)).goto .firstCan) hok hr rfl rfl
    have s2 : Reaches ((transmit wireCan (countError s)).goto .secondCan)
        ((transmit wireCan (transmit wireCan (countError s))).goto .abortNotice) :=
      Reaches.operation (s := (transmit wireCan (countError s)).goto .secondCan) (i := .transmit wireCan)
        (u := (transmit wireCan (transmit wireCan (countError s))).goto .secondCan) hok hr rfl rfl
    have s3 : Reaches ((transmit wireCan (transmit wireCan (countError s))).goto .abortNotice)
        ((transmitText s.cfg.noticeAbort (transmit wireCan (transmit wireCan (countError s)))).enter .terminalAbort) :=
      Reaches.operation (s := (transmit wireCan (transmit wireCan (countError s))).goto .abortNotice)
        (i := .transmitText s.cfg.noticeAbort)
        (u := (transmitText s.cfg.noticeAbort (transmit wireCan (transmit wireCan (countError s)))).goto .abortNotice)
        hok hr rfl rfl
    exact (s1.trans s2).trans s3

/-- Steps 4 and 5 of R199 as steps of the machine. -/
theorem startFinish_reaches {s : State} {n : Nat} (hok : s.cfg.Ok) (hr : s.env.resetIn = none) (hn : s.packetSize = some n) :
    Reaches (startFinish s) (if s.failures.isEmpty then accept n s else classify s) := by
  unfold startFinish
  split
  · rw [hn]
    exact Reaches.operation (s := (commitPacket n s).goto .ack) (i := .transmit wireAck)
      (u := (transmit wireAck (commitPacket n s)).goto .ack) hok hr rfl rfl
  · exact startHandler_reaches (s := escalateIfFlash s) (by simpa using hok) (by simpa using hr)

/-- Steps 2 to 5 of R199 as steps of the machine. -/
theorem startValidate_reaches {s : State} {n : Nat} (h : Running s) (hr : s.env.resetIn = none) (hn : s.packetSize = some n) :
    ∃ done, (if validateDue s then validateWriteStep n s else .next s) = .next done ∧
     Reaches (startValidate s) (if done.failures.isEmpty then accept n done else classify done) := by
  unfold startValidate
  simp only
  split
  · rw [hn]
    simp only [Option.getD_some]
    unfold validateWriteStep
    simp only
    have hn' : (validatePacket n s).packetSize = some n := by rw [packetSize_congr (s := s) (by simp), hn]
    have hv : Running (validatePacket n s) := h.congr (by simp) (by simp) (by simp) (by simp)
    have hvr : (validatePacket n s).env.resetIn = none := by simpa using hr
    generalize validatePacket n s = v at hn' hv hvr
    split
    · obtain ⟨t, h1, h2⟩ := writeHead_reaches (packetWords n v) (s := beginWrite v.cursor v) (n := n)
        (hv.congr (by simp) (by simp) (by simp) (by simp)) (by simp) (by simpa using hvr)
        (by rw [packetSize_congr (s := v) (by simp), hn']) (by simp [AtWord]) (by simpa using hv.cursor.2.2.1)
        (by simp [packetWords, State.payloadBytes])
      obtain ⟨t', h3, h4, hf, _⟩ := writeRegion_spec (s := v) (addr := v.cursor) (packetWords n v) hv.ok
        ⟨hv.cursor.1, hv.cursor.2.1⟩
      rw [h1] at h3; cases h3
      refine ⟨_, h4, ?_⟩
      have e1 : Reaches ((aimWrite v.cursor v).goto .writeUnlock) (writeHead (beginWrite v.cursor v)) :=
        Reaches.operation (s := (aimWrite v.cursor v).goto .writeUnlock) (i := .nvmUnlock)
          (u := (nvmUnlock (aimWrite v.cursor v)).goto .writeUnlock) hv.ok hvr rfl rfl
      have e2 : Reaches (t.goto .writeLock) (startFinish ((nvmLock t).goto .writeLock)) :=
        Reaches.operation (s := t.goto .writeLock) (i := .nvmLock) (u := (nvmLock t).goto .writeLock)
          (by rw [goto_cfg, hf.cfg]; exact hv.ok) (by rw [goto_env, hf.resetIn]; exact hvr) rfl rfl
      rw [startFinish_goto] at e2
      exact (e1.trans h2).trans (e2.trans (startFinish_reaches (s := nvmLock t) (by rw [nvmLock_cfg, hf.cfg]; exact hv.ok)
        (by rw [nvmLock_env, hf.resetIn]; exact hvr)
        (by rw [packetSize_congr (s := v) (by rw [nvmLock_hdrKind, hf.packet.1]; rfl), hn'])))
    · exact ⟨_, rfl, startFinish_reaches hv.ok hvr hn'⟩
  · exact ⟨s, rfl, startFinish_reaches h.ok hr hn⟩

/-- Steps 1 to 5 of R199 as steps of the machine. -/
theorem startErase_reaches {s : State} {n : Nat} (h : Running s) (hr : s.env.resetIn = none) (hn : s.packetSize = some n) :
    ∃ t, (andThen (if eraseDue s then eraseStep s else .next s) fun ready =>
    andThen (if validateDue ready then validateWriteStep n ready else .next ready) fun done =>
      .next (if done.failures.isEmpty then accept n done else classify done)) = .next t ∧ Reaches (startErase s) t := by
  have plain : ∃ t, (andThen (.next s) fun ready =>
    andThen (if validateDue ready then validateWriteStep n ready else .next ready) fun done =>
      .next (if done.failures.isEmpty then accept n done else classify done)) = .next t ∧ Reaches (startValidate s) t := by
    obtain ⟨d, h1, h2⟩ := startValidate_reaches h hr hn
    exact ⟨_, by rw [andThen_next, h1]; rfl, h2⟩
  unfold startErase
  split
  · unfold eraseStep
    split
    · exact plain
    · obtain ⟨u, h1, h2, hf, _, _, hout, _⟩ := eraseRegion_spec (s := s) h.ok (legalErase_base h.ok)
      obtain ⟨u', h3, h4⟩ := eraseHead_reaches (pageCount s.cfg s.cfg.appBase) (s := beginErase s) h.ok rfl hr (by simp)
      have : u = u' := by
        have h5 : erasePages s.cfg.appBase (pageCount s.cfg s.cfg.appBase) (beginErase s) = .next u' := h3
        rw [h1] at h5; cases h5; rfl
      subst this
      rw [h2]
      simp only [andThen_next]
      have e1 : Reaches ({ s with eFail := .empty }.goto .eraseUnlock) (eraseHead (beginErase s)) :=
        Reaches.operation (s := { s with eFail := .empty }.goto .eraseUnlock) (i := .nvmUnlock)
          (u := (nvmUnlock { s with eFail := .empty }).goto .eraseUnlock) h.ok hr rfl rfl
      have e2 : Reaches (u.goto .eraseLock) (startValidate (noteErased ((nvmLock u).goto .eraseLock))) :=
        Reaches.operation (s := u.goto .eraseLock) (i := .nvmLock) (u := (nvmLock u).goto .eraseLock) (by rw [goto_cfg, hf.cfg]; exact h.ok) (by rw [goto_env, hf.resetIn]; exact hr) rfl rfl
      rw [noteErased_goto, startValidate_goto] at e2
      have hrun : Running (noteErased (nvmLock u)) := by
        refine ⟨by simp [hf.cfg]; exact h.ok, ?_, ?_, ?_⟩
        · have harr := (eraseRegion_keeps kept_array h2 ⟨h.ok, h.array⟩).2
          simpa [ArrayOk] using harr
        · have := h.cursor; simp only [CursorOk, noteErased_cursor, nvmLock_cursor, noteErased_cfg, nvmLock_cfg, hf.session.2.1, hf.cfg] at *; exact this
        · have := h.count; simp only [noteErased_errCnt, nvmLock_errCnt, noteErased_cfg, nvmLock_cfg, hf.session.2.2.2, hf.cfg] at *; exact this
      obtain ⟨d, h6, h7⟩ := startValidate_reaches (s := noteErased (nvmLock u)) (n := n) hrun (by simp [hf.resetIn, hr])
         (by rw [packetSize_congr (s := s) (by simp [hf.packet.1]), hn])
      rw [h6]
      exact ⟨_, rfl, (e1.trans h4).trans (e2.trans h7)⟩
  · exact plain

/-- The beginning of the next rule, up to its first interaction: only `RECEIVE_PACKET` has any (R199). -/
def intoRule (s : State) : State := if s.state = .receivePacket then (beginPacket s).goto .readSequence else s

theorem intoRule_of_ne {s : State} (h : s.state ≠ .receivePacket) : intoRule s = s := if_neg h

/-- After the handler no packet is being received (R205). -/
theorem errorHandler_notInPacket (s : State) : (errorHandler s).state ≠ .receivePacket := by
  unfold errorHandler
  simp only
  split <;> simp

/-- From the row's first byte the steps run the rest of the row (R192), up to the first interaction of the next rule. -/
theorem startRow_reaches {s : State} (hok : s.cfg.Ok) (hr : s.env.resetIn = none) :
    Reaches (startRow s) (intoRule (dispatchHeader s)) := by
  unfold startRow dispatchHeader
  cases s.hdrKind with
  | none =>
    cases s.erased
    · exact Reaches.operation (s := s.goto .probe) (i := .transmit wireProbe) (u := (transmit wireProbe s).goto .probe)
        hok hr rfl rfl
    · exact (intoRule_of_ne (errorHandler_notInPacket s)).symm ▸ startHandler_reaches hok hr
  | shortData => exact .rfl' _
  | longData => exact .rfl' _
  | endOfTransmission =>
    have s1 : Reaches (s.goto .eotAck) ((transmit wireAck s).goto .eotNotice) :=
      Reaches.operation (s := s.goto .eotAck) (i := .transmit wireAck)
        (u := (transmit wireAck s).goto .eotAck) hok hr rfl rfl
    have s2 : Reaches ((transmit wireAck s).goto .eotNotice)
        ((transmitText s.cfg.noticeComplete (transmit wireAck s)).enter .terminalSuccess) :=
      Reaches.operation (s := (transmit wireAck s).goto .eotNotice) (i := .transmitText s.cfg.noticeComplete)
        (u := (transmitText s.cfg.noticeComplete (transmit wireAck s)).goto .eotNotice) hok hr rfl rfl
    exact s1.trans s2
  | cancel => exact .rfl' _
  | unrecognized => exact (intoRule_of_ne (errorHandler_notInPacket s)).symm ▸ startHandler_reaches hok hr

end Sys2Proof.Laws
end

