-- ==== Sys2Proof/Laws/Packet.lean ====
section
/-! SUPPORT. A whole packet, whatever the environment answers: the erase step, the validate and write steps, and the
packet from its header to its acceptance or rejection. -/

namespace Sys2Proof.Laws

open Sys2Proof Sys2Proof.Machine

/-- Words that read back are bytes that read back (R61, R87). -/
theorem read_of_words {m : Memory} (p : List Byte) (a : Nat) (hp : p.length % 4 = 0)
    (h : ∀ i w, (wordsOf p)[i]? = some w → m.readWord (a + 4 * i) = w) (k : Nat) (b : Byte) (hk : p[k]? = some b) :
    m.read (a + k) = b := by
  induction p using wordsOf.induct generalizing a k with
  | case1 b0 b1 b2 b3 rest ih =>
    have h0 := readWord_eq.1 (h 0 ⟨b0, b1, b2, b3⟩ rfl)
    have ih' := ih (a + 4) (by simp at hp; omega) (fun i w hi => by
      have := h (i + 1) w (by simpa [wordsOf] using hi)
      rwa [show a + 4 * (i + 1) = a + 4 + 4 * i by ring] at this)
    match k, hk with
    | 0, hk => cases hk; exact h0.1
    | 1, hk => cases hk; exact h0.2.1
    | 2, hk => cases hk; exact h0.2.2.1
    | 3, hk => cases hk; exact h0.2.2.2
    | k + 4, hk =>
      have := ih' k (by simpa using hk)
      rwa [show a + 4 + k = a + (k + 4) by ring] at this
  | case2 p hno =>
    match p, hno with
    | [], _ => simp at hk
    | [_], _ => simp at hp
    | [_, _], _ => simp at hp
    | [_, _, _], _ => simp at hp
    | b0 :: b1 :: b2 :: b3 :: rest, hno => exact absurd rfl (hno b0 b1 b2 b3 rest)

/-- Step 1, whatever the environment answers (R200). -/
theorem eraseStep_spec {s : State} (hok : s.cfg.Ok) (he : s.eFail = .empty) :
    ∃ t, eraseStep s = .next t ∧ t.seq = s.seq ∧ t.cursor = s.cursor ∧ t.errCnt = s.errCnt ∧ samePacket s t ∧
      sameControl s t ∧ t.commFail = s.commFail ∧ t.vFail = s.vFail ∧ t.pFail = s.pFail ∧ t.cfg = s.cfg ∧
      t.env.line = s.env.line ∧ t.env.programAnswers = s.env.programAnswers ∧ sentBytes t.trace = sentBytes s.trace ∧
      (s.lock = true → t.lock = true) ∧ (s.erased = false → t.lock = true) ∧
      sameArrayOutside s.cfg.appBase.toNat s.cfg.appEnd.toNat s t ∧
      (t.eFail = .empty → t.erased = true ∧
        ∀ a, s.cfg.appBase.toNat ≤ a → a < s.cfg.appEnd.toNat →
          t.nvm.read a = if s.erased = true then s.nvm.read a else s.cfg.erasedByte) ∧
      ((s.erased = false → ∃ rest, s.env.eraseAnswers = List.replicate (pageCount s.cfg s.cfg.appBase) .ok ++ rest) →
        t.eFail = .empty) ∧
      (s.erased = false → ∀ j rest, j < pageCount s.cfg s.cfg.appBase →
        s.env.eraseAnswers = List.replicate j .ok ++ .fail :: rest → t.eFail = ⟨true⟩ ∧ t.erased = false) := by
  unfold eraseStep
  cases hb : s.erased
  · obtain ⟨t, _, h1, hf, h2, h3, h4, h5, h6⟩ := eraseRegion_spec hok (legalErase_base hok)
    simp only [Bool.false_eq_true, if_false, h1, andThen_next]
    have hp := hf.packet
    have hc := hf.control
    refine ⟨_, rfl, by simpa using hf.session.1, by simpa using hf.session.2.1, by simpa using hf.session.2.2.2,
      by simpa [samePacket] using hp, by simpa [sameControl] using hc, by simpa using hf.commFail, by simpa using hf.vFail,
      by simpa using hf.pFail, by simpa using hf.cfg, by simpa [beginErase, nvmUnlock] using hf.line, by simpa [beginErase, nvmUnlock] using hf.programAnswers,
      by simpa [Event.sent] using hf.sent, by simp, by simp, fun a ha => by simpa using h4 a ha, fun h => ⟨?_, fun a ha hb => by simpa using h3 (by simpa using h) a ha hb⟩,
      fun h => ?_, fun _ j rest hj h => ?_⟩
    · unfold noteErased; rw [if_pos (by simpa using h)]
    · obtain ⟨rest, h⟩ := h trivial
      simpa using (h5 rest h).1
    · have hE := (h6 j rest hj h).1
      have hE' : ¬(nvmLock t).eFail = .empty := by simp [hE, EraseFailures.empty]
      have hs := hf.session.2.2.1
      exact ⟨by simpa using hE, by unfold noteErased; rw [if_neg hE']; simpa [hb] using hs⟩
  · simp only [if_true]
    exact ⟨s, rfl, by simp [samePacket, sameControl, hb, he, sameArrayOutside]⟩

/-- Steps 2 and 3, whatever the environment answers (R201). -/
theorem validateWriteStep_spec {s : State} {n : Nat} (hn : s.packetSize = some n) (hok : s.cfg.Ok) (hw : legalWrite s.cfg s.cursor) :
    ∃ t, validateWriteStep n s = .next t ∧ sameSession s t ∧ sameControl s t ∧ samePacket s t ∧
      t.commFail = s.commFail ∧ t.eFail = s.eFail ∧ t.cfg = s.cfg ∧ t.env.line = s.env.line ∧
      sentBytes t.trace = sentBytes s.trace ∧ (s.lock = true → t.lock = true) ∧ (t.vFail = .empty → t.lock = true) ∧
      t.vFail = validateFailures s.seqB s.cmpB (s.payloadBytes n) s.rxCrc s.seq ∧
      (∀ a, a < s.cursor.toNat ∨ s.cursor.toNat + n ≤ a ∨ s.cfg.appEnd.toNat ≤ a → t.nvm.read a = s.nvm.read a) ∧
      (t.vFail = .empty → t.pFail = .empty →
        s.cursor.toNat + n ≤ s.cfg.appEnd.toNat ∧
        ∀ k b, (s.payloadBytes n)[k]? = some b → t.nvm.read (s.cursor.toNat + k) = b) ∧
      (t.vFail = .empty → s.cursor.toNat + n ≤ s.cfg.appEnd.toNat →
        (∃ rest, s.env.programAnswers = List.replicate (n / 4) ⟨.ok, none⟩ ++ rest) → t.pFail = .empty) := by
  have hlen := payloadBytes_length hn
  have h4 : n % 4 = 0 ∧ 4 * (n / 4) = n ∧ 0 < n / 4 := by rcases packetSize_cases hn with rfl | rfl <;> decide
  have hwl : (packetWords n (validatePacket n s)).length = n / 4 := packetWords_length (s := validatePacket n s) hn
  unfold validateWriteStep
  simp only
  split
  · rename_i hv
    obtain ⟨t, h0, h1, hf, _, h2, h3⟩ := writeRegion_spec (s := validatePacket n s) (addr := (validatePacket n s).cursor)
      (packetWords n (validatePacket n s)) hok hw
    rw [hwl, h4.2.1] at h3
    refine ⟨_, h1, ?_, ?_, ?_, ?_, ?_, ?_, ?_, ?_, ?_, ?_, ?_, ?_, ?_, ?_⟩
    · simpa [sameSession] using hf.session
    · simpa [sameControl] using hf.control
    · simpa [samePacket] using hf.packet
    · simpa using hf.commFail
    · simpa using hf.eFail
    · simpa using hf.cfg
    · simpa [validatePacket, validate] using hf.line
    · simpa [validatePacket, validate, Event.sent] using hf.sent
    · simp
    · simp
    · simp only [nvmLock_vFail]; rw [hf.vFail]; rfl
    · intro a ha; exact h3 a ha
    · intro _ hp
      obtain ⟨e1, _, e2, e3⟩ := h2 (by simpa using hp)
      rw [hwl] at e1
      have := e2 (by intro h; rw [h] at hwl; simp at hwl; omega)
      refine ⟨?_, ?_⟩
      · rw [e1] at this; simp only [validatePacket_cursor, validatePacket_cfg] at this; omega
      · exact read_of_words (s.payloadBytes n) _ (by rw [hlen]; exact h4.1) e3
    · rintro _ hfit ⟨rest, hr⟩
      obtain ⟨u, q1, _, q2, _⟩ := writeWords_intended (n / 4) (ws := packetWords n (validatePacket n s)) (s := beginWrite (validatePacket n s).cursor (validatePacket n s)) (rest := rest)
        hok hw rfl (by rw [hwl]) (by intro _; show s.cursor.toNat + 4 * (n / 4) ≤ s.cfg.appEnd.toNat; omega) hr
      rw [List.drop_of_length_le (by rw [hwl])] at q1
      rw [q1] at h0; cases h0
      simpa using q2
  · rename_i hv
    refine ⟨_, rfl, by simp [sameSession], by simp [sameControl], by simp [samePacket], by simp, by simp, by simp, rfl,
      rfl, by simp, fun h => absurd h hv, rfl, fun _ _ => rfl, fun h => absurd h hv, fun h => absurd h hv⟩

/-- Success is every flag clear (R12, R199). -/
theorem failures_isEmpty_iff (s : State) :
    s.failures.isEmpty = true ↔ s.commFail = false ∧ s.eFail = .empty ∧ s.vFail = .empty ∧ s.pFail = .empty := by
  rcases he : s.eFail with ⟨a⟩
  rcases hv : s.vFail with ⟨b, c⟩
  rcases hp : s.pFail with ⟨d, e, f⟩
  simp only [State.failures, Failures.isEmpty, Failures.flashRelated, Failures.recoverable, he, hv, hp, EraseFailures.empty, ValidateFailures.empty, WriteFailures.empty]
  cases s.commFail <;> cases a <;> cases b <;> cases c <;> cases d <;> cases e <;> cases f <;> decide

/-- The handler leaves `CURSOR`, the parameters and the line (R205). -/
theorem errorHandler_frame (s : State) : (errorHandler s).cursor = s.cursor ∧ (errorHandler s).cfg = s.cfg ∧ (errorHandler s).env.line = s.env.line := by
  unfold errorHandler
  simp only
  split <;> simp

/-- So does the classification (R203). -/
theorem classify_frame (s : State) : (classify s).cursor = s.cursor ∧ (classify s).cfg = s.cfg ∧ (classify s).env.line = s.env.line := by
  have := errorHandler_frame (escalateIfFlash s)
  simpa [classify] using this

/-- A whole packet on the wire, whatever the environment answers: it is accepted or it is not (R199 to R203). -/
theorem receiveUnit_spec {s : State} {n : Nat} {hdr seqB cmpB high low : Byte} {payload : List Byte} {k : HeaderKind}
    (hst : s.state = .awaitHeader) (hk : headerKind (some hdr) = k) (hn : payloadSize k = some n)
    (hp : payload.length = n) (hok : s.cfg.Ok) (hw : legalWrite s.cfg s.cursor) :
    ∃ t, receiveUnit (hdr :: seqB :: cmpB :: (payload ++ [high, low])) s = .next t ∧ t.cfg = s.cfg ∧ t.env.line = s.env.line ∧
      sameArrayOutside s.cfg.appBase.toNat s.cfg.appEnd.toNat s t ∧
      (t.cursor = s.cursor ∨
        (t.state = .awaitHeader ∧ t.seq = s.seq + 1 ∧ t.errCnt = 0 ∧ t.erased = true ∧ t.lock = true ∧
          sentBytes t.trace = sentBytes s.trace ++ [wireAck] ∧
          t.cursor.toNat = s.cursor.toNat + n ∧ t.cursor.toNat ≤ s.cfg.appEnd.toNat ∧
          (∀ j b, payload[j]? = some b → t.nvm.read (s.cursor.toNat + j) = b) ∧
          ∀ a, a < s.cursor.toNat ∨ s.cursor.toNat + n ≤ a → s.cfg.appBase.toNat ≤ a → a < s.cfg.appEnd.toNat →
            t.nvm.read a = if s.erased = true then s.nvm.read a else s.cfg.erasedByte)) ∧
      (seqB = s.seq → cmpB = complement seqB → crc16 payload = assembleCrc high low →
        s.cursor.toNat + n ≤ s.cfg.appEnd.toNat →
        (s.erased = false → ∃ rest, s.env.eraseAnswers = List.replicate (pageCount s.cfg s.cfg.appBase) .ok ++ rest) →
        (∃ rest, s.env.programAnswers = List.replicate (n / 4) ⟨.ok, none⟩ ++ rest) → t.cursor ≠ s.cursor) := by
  obtain ⟨trace, read, hm, hs, hread, h⟩ := receiveUnit_arrives (seqB := seqB) (cmpB := cmpB) (high := high) (low := low) hst hk hn hp
  have hN : n = 128 ∨ n = 1024 := packetSize_cases (s := read) (by rw [← hn, hread]; rfl)
  have r1 : read.cfg = s.cfg := by rw [hread]
  have r2 : read.eFail = .empty := by rw [hread]
  have r3 : read.packetSize = some n := by rw [← hn, hread]; rfl
  have r4 : read.cursor = s.cursor := by rw [hread]
  have r5 : read.nvm = s.nvm := by rw [hread]
  have r6 : read.erased = s.erased := by rw [hread]
  have r7 : read.payloadBytes n = payload := by rw [hread]; exact (storePayload_take _ hp (by omega)).1
  have r8 : read.seqB = seqB := by rw [hread]
  have r9 : read.cmpB = cmpB := by rw [hread]
  have r10 : read.rxCrc = assembleCrc high low := by rw [hread]
  have r11 : read.seq = s.seq := by rw [hread]
  have r12 : read.commFail = false := by rw [hread]
  have r13 : read.env = s.env := by rw [hread]
  have r14 : read.trace = trace := by rw [hread]
  have r15 : read.vFail = .empty ∧ read.pFail = .empty := by rw [hread]; exact ⟨rfl, rfl⟩
  rw [h]
  clear h hread
  obtain ⟨ready, e1, a1, a2, a3, a4, a5, a6, a7, a8, a9, a10, a11, a12, a13, a14, a15, a16, a17, -⟩ := eraseStep_spec (s := read) (r1 ▸ hok) r2
  rw [e1, andThen_next]
  have p1 : ready.packetSize = some n := by rw [packetSize_congr a4.1, r3]
  have p2 : ready.payloadBytes n = payload := by rw [← r7]; unfold State.payloadBytes; rw [a4.2.2.2.1]
  have hr : ∃ done, (if validateDue ready then validateWriteStep n ready else .next ready) = .next done ∧ 
      done.seq = s.seq ∧ done.cursor = s.cursor ∧ done.cfg = s.cfg ∧ done.env.line = s.env.line ∧ done.commFail = false ∧
      sentBytes done.trace = sentBytes s.trace ∧ sameArrayOutside s.cfg.appBase.toNat s.cfg.appEnd.toNat s done ∧
      (done.failures.isEmpty = true → done.erased = true ∧ done.lock = true ∧ s.cursor.toNat + n ≤ s.cfg.appEnd.toNat ∧
        (∀ j b, payload[j]? = some b → done.nvm.read (s.cursor.toNat + j) = b) ∧
        ∀ a, a < s.cursor.toNat ∨ s.cursor.toNat + n ≤ a → s.cfg.appBase.toNat ≤ a → a < s.cfg.appEnd.toNat →
            done.nvm.read a = if s.erased = true then s.nvm.read a else s.cfg.erasedByte) ∧
      (seqB = s.seq → cmpB = complement seqB → crc16 payload = assembleCrc high low →
        s.cursor.toNat + n ≤ s.cfg.appEnd.toNat →
        (s.erased = false → ∃ rest, s.env.eraseAnswers = List.replicate (pageCount s.cfg s.cfg.appBase) .ok ++ rest) →
        (∃ rest, s.env.programAnswers = List.replicate (n / 4) ⟨.ok, none⟩ ++ rest) → done.failures.isEmpty = true) := by
    have hout : sameArrayOutside s.cfg.appBase.toNat s.cfg.appEnd.toNat s ready := by
      intro a ha; rw [← r5]; rw [r1] at a15; exact a15 a ha
    by_cases hE : ready.eFail = .empty
    · have hd : validateDue ready = true := by unfold validateDue; rw [a6, r12, hE]; rfl
      rw [if_pos hd]
      obtain ⟨done, e2, b1, b2, b3, b4, b5, b6, b7, b8, b9, b10, b11, b12, b13, b14⟩ := validateWriteStep_spec (s := ready) p1 (by rw [a9, r1]; exact hok) (by rw [a9, r1, a2, r4]; exact hw)
      rw [p2] at b11 b13
      rw [a2, r4, a9, r1] at b12 b13 b14
      refine ⟨done, e2, by rw [b1.1, a1, r11], by rw [b1.2.1, a2, r4], by rw [b6, a9, r1], by rw [b7, a10, r13], by rw [b4, a6, r12], by rw [b8, a12, r14, hs], ?_, ?_, ?_⟩
      · intro a ha
        rw [b12 a (by have := hw.2; omega)]; exact hout a ha
      · intro hem
        obtain ⟨_, _, hv, hpf⟩ := (failures_isEmpty_iff done).1 hem
        obtain ⟨c1, c2⟩ := b13 hv hpf
        refine ⟨by rw [b1.2.2.1]; exact (a16 hE).1, b10 hv, c1, c2, fun a ha hlo hhi => ?_⟩
        rw [b12 a (by omega)]
        have := (a16 hE).2 a (by rw [r1]; exact hlo) (by rw [r1]; exact hhi)
        rw [this, r6, r5, r1]
      · rintro h1 h2 h3 h4 h5 ⟨rest, h6⟩
        have hv : done.vFail = .empty := by
          rw [b11, a4.2.1, r8, a4.2.2.1, r9, a4.2.2.2.2, r10, a1, r11]
          simp only [validateFailures, ValidateFailures.empty, sequenceExpected, crcMatches, h1, h3, beq_self_eq_true]
          have : complementMatches s.seq cmpB = true := by
            rw [h2, h1]; unfold complementMatches complement
            have : ∀ x : Byte, (x.setWidth 9 + (255 - x).setWidth 9 == 255#9) = true := by decide
            exact this _
          rw [this]; rfl
        exact (failures_isEmpty_iff done).2 ⟨by rw [b4, a6, r12], by rw [b5, hE], hv, b14 hv h4 ⟨rest, by rw [a11, r13, h6]⟩⟩
    · have hd : ¬validateDue ready = true := by unfold validateDue; simp [hE]
      rw [if_neg hd]
      refine ⟨ready, rfl, by rw [a1, r11], by rw [a2, r4], by rw [a9, r1], by rw [a10, r13], by rw [a6, r12], by rw [a12, r14, hs], hout, fun hem => absurd ((failures_isEmpty_iff ready).1 hem).2.1 hE, ?_⟩
      intro _ _ _ _ h5 _
      exact absurd (a17 (by rw [r6, r13, r1]; exact h5)) hE
  obtain ⟨done, e2, d1, d2, d3, d4, d5, d6, d7, d8, d9⟩ := hr
  rw [e2, andThen_next]
  by_cases hem : done.failures.isEmpty = true
  · rw [if_pos hem]
    obtain ⟨q1, q2, q3, q4, q5⟩ := d8 hem
    have hc : (s.cursor + BitVec.ofNat 32 n).toNat = s.cursor.toNat + n := by
      have := s.cfg.appEnd.isLt
      rw [BitVec.toNat_add, BitVec.toNat_ofNat]
      omega
    refine ⟨_, rfl, by simp [accept, d3], by simp [accept, commitPacket, d4], fun a ha => by simpa [accept] using d7 a ha, .inr ?_, ?_⟩
    · refine ⟨rfl, by simp [accept, d1], rfl, by simp [accept, q1], by simp [accept, q2], by simp [accept, d6], ?_, ?_, by simpa [accept] using q4, by simpa [accept] using q5⟩
      · simp only [accept, enter_cursor, transmit_cursor, commitPacket_cursor, d2, hc]
      · simp only [accept, enter_cursor, transmit_cursor, commitPacket_cursor, d2, hc]; omega
    · intros
      simp only [accept, enter_cursor, transmit_cursor, commitPacket_cursor, d2]
      intro hh
      rw [hh] at hc; omega
  · rw [if_neg hem]
    obtain ⟨c1, c2, c3⟩ := classify_frame done
    refine ⟨_, rfl, by rw [c2, d3], by rw [c3, d4], fun a ha => by rw [(classify_nvm done).1]; exact d7 a ha, .inl (by rw [c1, d2]), fun h1 h2 h3 h4 h5 h6 => absurd (d9 h1 h2 h3 h4 h5 h6) hem⟩

/-- The handler counts once (R205). -/
theorem errorHandler_counts {s : State} (h : s.errCnt.toNat < 255) : countedOnce s (errorHandler s) := by
  have h1 : (s.errCnt + 1).toNat = s.errCnt.toNat + 1 := by rw [BitVec.toNat_add]; simp; omega
  have h2 : thresholdReached (countError s) = decide (s.cfg.xMaxErrors.toNat ≤ s.errCnt.toNat + 1) := by
    simp only [thresholdReached, countError_cfg, countError_errCnt, h1]
  by_cases hc : s.cfg.xMaxErrors.toNat ≤ s.errCnt.toNat + 1
  · obtain ⟨l, f, r, tr, e, hs, -⟩ := errorHandler_aborts (s := s) (by rw [h2]; simpa using hc)
    rw [e]
    exact ⟨h1, fun h => absurd hc (by omega), fun _ => ⟨rfl, hs⟩⟩
  · obtain ⟨l, f, r, tr, e, hs, -⟩ := errorHandler_returns (s := s) (by rw [h2]; simpa using hc)
    rw [e]
    exact ⟨h1, fun _ => ⟨rfl, hs⟩, fun h => absurd h hc⟩

/-- What the handler leaves alone (R205). -/
theorem errorHandler_same (s : State) :
    sameRegisters { s with errCnt := (errorHandler s).errCnt } (errorHandler s) ∧ noMemoryCall s (errorHandler s) := by
  cases h : thresholdReached (countError s)
  · obtain ⟨l, f, r, tr, e, -, hm⟩ := errorHandler_returns h
    rw [e]
    exact ⟨⟨⟨rfl, rfl, rfl, rfl⟩, ⟨rfl, rfl, rfl, rfl, rfl⟩, ⟨rfl, rfl, rfl, rfl⟩, ⟨rfl, rfl, rfl, rfl⟩, fun _ => rfl, rfl⟩, hm⟩
  · obtain ⟨l, f, r, tr, e, -, hm⟩ := errorHandler_aborts h
    rw [e]
    exact ⟨⟨⟨rfl, rfl, rfl, rfl⟩, ⟨rfl, rfl, rfl, rfl, rfl⟩, ⟨rfl, rfl, rfl, rfl⟩, ⟨rfl, rfl, rfl, rfl⟩, fun _ => rfl, rfl⟩, hm⟩

end Sys2Proof.Laws
end

