-- ==== Sys2Proof/Laws/PerInstr.lean ====
section
/-! SUPPORT. Laws made per instruction: how long the wire unit of an operation is (30_encoding.md R81 to R84, R97). -/

namespace Sys2Proof.Laws.UnitLength

/-- An operation the host can send is 1 byte long, but for the packets, which are 133 and 1029 bytes long. -/
def Statement (i : Instr) : Prop :=
  i.wellFormed = true → ∀ unit, encode i = some unit →
    unit.length = match i with
      | .pkt128 _ _ _ _ _ => 133
      | .pkt1k _ _ _ _ _ => 1029
      | _ => 1

theorem soh : Statement .soh := fun _ _ h => by cases h; rfl

theorem stx : Statement .stx := fun _ _ h => by cases h; rfl

theorem eot : Statement .eot := fun _ _ h => by cases h; rfl

theorem can : Statement .can := fun _ _ h => by cases h; rfl

theorem hdrOther (header : Byte) : Statement (.hdrOther header) := fun _ _ h => by cases h; rfl

theorem hdrNone : Statement .hdrNone := fun _ _ h => by cases h

theorem hdrNoneErased : Statement .hdrNoneErased := fun _ _ h => by cases h

theorem pkt128 (seqB : Byte) (cmpB : Byte) (payload : List Byte) (crcH : Byte) (crcL : Byte) : Statement (.pkt128 seqB cmpB payload crcH crcL) :=
  fun hw _ h => by
  cases h
  have : payload.length = 128 := beq_iff_eq.1 hw
  simp [this]

theorem pkt1k (seqB : Byte) (cmpB : Byte) (payload : List Byte) (crcH : Byte) (crcL : Byte) : Statement (.pkt1k seqB cmpB payload crcH crcL) :=
  fun hw _ h => by
  cases h
  have : payload.length = 1024 := beq_iff_eq.1 hw
  simp [this]

theorem txProbeC : Statement .txProbeC := fun _ _ h => by cases h

theorem txAck : Statement .txAck := fun _ _ h => by cases h

theorem txAckEot : Statement .txAckEot := fun _ _ h => by cases h

theorem txNak : Statement .txNak := fun _ _ h => by cases h

theorem txCanCan : Statement .txCanCan := fun _ _ h => by cases h

theorem crcByte (c : CrcWord) (b : Byte) : Statement (.crcByte c b) := fun _ _ h => by cases h

theorem crc16 (data : List Byte) : Statement (.crc16 data) := fun _ _ h => by cases h

theorem erase (start : Addr) : Statement (.erase start) := fun _ _ h => by cases h

theorem write (addr : Addr) (words : List NvmWord) : Statement (.write addr words) := fun _ _ h => by cases h

theorem validate (seqB : Byte) (cmpB : Byte) (payload : List Byte) (rxCrc : CrcWord) (expected : Byte) : Statement (.validate seqB cmpB payload rxCrc expected) :=
  fun _ _ h => by cases h

theorem readHeader : Statement .readHeader := fun _ _ h => by cases h

theorem readPacket (n : Nat) : Statement (.readPacket n) := fun _ _ h => by cases h

theorem invoke : Statement .invoke := fun _ _ h => by cases h

theorem awaitHeaderStep : Statement .awaitHeaderStep := fun _ _ h => by cases h

theorem receivePacketStep : Statement .receivePacketStep := fun _ _ h => by cases h

theorem eraseStep : Statement .eraseStep := fun _ _ h => by cases h

theorem validateWriteStep : Statement .validateWriteStep := fun _ _ h => by cases h

theorem accept : Statement .accept := fun _ _ h => by cases h

theorem classify : Statement .classify := fun _ _ h => by cases h

theorem errorHandler : Statement .errorHandler := fun _ _ h => by cases h

theorem appJump : Statement .appJump := fun _ _ h => by cases h

theorem returnToCaller : Statement .returnToCaller := fun _ _ h => by cases h

theorem nvmUnlock : Statement .nvmUnlock := fun _ _ h => by cases h

theorem nvmLock : Statement .nvmLock := fun _ _ h => by cases h

theorem nvmErasePage (a : Addr) : Statement (.nvmErasePage a) := fun _ _ h => by cases h

theorem nvmProgramWord (a : Addr) (w : NvmWord) : Statement (.nvmProgramWord a w) := fun _ _ h => by cases h

theorem nvmReadWord (a : Addr) : Statement (.nvmReadWord a) := fun _ _ h => by cases h

theorem receive (n : Nat) : Statement (.receive n) := fun _ _ h => by cases h

theorem transmit (b : Byte) : Statement (.transmit b) := fun _ _ h => by cases h

theorem transmitText (text : List Byte) : Statement (.transmitText text) := fun _ _ h => by cases h

end Sys2Proof.Laws.UnitLength
end

