-- ==== Sys2Proof/Machine/Script.lean ====
section
/-! DEFINITION. The spec's script notation (30_encoding.md R98, R99): what the outside does in a run, written as lines, and
the state a run of those lines starts from. The `expect` lines are claims about a run and are no part of it (log 25). -/

namespace Sys2Proof.Machine

/-- `NAME=value` of a `cfg` line (R7, R98). -/
inductive Setting where
  | appBase (v : Addr)
  | appEnd (v : Addr)
  | pageSize (v : Nat)
  | erasedByte (v : Byte)
  | xMaxErrors (v : Byte)
  | tRx (v : Nat)
  | noticeComplete (v : List Byte)
  | noticeAbort (v : List Byte)
  | writeFailStops (v : Bool)
  | eraseOnCommError (v : Bool)
deriving DecidableEq, Repr

/-- The parameters with one of them fixed. -/
def Setting.apply (c : Config) : Setting → Config
  | .appBase v => { c with appBase := v }
  | .appEnd v => { c with appEnd := v }
  | .pageSize v => { c with pageSize := v }
  | .erasedByte v => { c with erasedByte := v }
  | .xMaxErrors v => { c with xMaxErrors := v }
  | .tRx v => { c with tRx := v }
  | .noticeComplete v => { c with noticeComplete := v }
  | .noticeAbort v => { c with noticeAbort := v }
  | .writeFailStops v => { c with writeFailStops := v }
  | .eraseOnCommError v => { c with eraseOnCommError := v }

/-- A line of a script (R98), the pseudo-operations included (R99). -/
inductive ScriptLine where
  | cfg (settings : List Setting)
  | invoke
  | rx (bytes : List Byte)
  | quiet
  | eraseFail (call : Nat)
  | prog (call : Nat) (status : Status) (leave : Option NvmWord)
  | txFail (call : Nat)
  /-- `crc`: the CRC bytes that replace the computed ones -/
  | pkt128 (seqB cmpB : Byte) (payload : List Byte) (crc : Option CrcWord)
  | pkt1k (seqB cmpB : Byte) (payload : List Byte) (crc : Option CrcWord)
  | eot
  | can
deriving DecidableEq, Repr

/-- The CRC bytes of a packet of a script, high byte first (R99). -/
def scriptCrc (payload : List Byte) (crc : Option CrcWord) : List Byte :=
  let c := crc.getD (crc16 payload)
  [c.extractLsb' 8 8, c.extractLsb' 0 8]

/-- What a line puts on the serial line (R98, R99). -/
def ScriptLine.onLine : ScriptLine → List LineItem
  | .rx bytes => bytes.map .byte
  | .quiet => [.quiet]
  | .pkt128 s c payload crc => (wireSoh :: s :: c :: (payload ++ scriptCrc payload crc)).map .byte
  | .pkt1k s c payload crc => (wireStx :: s :: c :: (payload ++ scriptCrc payload crc)).map .byte
  | .eot => [.byte wireEot]
  | .can => [.byte wireCan]
  | .cfg _ | .invoke | .eraseFail _ | .prog _ _ _ | .txFail _ => []

/-- The parameters a script fixes, from those it starts with. -/
def scriptConfig (base : Config) (script : List ScriptLine) : Config :=
  script.foldl (fun c line => match line with
    | .cfg settings => settings.foldl Setting.apply c
    | .invoke | .rx _ | .quiet | .eraseFail _ | .prog _ _ _ | .txFail _ | .pkt128 _ _ _ _ | .pkt1k _ _ _ _
    | .eot | .can => c) base

/-- The answer of the `k`-th `NvmProgramWord`: as its line says, else `ok` with the word given (R98). -/
def scriptProgram (script : List ScriptLine) (k : Nat) : ProgramAnswer :=
  (script.findSome? fun line => match line with
    | .prog call status leave => if call = k then some ⟨status, leave⟩ else none
    | .cfg _ | .invoke | .rx _ | .quiet | .eraseFail _ | .txFail _ | .pkt128 _ _ _ _ | .pkt1k _ _ _ _
    | .eot | .can => none).getD ⟨.ok, none⟩

/-- The environment of a script, its answers written out for the first `calls` calls of each primitive; a call no line
names reports `ok` (R98). -/
def scriptEnvironment (calls : Nat) (script : List ScriptLine) : Environment where
  line := script.flatMap ScriptLine.onLine
  eraseAnswers := (List.range calls).map fun k => if ScriptLine.eraseFail k ∈ script then .fail else .ok
  programAnswers := (List.range calls).map (scriptProgram script)
  transmitAnswers := (List.range calls).map fun k => if ScriptLine.txFail k ∈ script then .fail else .ok
  textAnswers := List.replicate calls .ok
  invokes := script.count .invoke
  resetIn := none
  resetGaps := []

/-- The state a script starts from: after hardware reset, with the script's parameters and environment and the retained
array `nvm`. -/
def scriptStart (base : Config) (calls : Nat) (nvm : Memory) (script : List ScriptLine) : State :=
  State.resetWith (scriptConfig base script) (scriptEnvironment calls script) nvm

end Sys2Proof.Machine
end

