-- ==== Sys2Proof/Tests/Slice0.lean ====
section
/-! SUPPORT. Tests and witnesses. Expected values come from the spec: the vectors of 95_test_vectors.md are cited by their
id, everything else by its rule. -/

namespace Sys2Proof.Tests

open Sys2Proof Sys2Proof.Machine Sys2Proof.Laws

/-! ### Small states -/

/-- R-2: invoked, waiting for a header, with the spec's EX1. -/
def awaiting : State := { State.reset with state := .awaitHeader, seq := 1, cursor := 0x08002000#32 }

/-- Receiving a short packet. -/
def receiving : State := { awaiting with state := .receivePacket, hdrKind := .shortData }

/-- The memory unlocked. -/
def unlocked : State := { awaiting with lock := false }

/-- `s` with these bytes on the line. -/
def heard (bytes : List Byte) (s : State) : State := { s with env := { s.env with line := bytes.map .byte } }

/-- `s` with a host that stays silent for the next `k` calls. -/
def silence (k : Nat) (s : State) : State := { s with env := { s.env with line := List.replicate k .quiet } }

/-- `s` with these answers of the erase primitive. -/
def erases (answers : List Status) (s : State) : State := { s with env := { s.env with eraseAnswers := answers } }

/-- `s` with these answers of the program primitive. -/
def programs (answers : List ProgramAnswer) (s : State) : State :=
  { s with env := { s.env with programAnswers := answers } }

/-- The spec's EX2: two pages. -/
def exampleTwo : Config := { Config.exampleOne with appEnd := 0x08002100#32 }

/-- `s` with EX2. -/
def small (s : State) : State := { s with cfg := exampleTwo }

/-- The outcome is a next state with the property. -/
def after (o : Out) (p : State → Bool) : Bool :=
  match o with
  | .next t => p t
  | .fault _ | .refused _ => false

/-! ### WellFormed refuses ill-formed terms -/

theorem test_wellFormed_hdrOther : (Instr.hdrOther 0x01#8).wellFormed = false ∧ (Instr.hdrOther 0x18#8).wellFormed = false ∧
    (Instr.hdrOther 0x03#8).wellFormed = true := by decide
theorem test_wellFormed_pkt128 : (Instr.pkt128 1#8 0xFE#8 [0xFF#8] 0#8 0#8).wellFormed = false := by decide
theorem test_wellFormed_pkt1k :
    (Instr.pkt1k 1#8 0xFE#8 (List.replicate 16 0xFF#8) 0#8 0#8).wellFormed = false := by decide
theorem test_wellFormed_validate : (Instr.validate 1#8 0xFE#8 [] 0#16 1#8).wellFormed = false := by decide
theorem test_wellFormed_readPacket : (Instr.readPacket 127).wellFormed = false ∧ (Instr.readPacket 1024).wellFormed = true := by
  decide
theorem test_wellFormed_receive : (Instr.receive 0).wellFormed = false ∧ (Instr.receive 1).wellFormed = true := by decide

/-! ### Decode: words written out from R80, R82, R83; the codes of R94 and R96 -/

theorem test_decode_soh : decode [0b00000001#8] = .instr .soh [] := by decide
theorem test_decode_stx : decode [0b00000010#8] = .instr .stx [] := by decide
theorem test_decode_eot : decode [0b00000100#8, 0xAA#8] = .instr .eot [0xAA#8] := by decide
theorem test_decode_can : decode [0b00011000#8, 0b00011000#8] = .instr .can [0x18#8] := by decide
theorem test_decode_hdrOther : decode [0b00000110#8] = .instr (.hdrOther 0x06#8) [] := by decide
theorem test_decode_hdrNone : decodeHeader none = .hdrNone ∧ decode [] = .rejected .noByte := by decide
/-- Scenario A's wire bytes `01 01 FE`, `FF` 128 times, `ED A9` (S-7). -/
theorem test_decode_pkt128 : decode (0x01#8 :: 0x01#8 :: 0xFE#8 :: (List.replicate 128 0xFF#8 ++ [0xED#8, 0xA9#8])) =
    .instr (.pkt128 0x01#8 0xFE#8 (List.replicate 128 0xFF#8) 0xED#8 0xA9#8) [] :=
  decode_pkt128 _ _ _ _ [] List.length_replicate
/-- Of a long packet (R83), with the CRC of C-20. -/
theorem test_decode_pkt1k : decode (0x02#8 :: 0x01#8 :: 0xFE#8 :: (List.replicate 1024 0xFF#8 ++ [0xC0#8, 0x84#8])) =
    .instr (.pkt1k 0x01#8 0xFE#8 (List.replicate 1024 0xFF#8) 0xC0#8 0x84#8) [] :=
  decode_pkt1k _ _ _ _ [] List.length_replicate
theorem test_decode_truncated : decode [0x01#8, 0x01#8, 0xFE#8] = .rejected .truncatedPacket := by decide
theorem test_decodeTableWord : decodeTableWord 8 0x01 = some .soh ∧ decodeTableWord 8 0x02 = some .stx ∧
    decodeTableWord 8 0x04 = some .eot ∧ decodeTableWord 8 0x18 = some .can ∧
    decodeTableWord 8 0x55 = some (.hdrOther 0x55#8) ∧ decodeTableWord 0 0 = some .hdrNone := by decide
theorem test_state_codes : [EngineState.idle, .awaitHeader, .receivePacket, .terminalSuccess, .terminalAbort].map
    EngineState.code = [0, 1, 2, 3, 4] := by decide
theorem test_kind_codes : [HeaderKind.none, .shortData, .longData, .endOfTransmission, .cancel, .unrecognized].map
    headerKindCode = [0, 1, 2, 3, 4, 5] := by decide
/-- R61: the bytes 01 02 03 04 are the number 0x04030201. -/
theorem test_word_value : NvmWord.value ⟨1#8, 2#8, 3#8, 4#8⟩ = 0x04030201#32 ∧
    NvmWord.ofValue 0x04030201#32 = ⟨1#8, 2#8, 3#8, 4#8⟩ := by decide
/-- F-13. -/
theorem test_assembleCrc : assembleCrc 0x12#8 0x56#8 = 0x1256#16 := by decide

/-! ### A step fetches and runs the header on the line -/

theorem test_fetch_soh : after (step (State.reset.withFetchWord 8 0x01)) (fun t => t.state == .receivePacket) = true := by
  decide
theorem test_fetch_can : after (step (State.reset.withFetchWord 8 0x18)) (fun t => t.state == .terminalAbort) = true := by
  decide
theorem test_fetch_none : after (step (State.reset.withFetchWord 0 0)) (fun t => t.pos == .probe) = true := by decide
/-- R9, R199: the header's step leaves no failure flag of the packet before, ahead of the first `Receive`. -/
theorem test_data_header_clears_flags :
    after (step { heard [0x02#8] awaiting with commFail := true, vFail := ⟨true, true⟩, pFail := ⟨false, true, false⟩ })
      (fun t => t.state == .receivePacket && t.failures.isEmpty && t.trace.length == 1) = true := by decide
/-- From reset the first step is the caller's `Invoke` (R190, R191). -/
theorem test_first_step : after (step State.reset) (fun t => t.trace == [.invoke] && t.state == .awaitHeader) = true := by
  decide

/-! ### Integrity Codec -/

/-- B-9 and B-11. -/
theorem test_crcByte : after (exec (.crcByte 0x58E5#16 0x42#8) State.reset) (fun t => t.crc == 0x567B#16) = true ∧
    crcByte 0x1234#16 0x56#8 = 0x3C40#16 := by decide
/-- C-13. -/
theorem test_crc16 : after (exec (.crc16 [0x31#8, 0x32#8, 0x33#8, 0x34#8, 0x35#8, 0x36#8, 0x37#8, 0x38#8, 0x39#8])
    State.reset) (fun t => t.crc == 0x31C3#16) = true := by decide +kernel
/-- C-11 and C-17: the CRC bytes in the wrong order leave no residue. -/
theorem test_crc16_order : crc16 [0xFF#8, 0xFF#8] = 0x1D0F#16 ∧
    crc16 [0x31#8, 0x32#8, 0x33#8, 0x34#8, 0x35#8, 0x36#8, 0x37#8, 0x38#8, 0x39#8, 0xC3#8, 0x31#8] = 0xBAFE#16 := by
  decide +kernel

/-- C-19, C-21: a buffer of zero bytes has CRC 0 (R117). -/
theorem test_crc16_zeros (n : Nat) : crc16 (List.replicate n 0x00#8) = 0x0000#16 := by
  have h : crcByte 0x0000#16 0x00#8 = 0x0000#16 := by decide
  unfold crc16
  induction n with
  | zero => rfl
  | succ n ih => rw [List.replicate_succ, List.foldl_cons, h, ih]

/-! ### Packet Validator -/

/-- V-10 with check 2 failing as in V-9: equal bytes never pass; the CRC is right. -/
theorem test_validate_complement : (validateFailures 0x80#8 0x80#8 (List.replicate 128 0x00#8) 0x0000#16 128#8) =
    ⟨true, false⟩ := by
  unfold validateFailures crcMatches
  rw [test_crc16_zeros]
  decide
/-- V-8's bytes with the zero payload and a wrong CRC. -/
theorem test_validate_crc : after (exec (.validate 0xFF#8 0x00#8 [0x00#8, 0x00#8] 0x0001#16 255#8) State.reset)
    (fun t => t.vFail == ⟨false, true⟩ && t.crc == 0x0000#16) = true := by decide +kernel

/-! ### Packet Framer and transport -/

/-- F-6: ACK is no header. -/
theorem test_readHeader_other : after (exec .readHeader (heard [0x06#8] awaiting)) (fun t => t.hdrKind == .unrecognized) = true := by
  decide
/-- F-1. -/
theorem test_readHeader_none : after (exec .readHeader (silence 1 receiving)) (fun t => t.hdrKind == .none) = true := by decide
/-- F-9 to F-12: `READ_PACKET` makes all four reads although the first fails (R177). -/
theorem test_readPacket_all_reads : after (exec (.readPacket 128) (silence 4 receiving))
    (fun t => t.commFail && t.env.line == [] && t.trace.length == 4) = true := by decide
/-- F-12: a short read of two bytes loses the byte taken (R174). -/
theorem test_receive_short : after (exec (.receive 2)
    { awaiting with env := { awaiting.env with line := [.byte 0xED#8, .quiet, .byte 0xA9#8] } })
    (fun t => t.ret == .received .fail && t.env.line == [.byte 0xA9#8]) = true := by decide
theorem test_receive_order : after (exec (.receive 2) (heard [0xED#8, 0xA9#8, 0x04#8] awaiting))
    (fun t => t.ret == .received (.ok [0xED#8, 0xA9#8]) && t.env.line == [.byte 0x04#8]) = true := by decide
/-- R172: a failed transmit puts its byte on the line; the host does not get it. -/
theorem test_transmit_lost : after (exec (.transmit 0x06#8)
    { awaiting with env := { awaiting.env with transmitAnswers := [.fail] } })
    (fun t => t.ret == .status .fail && sentBytes t.trace == [0x06#8] && reachedBytes t.trace == []) = true := by decide
theorem test_transmitText_order : after (exec (.transmitText [0x4F#8, 0x4B#8]) awaiting)
    (fun t => sentBytes t.trace == [0x4F#8, 0x4B#8]) = true := by decide
/-- R91. -/
theorem test_emissions : after (exec .txProbeC awaiting) (fun t => sentBytes t.trace == [0x43#8]) = true ∧
    after (exec .txAck awaiting) (fun t => sentBytes t.trace == [0x06#8]) = true ∧
    after (exec .txNak awaiting) (fun t => sentBytes t.trace == [0x15#8]) = true := by decide
/-- R91, with notices `C0` and `A0`. -/
theorem test_emissions_notices :
    after (exec .txAckEot { awaiting with cfg := { Config.exampleOne with noticeComplete := [0xC0#8] } })
      (fun t => sentBytes t.trace == [0x06#8, 0xC0#8]) = true ∧
    after (exec .txCanCan { awaiting with cfg := { Config.exampleOne with noticeAbort := [0xA0#8] } })
      (fun t => sentBytes t.trace == [0x18#8, 0x18#8, 0xA0#8]) = true := by decide

/-! ### Memory primitives -/

theorem test_nvmUnlock : after (exec .nvmUnlock awaiting) (fun t => !t.lock) = true := by decide
theorem test_nvmLock : after (exec .nvmLock unlocked) (fun t => t.lock) = true := by decide
/-- R54: the page, and nothing beside it, holds ERASED_BYTE. -/
theorem test_nvmErasePage : after (exec (.nvmErasePage 0x08002080#32)
    (erases [.ok] { unlocked with nvm := [(0x0800207F, 1#8), (0x08002080, 2#8), (0x080020FF, 3#8), (0x08002100, 4#8)] }))
    (fun t => t.nvm == [(0x0800207F, 1#8), (0x08002100, 4#8)]) = true := by decide +kernel
/-- R55: status and contents are drawn separately. -/
theorem test_nvmProgramWord : after (exec (.nvmProgramWord 0x080027FC#32 ⟨1#8, 2#8, 3#8, 4#8⟩)
    (programs [⟨.ok, some ⟨1#8, 2#8, 0#8, 4#8⟩⟩] unlocked))
    (fun t => t.ret == .status .ok && t.nvm == [(0x080027FC, 1#8), (0x080027FD, 2#8), (0x080027FF, 4#8)]) = true := by decide
/-- R58: the last word of the region is legal, the next is not, nor is a locked program. -/
theorem test_primitive_edges : exec (.nvmProgramWord 0x08002800#32 ⟨1#8, 2#8, 3#8, 4#8⟩) unlocked =
      .refused .primitivePrecondition ∧
    exec (.nvmProgramWord 0x08002000#32 ⟨1#8, 2#8, 3#8, 4#8⟩) awaiting = .refused .primitivePrecondition ∧
    exec (.nvmReadWord 0x08002001#32) awaiting = .refused .primitivePrecondition := ⟨rfl, rfl, rfl⟩
theorem test_nvmReadWord : after (exec (.nvmReadWord 0x08002004#32)
    { awaiting with nvm := [(0x08002004, 0xAA#8), (0x08002007, 0xBB#8)] })
    (fun t => t.ret == .word ⟨0xAA#8, 0#8, 0#8, 0xBB#8⟩) = true := by decide

/-! ### Memory Programmer -/

/-- ER-5. -/
theorem test_erase_refused : exec (.erase 0x08002040#32) awaiting = .refused .illegalErase ∧
    exec (.erase 0x08001F80#32) awaiting = .refused .illegalErase := ⟨rfl, rfl⟩
/-- ER-2 in EX2: page 0 fails, page 1 is not visited. -/
theorem test_erase_stops : after (exec (.erase 0x08002000#32)
    (erases [.fail, .ok] (small awaiting)))
    (fun t => t.eFail == ⟨true⟩ && t.lock && t.env.eraseAnswers == [.ok] &&
      t.trace == [.nvmLock, .nvmErasePage 0x08002000#32 .fail, .nvmUnlock]) = true := by decide +kernel
/-- W-7: a silent failure is caught at its word. -/
theorem test_write_silent : after (exec (.write 0x08002010#32 [⟨0x10#8, 0x11#8, 0x12#8, 0x13#8⟩,
      ⟨0x14#8, 0x15#8, 0x16#8, 0x17#8⟩, ⟨0x18#8, 0x19#8, 0x1A#8, 0x1B#8⟩])
    (programs [⟨.ok, none⟩, ⟨.ok, some ⟨0x14#8, 0x15#8, 0x16#8, 0x07#8⟩⟩] awaiting))
    (fun t => t.pFail == ⟨false, false, true⟩ && t.pAddr == 0x08002014#32 && t.lock &&
      t.nvm.readWord 0x08002014 == ⟨0x14#8, 0x15#8, 0x16#8, 0x07#8⟩ &&
      t.nvm.readWord 0x08002018 == ⟨0#8, 0#8, 0#8, 0#8⟩) = true := by decide +kernel
/-- W-8 at its end: the last word of the region fails but reads back, the next does not fit. -/
theorem test_write_too_large : after (exec (.write 0x080020FC#32 [⟨1#8, 2#8, 3#8, 4#8⟩, ⟨5#8, 6#8, 7#8, 8#8⟩])
    (programs [⟨.fail, none⟩] { awaiting with cfg := { exampleTwo with writeFailStops := false } }))
    (fun t => t.pFail == ⟨true, true, false⟩ && t.pAddr == 0x08002100#32) = true := by decide +kernel

/-! ### Receive Engine -/

/-- R-2. -/
theorem test_invoke : after (exec .invoke State.reset) (fun t => t.seq == 1#8 && t.cursor == 0x08002000#32 && !t.erased &&
    t.errCnt == 0#8 && t.lock && sentBytes t.trace == []) = true := by decide
/-- R-5. -/
theorem test_invoke_refused : exec .invoke awaiting = .refused .invokeRefused := rfl
theorem test_soh : after (exec .soh awaiting) (fun t => t.state == .receivePacket && t.packetSize == some 128) = true := by decide
theorem test_stx : after (exec .stx awaiting) (fun t => t.state == .receivePacket && t.packetSize == some 1024) = true := by
  decide
/-- H-5: EOT is honoured with errors pending. -/
theorem test_eot : after (exec .eot { awaiting with errCnt := 1 }) (fun t => t.state == .terminalSuccess &&
    t.errCnt == 1#8 && !t.erased && sentBytes t.trace == [0x06#8]) = true := by decide
/-- E-D. -/
theorem test_can : after (exec .can awaiting) (fun t => t.state == .terminalAbort && t.errCnt == 0#8 &&
    sentBytes t.trace == []) = true := by decide
/-- H-3. -/
theorem test_hdrOther : after (exec (.hdrOther 0x55#8) awaiting) (fun t => t.state == .awaitHeader && t.errCnt == 1#8 &&
    sentBytes t.trace == [0x15#8]) = true := by decide
/-- H-1. -/
theorem test_hdrNone : after (exec .hdrNone awaiting) (fun t => t.state == .awaitHeader && t.errCnt == 0#8 &&
    sentBytes t.trace == [0x43#8]) = true := by decide
/-- E-B2: a header timeout counts once the region is erased. -/
theorem test_hdrNone_erased : after (exec .hdrNoneErased { awaiting with erased := true, errCnt := 2 })
    (fun t => t.state == .terminalAbort && t.errCnt == 3#8 && sentBytes t.trace == [0x18#8, 0x18#8]) = true := by decide
/-- E-T1 and E-T2: the third error aborts, the second does not. -/
theorem test_errorHandler : after (exec .errorHandler { awaiting with errCnt := 2 }) (fun t => t.state == .terminalAbort) = true ∧
    after (exec .errorHandler { awaiting with errCnt := 1 }) (fun t => t.state == .awaitHeader) = true := by decide
/-- E-E: the count is X_MAX_ERRORS + 1. -/
theorem test_classify_flash : after (exec .classify { receiving with eFail := ⟨true⟩ }) (fun t => t.state == .terminalAbort &&
    t.errCnt == 4#8 && sentBytes t.trace == [0x18#8, 0x18#8]) = true := by decide
/-- E-S3: two failures, one NAK, one increment. -/
theorem test_classify_recoverable : after (exec .classify { receiving with vFail := ⟨true, true⟩ })
    (fun t => t.errCnt == 1#8 && sentBytes t.trace == [0x15#8]) = true := by decide
/-- R202, and the wrap of the sequence number (R21). -/
theorem test_accept : after (exec .accept { receiving with seq := 255, errCnt := 2 }) (fun t => t.seq == 0#8 &&
    t.cursor == 0x08002080#32 && t.errCnt == 0#8 && t.state == .awaitHeader && sentBytes t.trace == [0x06#8]) = true := by decide
/-- E-Q1's shape: a first packet whose reads fail erases nothing and is answered NAK. -/
theorem test_receivePacketStep : after (exec .receivePacketStep (silence 4 receiving)) (fun t => t.errCnt == 1#8 &&
    !t.erased && memoryCalls t.trace == 0 && sentBytes t.trace == [0x15#8]) = true := by decide
/-- R200 in EX2: two erase calls; a second time none. -/
theorem test_eraseStep : after (exec .eraseStep (erases [.ok, .ok] (small receiving)))
      (fun t => t.erased && memoryCalls t.trace == 4) = true ∧
    after (exec .eraseStep { receiving with erased := true }) (fun t => memoryCalls t.trace == 0) = true := by decide +kernel
/-- H-3 through the engine's step. -/
theorem test_awaitHeaderStep : after (exec .awaitHeaderStep (heard [0x55#8] awaiting)) (fun t => t.hdrKind == .unrecognized &&
    t.errCnt == 1#8) = true := by decide
theorem test_appJump : after (exec .appJump { awaiting with state := .terminalSuccess }) (fun t => t.trace == [.appJump]) = true ∧
    exec .appJump awaiting = .refused .notApplicable := ⟨by decide, rfl⟩
theorem test_returnToCaller : after (exec .returnToCaller { awaiting with state := .terminalAbort })
    (fun t => t.trace == [.returnToCaller]) = true := by decide

/-! ### Script notation -/

/-- R98, R99: E-E's `erase call=0 fail`, a header, a silence, EOT, with X_MAX_ERRORS = 1. -/
theorem test_script : scriptEnvironment 2 [.invoke, .eraseFail 0, .rx [0x55#8], .quiet, .eot] =
      { line := [.byte 0x55#8, .quiet, .byte 0x04#8], eraseAnswers := [.fail, .ok],
        programAnswers := [⟨.ok, none⟩, ⟨.ok, none⟩], transmitAnswers := [.ok, .ok], textAnswers := [.ok, .ok],
        invokes := 1, resetIn := none, resetGaps := [] } ∧
    (scriptConfig Config.exampleOne [.cfg [.xMaxErrors 1]]).xMaxErrors = 1 := by decide
/-- R99: the CRC bytes of a script's packet, high byte first (C-13). -/
theorem test_script_crc : scriptCrc [0x31#8, 0x32#8, 0x33#8, 0x34#8, 0x35#8, 0x36#8, 0x37#8, 0x38#8, 0x39#8] none =
    [0x31#8, 0xC3#8] := by decide +kernel

/-! ### Witnesses: for each obligation with hypotheses, a state and operands that meet them -/

/-- A word of four bytes. -/
def someWord : NvmWord := ⟨1#8, 2#8, 3#8, 4#8⟩

/-- An application-sized header state: the array ends where one short packet ends. -/
def oneShortPacket : State :=
  { awaiting with cfg := { Config.exampleOne with appEnd := 0x08002080#32 } }

/-- A packet of zero bytes, whose CRC is zero. -/
def zeroPacket : Instr := .pkt128 1#8 0xFE#8 (List.replicate 128 0x00#8) 0x00#8 0x00#8

theorem witness_HeaderDecodeIsExact : ∃ b : Byte, b ≠ 0x01#8 ∧ b ≠ 0x02#8 ∧ b ≠ 0x04#8 ∧ b ≠ 0x18#8 := ⟨0x03#8, by decide⟩
theorem witness_DecodeInvertsEncode : (Instr.hdrOther 0x55#8).wellFormed = true ∧
    encode (.hdrOther 0x55#8) = some [0x55#8] := by decide
theorem witness_EncodeInvertsDecode : decode [0x55#8, 0x04#8] = .instr (.hdrOther 0x55#8) [0x04#8] := by decide
theorem witness_PayloadWordsArePositional : [1#8, 2#8, 3#8, 4#8].length % 4 = 0 ∧
    (wordsOf [1#8, 2#8, 3#8, 4#8])[0]? = some someWord := by decide
theorem witness_ErasePageEffect : unlocked.lock = false ∧ legalPage unlocked.cfg 0x08002000#32 ∧
    legalPage unlocked.cfg 0x08002780#32 ∧ (erases [.ok] unlocked).env.eraseAnswers = [.ok] := by decide
theorem witness_ProgramWordEffect : unlocked.lock = false ∧ legalWord unlocked.cfg 0x08002000#32 ∧
    legalWord unlocked.cfg 0x080027FC#32 ∧
    (programs [⟨.fail, some someWord⟩, ⟨.ok, none⟩] unlocked).env.programAnswers =
      [⟨.fail, some someWord⟩, ⟨.ok, none⟩] := by decide
theorem witness_ReadWordExact : legalWord awaiting.cfg 0x08002000#32 ∧ legalWord awaiting.cfg 0x080027FC#32 := by decide
theorem witness_ExecKeepsMemoryCanonical : unlocked.nvm.wf ∧
    ∃ t, exec (.nvmErasePage 0x08002000#32) (erases [.ok] unlocked) = .next t := ⟨by decide, _, rfl⟩
theorem witness_ExecTouchesOnlyTheRegion : unlocked.cfg.Ok ∧ ArrayOk unlocked ∧
    ∃ t, exec (.nvmProgramWord 0x080027FC#32 someWord) (programs [⟨.ok, none⟩] unlocked) = .next t :=
  ⟨by decide, by decide, _, rfl⟩
theorem witness_ExecLeavesMemoryLocked : awaiting.lock = true ∧ ∃ t, exec (.erase 0x08002800#32) awaiting = .next t :=
  ⟨by decide, _, rfl⟩
theorem witness_ParametersNeverChange : (∃ t, exec .invoke State.reset = .next t) ∧ ∃ t, step State.reset = .next t :=
  ⟨⟨_, rfl⟩, _, rfl⟩
theorem witness_EraseErasesTheRegion : awaiting.cfg.Ok ∧ legalErase awaiting.cfg 0x08002000#32 ∧
    legalErase awaiting.cfg 0x08002800#32 ∧ pageCount awaiting.cfg 0x08002000#32 = 16 ∧
    (erases (List.replicate 16 .ok) awaiting).env.eraseAnswers = List.replicate 16 .ok ++ [] := by decide
theorem witness_EraseStopsAtFirstFailure : legalErase awaiting.cfg 0x08002000#32 ∧
    15 < pageCount awaiting.cfg 0x08002000#32 ∧
    (erases (List.replicate 15 .ok ++ [.fail]) awaiting).env.eraseAnswers = List.replicate 15 .ok ++ .fail :: [] ∧
    (erases [.fail] awaiting).env.eraseAnswers = List.replicate 0 .ok ++ .fail :: [] := by decide
theorem witness_IllegalOperandsRefused : awaiting.cfg.Ok ∧ ¬legalErase awaiting.cfg 0x08002001#32 ∧
    ¬legalWrite awaiting.cfg 0x08001FFC#32 ∧ legalErase awaiting.cfg 0x08002800#32 ∧ legalWrite awaiting.cfg 0x08002800#32 := by
  decide
theorem witness_WriteGuarantee : awaiting.cfg.Ok ∧ legalWrite awaiting.cfg 0x08002000#32 ∧
    legalWrite awaiting.cfg 0x080027FC#32 := by decide
theorem witness_WriteOfIntendedWords : legalWrite awaiting.cfg 0x080027FC#32 ∧
    (0x080027FC#32 : Addr).toNat + 4 * [someWord].length ≤ awaiting.cfg.appEnd.toNat ∧
    (programs [⟨.ok, none⟩] awaiting).env.programAnswers = List.replicate [someWord].length ⟨.ok, none⟩ ++ [] := by decide
theorem witness_WriteTooLarge : legalWrite awaiting.cfg 0x08002800#32 ∧
    awaiting.cfg.appEnd.toNat ≤ (0x08002800#32 : Addr).toNat ∧ [someWord] ≠ [] ∧
    (0x080027FC#32 : Addr).toNat + 4 * 1 = awaiting.cfg.appEnd.toNat ∧ 1 < [someWord, someWord].length ∧
    (programs [⟨.ok, none⟩] awaiting).env.programAnswers = List.replicate 1 ⟨.ok, none⟩ ++ [] := by decide
theorem witness_WriteFailureCombinations : ∃ t, exec (.write 0x08002800#32 [someWord]) awaiting = .next t := ⟨_, rfl⟩
/-- The second word of a call is answered `fail`, at the last address of the region: both values of WRITE_FAIL_STOPS, equal and
other bytes; with a third word that still fits, and with one that does not. -/
theorem witness_WriteFailedReport : legalWrite awaiting.cfg 0x080027F8#32 ∧
    (0x080027F8#32 : Addr).toNat + 4 * [someWord].length < awaiting.cfg.appEnd.toNat ∧ awaiting.cfg.writeFailStops = true ∧
    ({ awaiting.cfg with writeFailStops := false } : Config).Ok ∧
    (some someWord).getD ⟨0#8, 0#8, 0#8, 0#8⟩ ≠ ⟨0#8, 0#8, 0#8, 0#8⟩ ∧ (none : Option NvmWord).getD someWord = someWord ∧
    (programs [⟨.ok, none⟩, ⟨.fail, none⟩, ⟨.ok, none⟩] awaiting).env.programAnswers =
      List.replicate [someWord].length ⟨.ok, none⟩ ++ ⟨.fail, none⟩ :: (List.replicate [someWord].length ⟨.ok, none⟩ ++ []) ∧
    (0x080027F4#32 : Addr).toNat + 4 * ([someWord] ++ someWord :: [someWord]).length ≤ awaiting.cfg.appEnd.toNat ∧
    (0x080027F8#32 : Addr).toNat + 4 * ([someWord].length + 1 + 0) = awaiting.cfg.appEnd.toNat ∧ 0 < [someWord].length := by
  decide
/-- A silent failure at the second word of a call, at the last address of the region. -/
theorem witness_SilentFailureCaught : legalWrite awaiting.cfg 0x080027F8#32 ∧
    (0x080027F8#32 : Addr).toNat + 4 * [someWord].length < awaiting.cfg.appEnd.toNat ∧ someWord ≠ ⟨1#8, 2#8, 3#8, 5#8⟩ ∧
    (programs [⟨.ok, none⟩, ⟨.ok, some someWord⟩] awaiting).env.programAnswers =
      List.replicate [someWord].length ⟨.ok, none⟩ ++ ⟨.ok, some someWord⟩ :: [] := by decide
theorem witness_ReceiveTakesTheLine : (heard [1#8, 2#8, 3#8] awaiting).env.line = [1#8, 2#8].map LineItem.byte ++ [.byte 3#8] ∧
    (silence 1 awaiting).env.line = ([] : List Byte).map LineItem.byte ++ .quiet :: [] := by decide
theorem witness_ReadHeaderKind : (heard [1#8] awaiting).env.line = .byte 1#8 :: [] ∧
    (silence 1 awaiting).env.line = .quiet :: [] := by decide
theorem witness_ReadPacketWhole : isPayloadSize 128 = true ∧ isPayloadSize 1024 = true ∧
    (heard (1#8 :: 0xFE#8 :: (List.replicate 128 0x1A#8 ++ [0xF8#8, 0xB0#8])) receiving).env.line =
      (1#8 :: 0xFE#8 :: (List.replicate 128 0x1A#8 ++ [0xF8#8, 0xB0#8])).map LineItem.byte ++ [] :=
  ⟨rfl, rfl, (List.append_nil _).symm⟩
theorem witness_ReadPacketShort : isPayloadSize 128 = true ∧ isPayloadSize 127 = false ∧
    (List.replicate 131 0x00#8).length < 128 + 4 ∧ (silence 1 receiving).env.line = [].map LineItem.byte ++ .quiet :: [] ∧
    (List.replicate 128 0x00#8).length = 128 ∧
    ({ receiving.env with line := .quiet :: ((0xFE#8 :: (List.replicate 128 0x00#8 ++ [0#8, 0#8])).map LineItem.byte ++ []) } :
      Environment).line = .quiet :: ((0xFE#8 :: (List.replicate 128 0x00#8 ++ [0#8, 0#8])).map LineItem.byte ++ []) := by
  refine ⟨rfl, rfl, ?_, rfl, List.length_replicate, rfl⟩
  rw [List.length_replicate]
  decide
theorem witness_TransmitAnswersIgnored :
    sameButTransmits { awaiting with env := { awaiting.env with transmitAnswers := [.ok] } }
      { awaiting with env := { awaiting.env with transmitAnswers := [.fail] } } ∧
    ∃ t, exec .txAck { awaiting with env := { awaiting.env with transmitAnswers := [.ok] } } = .next t :=
  ⟨⟨⟨rfl, rfl, rfl, rfl⟩, ⟨rfl, rfl⟩, ⟨rfl, rfl, rfl, rfl, rfl⟩, ⟨rfl, rfl, rfl, rfl⟩, ⟨rfl, rfl, rfl, rfl⟩, rfl, rfl, rfl,
    rfl, rfl, rfl, rfl, rfl, rfl, rfl, rfl, rfl⟩, _, rfl⟩
/-- Both answers of a `Transmit`, and `ok` of a `TransmitText`. -/
theorem witness_EmissionsAreExactly : emission awaiting.cfg .txCanCan = some [0x18#8, 0x18#8] ∧
    emission awaiting.cfg .soh = none ∧
    after (exec (.transmit 0x06#8) { awaiting with env := { awaiting.env with transmitAnswers := [.fail] } })
      (fun t => t.ret == .status .fail) = true ∧
    after (exec (.transmit 0x06#8) { awaiting with env := { awaiting.env with transmitAnswers := [.ok] } })
      (fun t => t.ret == .status .ok) = true ∧
    after (exec (.transmitText [0xC0#8]) { awaiting with env := { awaiting.env with textAnswers := [.ok] } })
      (fun t => t.ret == .status .ok) = true := by decide
theorem witness_InvokeResetsSession : State.reset.state = .idle ∧ awaiting.state = .awaitHeader := by decide
theorem witness_TimeoutBeforeEraseProbes : awaiting.state = .awaitHeader ∧ awaiting.erased = false := by decide
theorem witness_SilentHeaderRows : awaiting.state = .awaitHeader := rfl
theorem witness_EndOfTransmissionSucceeds : awaiting.state = .awaitHeader := rfl
theorem witness_HandlerHeaderRows : recognizedHeader 0x55#8 = false ∧
    ({ awaiting with erased := true } : State).erased = true ∧ awaiting.erased = false := by decide
/-- Both clauses at the boundary: the count that reaches the maximum, and the one before it. -/
theorem witness_ErrorHandlerPolicy :
    ({ awaiting with errCnt := 2 } : State).cfg.xMaxErrors.toNat ≤ ({ awaiting with errCnt := 2 } : State).errCnt.toNat + 1 ∧
    ({ receiving with errCnt := 1 } : State).errCnt.toNat + 1 < receiving.cfg.xMaxErrors.toNat := by decide
theorem witness_OperationsStopOutsideTheirRules : State.reset.state ≠ .awaitHeader ∧ State.reset.state ≠ .receivePacket ∧
    State.reset.packetSize = none ∧ recognizedHeader 0x04#8 = true ∧ isPacket zeroPacket = true :=
  ⟨by decide, by decide, rfl, rfl, beq_iff_eq.2 List.length_replicate⟩
theorem witness_AwaitHeaderDispatches : (heard [0x04#8] awaiting).env.line = .byte 0x04#8 :: [] ∧
    (silence 2 awaiting).env.line = .quiet :: [.quiet] := by decide
theorem witness_EraseStepErasesOnce : receiving.state = .receivePacket ∧ receiving.cfg.Ok ∧ receiving.erased = false ∧
    ({ receiving with erased := true } : State).erased = true ∧
    (erases (List.replicate 16 .ok) receiving).env.eraseAnswers =
      List.replicate (pageCount receiving.cfg receiving.cfg.appBase) .ok ++ [] := by decide
/-- A packet that passes (the zero packet of V-10) and one that does not. -/
theorem witness_ValidateWriteGuards : receiving.packetSize = some 128 ∧ legalWrite receiving.cfg receiving.cursor ∧
    validateFailures 1#8 0xFE#8 (List.replicate 128 0x00#8) 0#16 1#8 = .empty ∧
    validateFailures 1#8 0xFD#8 (List.replicate 128 0x00#8) 0#16 1#8 ≠ .empty := by
  refine ⟨by decide, by decide, ?_, ?_⟩ <;> unfold validateFailures crcMatches <;> rw [test_crc16_zeros] <;> decide
theorem witness_AcceptAdvances : receiving.state = .receivePacket ∧ receiving.packetSize = some 128 ∧
    receiving.cursor.toNat + 128 < 2 ^ 32 := by decide
theorem witness_ClassifyEscalates : ({ receiving with eFail := ⟨true⟩ } : State).failures.flashRelated = true ∧
    ({ receiving with commFail := true } : State).failures.flashRelated = false := by decide
theorem witness_ReceivePacketFollowsItsSteps : receiving.state = .receivePacket ∧ receiving.packetSize = some 128 ∧
    receiving.cfg.Ok ∧ legalWrite receiving.cfg receiving.cursor := by decide

/-- The zero packet met by an environment that answers as intended, in a region of one page that it fills to the end. -/
def accepting : State := programs (List.replicate 32 ⟨.ok, none⟩) (erases [.ok] oneShortPacket)

theorem witness_ValidPacketAccepted : accepting.state = .awaitHeader ∧ accepting.cfg.Ok ∧ accepting.cursor.toNat % 4 = 0 ∧
    accepting.cfg.appBase.toNat ≤ accepting.cursor.toNat ∧ isPacket zeroPacket = true ∧
    zeroPacket = .pkt128 accepting.seq (complement accepting.seq) (packetPayload zeroPacket)
      ((crc16 (packetPayload zeroPacket)).extractLsb' 8 8) ((crc16 (packetPayload zeroPacket)).extractLsb' 0 8) ∧
    accepting.cursor.toNat + (packetPayload zeroPacket).length ≤ accepting.cfg.appEnd.toNat ∧
    (accepting.erased = false ∧
      accepting.env.eraseAnswers = List.replicate (pageCount accepting.cfg accepting.cfg.appBase) .ok ++ []) ∧
    accepting.env.programAnswers = List.replicate ((packetPayload zeroPacket).length / 4) ⟨.ok, none⟩ ++ [] := by
  have hl : (packetPayload zeroPacket).length = 128 := List.length_replicate
  refine ⟨rfl, by decide, by decide, by decide, beq_iff_eq.2 List.length_replicate, ?_, ?_, by decide, ?_⟩
  · rw [show crc16 (packetPayload zeroPacket) = 0x0000#16 from test_crc16_zeros 128]
    rfl
  · rw [hl]; decide
  · rw [hl]; rfl
/-- Each way to be wrong; a session that has erased, at the last error and at the one before it; one that has not, its erase
answers all `ok`, and `fail` at the last page. -/
theorem witness_InvalidPacketRejected : awaiting.cfg.Ok ∧ (0x02#8 : Byte) ≠ awaiting.seq ∧
    (1#8 : Byte).toNat + (0xFD#8 : Byte).toNat ≠ 255 ∧ crc16 (List.replicate 128 0x00#8) ≠ assembleCrc 0x00#8 0x01#8 ∧
    ({ awaiting with erased := true, errCnt := 1 } : State).errCnt.toNat + 1 < awaiting.cfg.xMaxErrors.toNat ∧
    awaiting.cfg.xMaxErrors.toNat ≤ ({ awaiting with erased := true, errCnt := 2 } : State).errCnt.toNat + 1 ∧
    (erases (List.replicate 16 .ok) awaiting).erased = false ∧
    (erases (List.replicate 16 .ok) awaiting).env.eraseAnswers =
      List.replicate (pageCount awaiting.cfg awaiting.cfg.appBase) .ok ++ [] ∧
    15 < pageCount awaiting.cfg awaiting.cfg.appBase ∧
    (erases (List.replicate 15 .ok ++ [.fail]) awaiting).env.eraseAnswers = List.replicate 15 .ok ++ .fail :: [] := by
  refine ⟨by decide, by decide, by decide, ?_, by decide, by decide, by decide, by decide, by decide, by decide⟩
  rw [test_crc16_zeros]
  decide
theorem witness_TerminalOperations : ({ awaiting with state := .terminalSuccess } : State).pos ≠ .left ∧
    ({ awaiting with state := .terminalAbort, pos := .left } : State).pos = .left ∧
    (∃ t, exec .appJump { awaiting with state := .terminalSuccess } = .next t ∧ t.env.resetIn = none) ∧
    ∃ t, exec .returnToCaller { awaiting with state := .terminalAbort, env := { awaiting.env with invokes := 0 } } =
      .next t ∧ t.env.resetIn = none ∧ t.env.invokes = 0 :=
  ⟨by decide, by decide, ⟨_, rfl, rfl⟩, _, rfl, rfl, rfl⟩
/-- One packet of a session, accepted, which fills the region. -/
theorem witness_SessionLeavesImage : accepting.cfg.Ok ∧ accepting.erased = false ∧ accepting.cursor = accepting.cfg.appBase ∧
    isPacket zeroPacket = true ∧ ∃ t, runAll [zeroPacket] accepting = .next t ∧
      t.cursor.toNat = accepting.cfg.appBase.toNat + (imageOf [zeroPacket]).length := by
  refine ⟨by decide, rfl, rfl, beq_iff_eq.2 List.length_replicate, ?_⟩
  obtain ⟨t, h1, -, -, -, h2, h3⟩ := receiveUnit_spec (s := accepting) (n := 128) (hdr := wireSoh) (seqB := 1#8)
    (cmpB := 0xFE#8) (high := 0x00#8) (low := 0x00#8) (payload := List.replicate 128 0x00#8) (k := .shortData) rfl rfl rfl
    List.length_replicate (by decide) (by decide)
  have hne := h3 rfl rfl (test_crc16_zeros 128) (by decide) (fun _ => ⟨[], by decide⟩) ⟨[], rfl⟩
  rcases h2 with h2 | h2
  · exact absurd h2 hne
  · refine ⟨t, ?_, ?_⟩
    · have h4 : exec zeroPacket accepting = .next t := by
        show execPkt128 _ _ _ _ _ _ = _
        unfold execPkt128
        rw [if_pos List.length_replicate]
        exact h1
      simp only [runAll, h4, andThen_next]
    · rw [h2.2.2.2.2.2.2.1, show (imageOf [zeroPacket]).length = 128 by simp [imageOf, packetPayload, zeroPacket]]
      rfl
theorem witness_StepRunsTheSelectedOperation : State.reset.cfg.Ok ∧ nextOp State.reset = some .invoke ∧
    State.reset.env.resetIn = none ∧ ¬({ Config.exampleOne with pageSize := 0 } : Config).Ok ∧
    ({ State.reset with env := { Environment.reset with resetIn := some 1 } } : State).env.resetIn = some (0 + 1) := by decide
theorem witness_HeaderByteRunsItsRow : awaiting.cfg.Ok ∧ awaiting.env.resetIn = none ∧ awaiting.pos = .start ∧
    (heard [0x18#8] awaiting).env.line = .byte 0x18#8 :: [] ∧ (heard [0x01#8] awaiting).env.line = .byte 0x01#8 :: [] ∧
    (silence 1 awaiting).env.line = .quiet :: [] := by decide
theorem witness_PacketStepsRefineReceivePacket : receiving.env.resetIn = none ∧ receiving.state = .receivePacket ∧
    (Inv { receiving with vFail := ⟨true, true⟩ } ∧ receiving.pos = .start) ∧
    Inv { receiving with pos := .readSequence } :=
  ⟨rfl, rfl, ⟨⟨by decide, by decide, by decide, rfl, fun _ => rfl⟩, rfl⟩,
    by decide, by decide, by decide, rfl, ⟨rfl, rfl⟩, rfl, rfl, rfl, rfl⟩
theorem witness_ResetMeetsInvariant : exampleTwo.Ok ∧ Memory.wf [(0x08002000, 1#8)] ∧
    ∀ c ∈ ([(0x08002000, 1#8)] : Memory), exampleTwo.appBase.toNat ≤ c.1 ∧ c.1 < exampleTwo.appEnd.toNat := by decide
/-- In the middle of `WRITE`, at the last word of the packet: memory unlocked. -/
theorem witness_StepKeepsInvariant :
    Inv { receiving with lock := false, pos := .writeProgram, pIdx := 31, pAddr := 0x0800207C#32 } := by
  refine ⟨by decide, by decide, by decide, rfl, ?_⟩
  exact ⟨⟨rfl, rfl⟩, by decide, by decide, by decide⟩
/-- The step that accepts a written packet, the one that ends an `ERASE`, the ones in which the handler counts a failed
`WRITE` (R204) and a failed read, and a step with a hardware reset still to come. -/
theorem witness_SessionRegistersHaveTheirWriters :
    (∃ t, nextOp { receiving with lock := false, pos := .writeLock } = some .nvmLock ∧
      step { receiving with lock := false, pos := .writeLock } = .next t ∧ t.pos = .ack ∧ t.seq = 2) ∧
    (∃ t, step { receiving with lock := false, pos := .eraseLock, commFail := true } = .next t ∧ t.erased = true ∧
      t.pos = .nak ∧ t.errCnt = 1) ∧
    (∃ t, step { receiving with lock := false, pos := .writeLock, pFail := ⟨false, true, false⟩ } = .next t ∧
      t.pos = .firstCan ∧ t.errCnt = 4 ∧ t.failures.flashRelated = true) ∧
    ∃ t, ({ awaiting with env := { awaiting.env with resetIn := some 1 } } : State).env.resetIn ≠ some 0 ∧
      step { awaiting with pos := .probe, env := { awaiting.env with resetIn := some 1 } } = .next t ∧
      t.env.resetIn = some 0 :=
  ⟨⟨_, rfl, rfl, rfl, rfl⟩, ⟨_, rfl, rfl, rfl, rfl⟩, ⟨_, rfl, rfl, rfl, rfl⟩, _, by decide, rfl, rfl⟩
/-- A reset that comes now, one that a block without a next operation does not wait for, and the one after it. -/
theorem witness_HardwareResetEffect :
    nextOp { receiving with lock := false, pos := .erasePage, pAddr := 0x08002000#32 } = some (.nvmErasePage 0x08002000#32) ∧
    (∃ w, nextOp { receiving with lock := false, pos := .writeProgram, pAddr := 0x08002000#32 } =
      some (.nvmProgramWord 0x08002000#32 w)) ∧
    ({ receiving with env := { receiving.env with resetIn := some 0 } } : State).env.resetIn = some 0 ∧
    (nextOp { awaiting with state := .terminalSuccess, pos := .left, env := { awaiting.env with resetIn := some 7 } } = none) ∧
    ∃ t, step { awaiting with
        state := .terminalSuccess, pos := .left, env := { awaiting.env with resetIn := some 7, resetGaps := [2] } } = .next t ∧
      t.env.resetIn = some 2 ∧ t.env.resetGaps = [] :=
  ⟨rfl, ⟨_, rfl⟩, rfl, rfl, _, rfl, rfl, rfl⟩

end Sys2Proof.Tests
end

section
/-! SUPPORT. What the engine's control flow selects, why no operation it selects is refused as a bad configuration, and the
step as that operation (00_scope.md R8, R9). -/

namespace Sys2Proof.Proofs

open Sys2Proof Sys2Proof.Machine Sys2Proof.Laws

/-! ### What the control flow selects -/

/-- The operations that are one interaction with the environment (R9). -/
def isInteraction : Instr → Bool
  | .readHeader | .receive _ | .transmit _ | .transmitText _
  | .invoke | .appJump | .returnToCaller
  | .nvmUnlock | .nvmLock | .nvmErasePage _ | .nvmProgramWord _ _ | .nvmReadWord _ => true
  | _ => false

theorem firstOperation_isInteraction {s : State} {i : Instr} (h : firstOperation s = some i) : isInteraction i = true := by
  unfold firstOperation at h
  cases hs : s.state <;> rw [hs] at h
  case idle =>
    obtain ⟨-, h⟩ := Option.ite_none_left_eq_some.1 h
    cases h; rfl
  all_goals cases h; rfl

theorem operationAfterLeaving_isInteraction {s : State} {i : Instr} (h : operationAfterLeaving s = some i) :
    isInteraction i = true := by
  obtain ⟨-, h⟩ := Option.ite_none_right_eq_some.1 h
  cases h; rfl

theorem nextOp_isInteraction {s : State} {i : Instr} (h : nextOp s = some i) : isInteraction i = true := by
  unfold nextOp at h
  cases hp : s.pos <;> rw [hp] at h
  case start => exact firstOperation_isInteraction h
  case left => exact operationAfterLeaving_isInteraction h
  all_goals cases h; rfl

/-! ### Its refusals have other names -/

/-- An operation behind a guard is refused by the guard's own name. -/
theorem guarded_ne_refused {c : Prop} [Decidable c] {o : Out} {r r' : Refusal} (ho : o ≠ .refused r') (hr : r ≠ r') :
    (if c then o else .refused r) ≠ .refused r' := by
  split
  · exact ho
  · exact fun h => hr (Host.Outcome.refused.inj h)

/-- An interaction may be refused by its precondition or its `STATE`; R8 is not what `exec` tests (log 18). -/
theorem exec_ne_badConfiguration {i : Instr} (hi : isInteraction i = true) (s : State) :
    exec i s ≠ .refused .badConfiguration := by
  cases i
  case readHeader | transmit | transmitText | nvmUnlock | nvmLock => nofun
  case receive | invoke | nvmErasePage | nvmProgramWord | nvmReadWord => exact guarded_ne_refused nofun nofun
  case appJump | returnToCaller =>
    refine guarded_ne_refused ?_ nofun
    split <;> nofun
  all_goals cases hi

/-! ### The step -/

theorem andThen_next_eq_refused_iff {o : Out} {f : State → State} {r : Refusal} :
    (andThen o fun t => .next (f t)) = .refused r ↔ o = .refused r := by
  cases o <;> simp

/-- Where a hardware reset is to come later, the step counts towards it (log 11). -/
theorem tick_of_succ {s : State} {k : Nat} (h : s.env.resetIn = some (k + 1)) :
    s.tick = { s with env := { s.env with resetIn := some k } } := by
  simp [State.tick, h]

theorem operationStep_ne_badConfiguration {i : Instr} (hi : isInteraction i = true) (s : State) :
    operationStep i s ≠ .refused .badConfiguration := by
  unfold operationStep runOperation
  split
  · nofun
  · exact fun h => exec_ne_badConfiguration hi s.tick (andThen_next_eq_refused_iff.1 h)

theorem stuckStep_ne_refused (s : State) (r : Refusal) : stuckStep s ≠ .refused r := by
  unfold stuckStep
  split <;> nofun

theorem step_eq_badConfiguration_iff (s : State) : step s = .refused .badConfiguration ↔ ¬s.cfg.Ok := by
  refine ⟨fun h hok => ?_, fun hbad => if_neg hbad⟩
  unfold step at h
  rw [if_pos hok] at h
  cases hi : nextOp s with
  | some i => exact operationStep_ne_badConfiguration (nextOp_isInteraction hi) s (by rwa [hi] at h)
  | none => exact stuckStep_ne_refused s _ (by rwa [hi] at h)

/-- Settles O54: R8's test is the only place where that refusal is raised, and a step whose reset is not now is its selected
operation, run on the state that counts towards the reset. -/
theorem stepRunsTheSelectedOperation : Obligations.StepRunsTheSelectedOperation := by
  intro s
  refine ⟨step_eq_badConfiguration_iff s, fun i hok hi hr => ?_, fun i k hok hi hr => ?_⟩
  · rw [step_of_nextOp hok hi (by simp [hr]), tick_of_none hr]
  · rw [step_of_nextOp hok hi (by simp [hr]), tick_of_succ hr]

end Sys2Proof.Proofs
end

section
/-! SUPPORT. The invariant along the steps of the machine: one lemma for each position inside a rule, that the operation the
position selects completes and that the computation after it ends in a state of the invariant; the hardware reset; and the
step assembled from them (10_state.md R25, 41_memory_programmer.md R141, 20_memory.md R58). -/

namespace Sys2Proof.Proofs

open Sys2Proof Sys2Proof.Machine Sys2Proof.Laws

/-! ### After reset -/

/-- In `IDLE` the invariant asks for the parameters, the array and the lock only (R25 speaks from the first `INVOKE` on). -/
theorem inv_of_idle {s : State} (hok : s.cfg.Ok) (ha : ArrayOk s) (hs : s.state = .idle) (hp : s.pos = .start)
    (hl : s.lock = true) : Inv s := by
  refine ⟨hok, ha, fun h => absurd hs h, by rw [hl, hp]; rfl, ?_⟩
  unfold PositionOk
  rw [hp]
  exact fun h => nomatch hs.symm.trans h

/-- Settles O57: after reset the block is idle and locked, whatever the parameters, the environment and the array. -/
theorem resetMeetsInvariant : Obligations.ResetMeetsInvariant :=
  ⟨inv_of_idle (by decide) (by decide) rfl rfl rfl, fun _ _ _ hok hw hin => inv_of_idle hok ⟨hw, hin⟩ rfl rfl rfl⟩

/-! ### The operation at a position -/

/-- The operation `s` selects completes, and the computation after it ends in a state of the invariant. -/
def OperationKeepsInv (s : State) : Prop :=
  ∀ i, nextOp s = some i → ∃ u, exec i s = .next u ∧ Inv (advance s.state s.pos u)

theorem OperationKeepsInv.of_exec {s u : State} {i : Instr} {p : Pos} (hp : s.pos = p) (hi : nextOp s = some i)
    (he : exec i s = .next u) (hu : Inv (advance s.state p u)) : OperationKeepsInv s := by
  subst hp
  intro j hj
  cases hi.symm.trans hj
  exact ⟨u, he, hu⟩

/-! Each interaction that has no precondition completes. -/

theorem OperationKeepsInv.of_transmit {s : State} {p : Pos} {b : Byte} (hp : s.pos = p)
    (hi : nextOp s = some (.transmit b)) (hu : Inv (advance s.state p (transmit b s))) : OperationKeepsInv s :=
  .of_exec hp hi rfl hu

theorem OperationKeepsInv.of_transmitText {s : State} {p : Pos} {text : List Byte} (hp : s.pos = p)
    (hi : nextOp s = some (.transmitText text)) (hu : Inv (advance s.state p (transmitText text s))) :
    OperationKeepsInv s :=
  .of_exec hp hi rfl hu

theorem OperationKeepsInv.of_receive {s : State} {p : Pos} {n : Nat} (hp : s.pos = p)
    (hi : nextOp s = some (.receive n)) (hn : 1 ≤ n) (hu : Inv (advance s.state p (receive n s))) :
    OperationKeepsInv s :=
  .of_exec hp hi (exec_receive s hn) hu

theorem OperationKeepsInv.of_nvmUnlock {s : State} {p : Pos} (hp : s.pos = p) (hi : nextOp s = some .nvmUnlock)
    (hu : Inv (advance s.state p (nvmUnlock s))) : OperationKeepsInv s :=
  .of_exec hp hi rfl hu

theorem OperationKeepsInv.of_nvmLock {s : State} {p : Pos} (hp : s.pos = p) (hi : nextOp s = some .nvmLock)
    (hu : Inv (advance s.state p (nvmLock s))) : OperationKeepsInv s :=
  .of_exec hp hi rfl hu

/-- What the position's own facts are, where the position is known. -/
theorem positionOk_at {s : State} {p : Pos} (h : Inv s) (hp : s.pos = p) : PositionOk (s.goto p) := by
  obtain ⟨_, _, _, _, hpos⟩ := h
  rwa [goto_of_pos hp]

theorem lock_at {s : State} {p : Pos} (h : Inv s) (hp : s.pos = p) : s.lock = !p.unlocked := by
  obtain ⟨_, _, _, hl, _⟩ := h
  rwa [← hp]

theorem running_at {s : State} {p : Pos} (h : Inv s) (hp : s.pos = p) (hs : s.state.running = true)
    (ha : p.aborting = false) : Running s := Running.of_inv h hs (by rwa [hp])

theorem running_inPacket {s : State} {p : Pos} (h : Inv s) (hp : s.pos = p) (hs : InPacket s) (ha : p.aborting = false) :
    Running s := running_at h hp (by rw [hs.1]; rfl) ha

/-- Where the engine aborts or has ended, the session invariants carry over with the registers they speak of. -/
theorem inv_of_sameSession {s t : State} (h : Inv s) (hs : s.state ≠ .idle) (hn : t.nvm = s.nvm) (hc : t.cfg = s.cfg)
    (hr : t.cursor = s.cursor) (he : t.errCnt = s.errCnt) (hrun : t.state.running = true → t.pos.aborting = true)
    (hl : t.lock = !t.pos.unlocked) (hp : PositionOk t) : Inv t := by
  obtain ⟨hok, ha, hsess, _, _⟩ := h
  obtain ⟨c1, c2, c3, c4, c5, _⟩ := hsess hs
  refine ⟨hc ▸ hok, by unfold ArrayOk; rw [hn, hc]; exact ha, fun _ => ?_, hl, hp⟩
  rw [hr, hc, he]
  exact ⟨c1, c2, c3, c4, c5, fun h1 h2 => by rw [hrun h1] at h2; cases h2⟩

theorem ne_idle_of_running {s : State} (h : s.state.running = true) : s.state ≠ .idle := by
  intro e
  rw [e] at h
  cases h

/-! ### Invocation and the ends of a session -/

/-- `INVOKE` establishes the session invariants (R191). -/
theorem execInvoke_inv {s : State} (hok : s.cfg.Ok) (ha : ArrayOk s) (hl : s.lock = true)
    (hs : s.state = .idle ∨ s.state = .terminalAbort) : ∃ u, exec .invoke s = .next u ∧ Inv u := by
  refine ⟨_, if_pos hs, Running.inv ⟨hok, ha, ?_, ?_⟩ (by simpa [sessionReset, Pos.unlocked] using hl) nofun⟩
  · obtain ⟨h1, h2, _⟩ := hok
    exact ⟨h2, Nat.le_refl _, Nat.le_of_lt h1, by simp [sessionReset]⟩
  · obtain ⟨_, _, _, _, _, _, _, h8, _⟩ := hok
    exact h8

theorem exec_appJump {s : State} (hs : s.state = .terminalSuccess) (hp : s.pos ≠ .left) :
    exec .appJump s = .next ((s.goto .left).record .appJump .nothing) := by
  show execAppJump s = _
  rw [execAppJump, onlyIn_of _ hs, if_neg hp]

theorem exec_returnToCaller {s : State} (hs : s.state = .terminalAbort) (hp : s.pos ≠ .left) :
    exec .returnToCaller s = .next ((s.goto .left).record .returnToCaller .nothing) := by
  show execReturnToCaller s = _
  rw [execReturnToCaller, onlyIn_of _ hs, if_neg hp]

/-- Where control has left the block, the session invariants still hold (R206, R207). -/
theorem leave_inv {s : State} (h : Inv s) (hl : s.lock = true)
    (hs : s.state = .terminalSuccess ∨ s.state = .terminalAbort) (e : Event) :
    Inv ((s.goto .left).record e .nothing) := by
  refine inv_of_sameSession h ?_ rfl rfl rfl rfl ?_ hl hs
  · rcases hs with hs | hs <;> rw [hs] <;> nofun
  · rcases hs with hs | hs <;> simp [hs, EngineState.running]

theorem start_keepsInv {s : State} (h : Inv s) (hp : s.pos = .start) : OperationKeepsInv s := by
  have hl := lock_at h hp
  have hpos := positionOk_at h hp
  have hfirst : nextOp s = firstOperation s := by rw [nextOp, hp]
  cases hs : s.state with
  | idle =>
    intro i hi
    rw [hfirst, firstOperation, hs] at hi
    obtain ⟨_, hi⟩ := Option.ite_none_left_eq_some.1 hi
    cases hi
    rw [hp, hs]
    obtain ⟨hok, ha, _, _, _⟩ := h
    exact execInvoke_inv hok ha hl (.inl hs)
  | awaitHeader =>
    refine .of_exec hp (by rw [hfirst, firstOperation, hs]) rfl ?_
    rw [hs]
    have hrun := running_at h hp (by rw [hs]; rfl) rfl
    exact startRow_inv (hrun.congr rfl rfl rfl rfl) hl hs
  | receivePacket =>
    refine .of_receive hp (by rw [hfirst, firstOperation, hs]) (Nat.le_refl 1) ?_
    rw [hs]
    have hin : InPacket s := ⟨hs, hpos hs⟩
    have hrun := running_inPacket h hp hin rfl
    simp only [advance, afterFirst]
    exact Running.inv (hrun.congr (by simp) (by simp) (by simp) (by simp)) (by simpa [Pos.unlocked] using hl)
      (inPacket_congr hin (by simp) (by simp))
  | terminalSuccess =>
    refine .of_exec hp (by rw [hfirst, firstOperation, hs]) (exec_appJump hs (by rw [hp]; nofun)) ?_
    rw [hs]
    exact leave_inv h hl (.inl hs) _
  | terminalAbort =>
    refine .of_exec hp (by rw [hfirst, firstOperation, hs]) (exec_returnToCaller hs (by rw [hp]; nofun)) ?_
    rw [hs]
    exact leave_inv h hl (.inr hs) _

theorem left_keepsInv {s : State} (h : Inv s) (hp : s.pos = .left) : OperationKeepsInv s := by
  intro i hi
  rw [nextOp, hp] at hi
  obtain ⟨⟨hs, _⟩, hi⟩ := Option.ite_none_right_eq_some.1 hi
  cases hi
  rw [hp]
  have hl := lock_at h hp
  obtain ⟨hok, ha, _, _, _⟩ := h
  exact execInvoke_inv hok ha hl (.inr hs)

/-! ### What the block sends -/

theorem probe_keepsInv {s : State} (h : Inv s) (hp : s.pos = .probe) : OperationKeepsInv s := by
  have hs : s.state = .awaitHeader := positionOk_at h hp
  have hrun := running_at h hp (by rw [hs]; rfl) rfl
  have hl : s.lock = true := lock_at h hp
  exact .of_transmit hp (by rw [nextOp, hp]) (Running.inv (hrun.congr rfl rfl rfl rfl) hl nofun)

theorem eotAck_keepsInv {s : State} (h : Inv s) (hp : s.pos = .eotAck) : OperationKeepsInv s := by
  have hs : s.state = .awaitHeader := positionOk_at h hp
  have hrun := running_at h hp (by rw [hs]; rfl) rfl
  have hl : s.lock = true := lock_at h hp
  exact .of_transmit hp (by rw [nextOp, hp]) (Running.inv (hrun.congr rfl rfl rfl rfl) hl hs)

theorem eotNotice_keepsInv {s : State} (h : Inv s) (hp : s.pos = .eotNotice) : OperationKeepsInv s := by
  have hs : s.state = .awaitHeader := positionOk_at h hp
  have hl : s.lock = true := lock_at h hp
  exact .of_transmitText hp (by rw [nextOp, hp])
    (inv_of_sameSession h (by rw [hs]; nofun) rfl rfl rfl rfl nofun hl nofun)

theorem nak_keepsInv {s : State} (h : Inv s) (hp : s.pos = .nak) : OperationKeepsInv s := by
  have hrun := running_at h hp (positionOk_at h hp) rfl
  have hl : s.lock = true := lock_at h hp
  exact .of_transmit hp (by rw [nextOp, hp]) (Running.inv (hrun.congr rfl rfl rfl rfl) hl nofun)

theorem firstCan_keepsInv {s : State} (h : Inv s) (hp : s.pos = .firstCan) : OperationKeepsInv s := by
  have hs : s.state.running = true := positionOk_at h hp
  have hl : s.lock = true := lock_at h hp
  exact .of_transmit hp (by rw [nextOp, hp])
    (inv_of_sameSession h (ne_idle_of_running hs) rfl rfl rfl rfl (fun _ => rfl) hl hs)

theorem secondCan_keepsInv {s : State} (h : Inv s) (hp : s.pos = .secondCan) : OperationKeepsInv s := by
  have hs : s.state.running = true := positionOk_at h hp
  have hl : s.lock = true := lock_at h hp
  exact .of_transmit hp (by rw [nextOp, hp])
    (inv_of_sameSession h (ne_idle_of_running hs) rfl rfl rfl rfl (fun _ => rfl) hl hs)

theorem abortNotice_keepsInv {s : State} (h : Inv s) (hp : s.pos = .abortNotice) : OperationKeepsInv s := by
  have hs : s.state.running = true := positionOk_at h hp
  have hl : s.lock = true := lock_at h hp
  exact .of_transmitText hp (by rw [nextOp, hp])
    (inv_of_sameSession h (ne_idle_of_running hs) rfl rfl rfl rfl nofun hl nofun)

theorem ack_keepsInv {s : State} (h : Inv s) (hp : s.pos = .ack) : OperationKeepsInv s := by
  have hrun := running_inPacket h hp (positionOk_at h hp) rfl
  have hl : s.lock = true := lock_at h hp
  exact .of_transmit hp (by rw [nextOp, hp]) (Running.inv (hrun.congr rfl rfl rfl rfl) hl nofun)

/-! ### The reads of a packet -/

theorem readSequence_keepsInv {s : State} (h : Inv s) (hp : s.pos = .readSequence) : OperationKeepsInv s := by
  obtain ⟨hin, _⟩ : InPacket s ∧ _ := positionOk_at h hp
  have hrun := running_inPacket h hp hin rfl
  refine .of_receive hp (by rw [nextOp, hp]) (Nat.le_refl 1) ?_
  simp only [advance]
  exact Running.inv (hrun.congr (by simp) (by simp) (by simp) (by simp)) (by simpa [Pos.unlocked] using lock_at h hp)
    (inPacket_congr hin (by simp) (by simp))

theorem readComplement_keepsInv {s : State} (h : Inv s) (hp : s.pos = .readComplement) : OperationKeepsInv s := by
  have hin : InPacket s := positionOk_at h hp
  have hrun := running_inPacket h hp hin rfl
  refine .of_receive hp (by rw [nextOp, hp]) (Nat.le_refl 1) ?_
  simp only [advance]
  exact Running.inv (hrun.congr (by simp) (by simp) (by simp) (by simp)) (by simpa [Pos.unlocked] using lock_at h hp)
    (inPacket_congr hin (by simp) (by simp))

theorem readPayload_keepsInv {s : State} (h : Inv s) (hp : s.pos = .readPayload) : OperationKeepsInv s := by
  have hin : InPacket s := positionOk_at h hp
  have hrun := running_inPacket h hp hin rfl
  have hn : 1 ≤ s.packetSize.getD 0 := by
    obtain ⟨n, hn⟩ := Option.isSome_iff_exists.1 hin.2
    rcases packetSize_cases hn with rfl | rfl <;> simp [hn]
  refine .of_receive hp (by rw [nextOp, hp]) hn ?_
  simp only [advance]
  exact Running.inv (hrun.congr (by simp) (by simp) (by simp) (by simp)) (by simpa [Pos.unlocked] using lock_at h hp)
    (inPacket_congr hin (by simp) (by simp))

theorem readCrc_keepsInv {s : State} (h : Inv s) (hp : s.pos = .readCrc) : OperationKeepsInv s := by
  have hin : InPacket s := positionOk_at h hp
  have hrun := running_inPacket h hp hin rfl
  refine .of_receive hp (by rw [nextOp, hp]) (by decide) ?_
  exact startErase_inv (hrun.congr (by simp) (by simp) (by simp) (by simp)) (by simpa [Pos.unlocked] using lock_at h hp)
    (inPacket_congr hin (by simp) (by simp))

/-! ### ERASE -/

theorem eraseUnlock_keepsInv {s : State} (h : Inv s) (hp : s.pos = .eraseUnlock) : OperationKeepsInv s := by
  have hin : InPacket s := positionOk_at h hp
  have hrun := running_inPacket h hp hin rfl
  exact .of_nvmUnlock hp (by rw [nextOp, hp]) (eraseHead_inv (hrun.congr rfl rfl rfl rfl) rfl hin)

theorem erasePage_keepsInv {s : State} (h : Inv s) (hp : s.pos = .erasePage) : OperationKeepsInv s := by
  obtain ⟨hin, hi, ha⟩ : InPacket s ∧ s.pIdx < pageCount s.cfg s.cfg.appBase ∧
    s.pAddr = pageAddress s.cfg s.cfg.appBase s.pIdx := positionOk_at h hp
  have hrun := running_inPacket h hp hin rfl
  have hl : s.lock = false := lock_at h hp
  have hlegal : legalPage s.cfg s.pAddr := ha ▸ pageAddress_legal hrun.ok (legalErase_base hrun.ok) hi
  obtain ⟨st, page, left, free, hlen, _, _, he⟩ := nvmErasePage_completes hl hlegal
  refine .of_exec (i := .nvmErasePage s.pAddr) hp (by rw [nextOp, hp]) he ?_
  obtain ⟨_, harr⟩ := kept_array.erase he ⟨hrun.ok, hrun.array⟩
  simp only [advance]
  split
  · exact Running.inv ⟨hrun.ok, harr, hrun.cursor, hrun.count⟩ hl hin
  · exact eraseHead_inv ⟨hrun.ok, harr, hrun.cursor, hrun.count⟩ hl hin

theorem eraseLock_keepsInv {s : State} (h : Inv s) (hp : s.pos = .eraseLock) : OperationKeepsInv s := by
  have hin : InPacket s := positionOk_at h hp
  have hrun := running_inPacket h hp hin rfl
  refine .of_nvmLock hp (by rw [nextOp, hp]) ?_
  exact startValidate_inv (hrun.congr (by simp) (by simp) (by simp) (by simp)) (by simp)
    (inPacket_congr hin (by simp) (by simp))

/-! ### WRITE -/

theorem writeUnlock_keepsInv {s : State} (h : Inv s) (hp : s.pos = .writeUnlock) : OperationKeepsInv s := by
  obtain ⟨hin, ha⟩ : InPacket s ∧ s.pAddr = s.cursor := positionOk_at h hp
  have hrun := running_inPacket h hp hin rfl
  obtain ⟨_, _, hend, _⟩ := hrun.cursor
  refine .of_nvmUnlock hp (by rw [nextOp, hp]) ?_
  exact writeHead_inv (hrun.congr rfl rfl rfl rfl) rfl hin (congrArg BitVec.toNat ha) (Nat.zero_le _)
    (by simpa [ha] using hend)

theorem noteProgram_pFail_ne_empty {s : State} (h : reportedFail s = true) : (noteProgram s).pFail ≠ .empty := by
  rw [noteProgram, if_pos h]
  exact fun he => Bool.noConfusion (congrArg WriteFailures.writeFailed he)

theorem noteMismatch_pFail_ne_empty (s : State) : (noteMismatch s).pFail ≠ .empty :=
  fun he => Bool.noConfusion (congrArg WriteFailures.readbackMismatch he)

/-- After the word was programmed: to the read-back, or to the lock with a failure noted (R137). -/
theorem afterProgram_inv (st : EngineState) {t : State} (h : Running t) (hl : t.lock = false) (hin : InPacket t)
    (ha : AtWord t) (hi : t.pIdx < t.packetSize.getD 0 / 4) (hlt : t.pAddr.toNat < t.cfg.appEnd.toNat) :
    Inv (advance st .writeProgram t) := by
  have hrun : Running (noteProgram t) := h.congr (by simp) (by simp) (by simp) (by simp)
  have hin' : InPacket (noteProgram t) := inPacket_congr hin (by simp) (by simp)
  simp only [advance]
  split
  · rename_i hstop
    obtain ⟨hfail, _⟩ := (Bool.and_eq_true _ _).mp hstop
    exact Running.inv (hrun.congr rfl rfl rfl rfl) (by simpa [Pos.unlocked] using hl)
      ⟨hin', fun hempty => absurd hempty (noteProgram_pFail_ne_empty hfail)⟩
  · refine Running.inv (hrun.congr rfl rfl rfl rfl) (by simpa [Pos.unlocked] using hl) ⟨hin', ?_⟩
    simpa [AtWord, State.packetSize] using ⟨ha, hi, hlt⟩

theorem writeProgram_keepsInv {s : State} (h : Inv s) (hp : s.pos = .writeProgram) : OperationKeepsInv s := by
  obtain ⟨hin, ha, hi, hlt⟩ : InPacket s ∧ AtWord s ∧ s.pIdx < s.packetSize.getD 0 / 4 ∧
    s.pAddr.toNat < s.cfg.appEnd.toNat := positionOk_at h hp
  have hrun := running_inPacket h hp hin rfl
  have hl : s.lock = false := lock_at h hp
  obtain ⟨st, leaves, left, free, _, he⟩ := nvmProgramWord_completes (currentWord s) hl (legalWord_at hrun ha hlt)
  refine .of_exec (i := .nvmProgramWord s.pAddr (currentWord s)) hp (by rw [nextOp, hp]) he ?_
  obtain ⟨_, harr⟩ := kept_array.program he ⟨hrun.ok, hrun.array⟩
  exact afterProgram_inv _ ⟨hrun.ok, harr, hrun.cursor, hrun.count⟩ hl hin ha hi hlt

/-- One word further, `PADDR` is still at word `PIDX` (R135). -/
theorem nextWord_atWord {s : State} (h : Running s) (ha : AtWord s) (hlt : s.pAddr.toNat < s.cfg.appEnd.toNat) :
    AtWord (nextWord s) ∧ (nextWord s).pAddr.toNat ≤ s.cfg.appEnd.toNat := by
  obtain ⟨hlo, hhi, hal⟩ := legalWord_at h ha hlt
  obtain ⟨hnext, _⟩ := next_toNat h.ok ⟨hal, hlo⟩ hlt
  simp only [AtWord, nextWord_pAddr, nextWord_cursor, nextWord_pIdx, hnext]
  omega

theorem writeRead_keepsInv {s : State} (h : Inv s) (hp : s.pos = .writeRead) : OperationKeepsInv s := by
  obtain ⟨hin, ha, hi, hlt⟩ : InPacket s ∧ AtWord s ∧ s.pIdx < s.packetSize.getD 0 / 4 ∧
    s.pAddr.toNat < s.cfg.appEnd.toNat := positionOk_at h hp
  have hrun := running_inPacket h hp hin rfl
  have hl : s.lock = false := lock_at h hp
  refine .of_exec (i := .nvmReadWord s.pAddr) hp (by rw [nextOp, hp])
    (nvmReadWord_completes (legalWord_at hrun ha hlt)) ?_
  simp only [advance]
  split
  · obtain ⟨hat, hend⟩ := nextWord_atWord hrun ha hlt
    exact writeHead_inv (hrun.congr rfl rfl rfl rfl) hl hin hat hi hend
  · exact Running.inv (hrun.congr rfl rfl rfl rfl) hl
      ⟨hin, fun hempty => absurd hempty (noteMismatch_pFail_ne_empty _)⟩

theorem writeLock_keepsInv {s : State} (h : Inv s) (hp : s.pos = .writeLock) : OperationKeepsInv s := by
  obtain ⟨hin, hw⟩ : InPacket s ∧ (s.pFail = .empty →
    AtWord s ∧ s.pIdx = s.packetSize.getD 0 / 4 ∧ s.pAddr.toNat ≤ s.cfg.appEnd.toNat) := positionOk_at h hp
  have hrun := running_inPacket h hp hin rfl
  refine .of_nvmLock hp (by rw [nextOp, hp]) ?_
  refine startFinish_inv (hrun.congr rfl rfl rfl rfl) rfl hin fun he => ?_
  obtain ⟨_, _, _, hpf⟩ := (failures_isEmpty_iff _).1 he
  exact hw hpf

/-! ### The step -/

/-- At every position of a state of the invariant the selected operation completes and keeps it. -/
theorem operation_keepsInv {s : State} (h : Inv s) : OperationKeepsInv s := by
  cases hp : s.pos with
  | start => exact start_keepsInv h hp
  | probe => exact probe_keepsInv h hp
  | eotAck => exact eotAck_keepsInv h hp
  | eotNotice => exact eotNotice_keepsInv h hp
  | nak => exact nak_keepsInv h hp
  | firstCan => exact firstCan_keepsInv h hp
  | secondCan => exact secondCan_keepsInv h hp
  | abortNotice => exact abortNotice_keepsInv h hp
  | readSequence => exact readSequence_keepsInv h hp
  | readComplement => exact readComplement_keepsInv h hp
  | readPayload => exact readPayload_keepsInv h hp
  | readCrc => exact readCrc_keepsInv h hp
  | eraseUnlock => exact eraseUnlock_keepsInv h hp
  | erasePage => exact erasePage_keepsInv h hp
  | eraseLock => exact eraseLock_keepsInv h hp
  | writeUnlock => exact writeUnlock_keepsInv h hp
  | writeProgram => exact writeProgram_keepsInv h hp
  | writeRead => exact writeRead_keepsInv h hp
  | writeLock => exact writeLock_keepsInv h hp
  | ack => exact ack_keepsInv h hp
  | left => exact left_keepsInv h hp

/-- Under an interrupted primitive too the array stays in canonical form inside the region: the operand of a primitive that
comes next is legal (R260, R58). -/
theorem interruptPrimitive_arrayOk {s : State} (h : Inv s) : ArrayOk (interruptPrimitive (nextOp s) s) := by
  have hkeep := operation_keepsInv h
  obtain ⟨hok, ha, _, _, _⟩ := h
  unfold interruptPrimitive
  split
  · rename_i a hi
    obtain ⟨_, he, _⟩ := hkeep _ hi
    obtain ⟨_, hlegal, _⟩ := nvmErasePage_inv he
    have hfit := page_fits hok hlegal
    exact arrayOk_store ha rfl rfl hlegal.1 (by simpa [freeBytes] using hfit)
  · rename_i a w hi
    obtain ⟨_, he, _⟩ := hkeep _ hi
    obtain ⟨_, ⟨hlo, hhi, _⟩, _⟩ := nvmProgramWord_inv he
    exact arrayOk_store ha rfl rfl hlo (by simpa [freeBytes] using hhi)
  · exact ha

theorem interruptPrimitive_cfg (i : Option Instr) (s : State) : (interruptPrimitive i s).cfg = s.cfg := by
  unfold interruptPrimitive
  split <;> rfl

theorem hardwareReset_cfg (s : State) : (hardwareReset s).cfg = s.cfg := interruptPrimitive_cfg _ s

theorem hardwareReset_inv {s : State} (h : Inv s) : Inv (hardwareReset s) := by
  have ha := interruptPrimitive_arrayOk h
  obtain ⟨hok, _, _, _, _⟩ := h
  exact inv_of_idle ((hardwareReset_cfg s).symm ▸ hok) ha rfl rfl rfl

/-- Settles O58: at every position the selected operation completes and keeps the invariant, and so does a hardware reset. -/
theorem stepKeepsInvariant : Obligations.StepKeepsInvariant := by
  intro s h
  have hok : s.cfg.Ok := h.1
  cases hi : nextOp s with
  | some i =>
    refine .inl ?_
    by_cases hr : s.env.resetIn = some 0
    · exact ⟨hardwareReset s, by rw [step, if_pos hok, hi]; exact if_pos hr, hardwareReset_inv h⟩
    · obtain ⟨u, he, hu⟩ := operation_keepsInv (tick_inv h) i hi
      exact ⟨_, by rw [step_of_nextOp hok hi hr, he]; rfl, hu⟩
  | none =>
    have hstep : step s = stuckStep s := by rw [step, if_pos hok, hi]
    cases hr : s.env.resetIn with
    | some k => exact .inl ⟨hardwareReset s, by rw [hstep, stuckStep, hr], hardwareReset_inv h⟩
    | none => exact .inr ⟨rfl, rfl, by rw [hstep, stuckStep, hr]⟩

end Sys2Proof.Proofs
end

section
/-! SUPPORT. What every operation keeps of the array and the parameters, and who writes the session registers: an operation
the control flow selects, `INVOKE` apart, leaves them alone, so what remains is the internal computation after it
(10_state.md R21 to R24, R34, R35, 60_exceptions.md R239). -/

namespace Sys2Proof.Proofs

open Sys2Proof Sys2Proof.Machine Sys2Proof.Laws

/-! ### The array and the parameters -/

/-- Settles O17: the canonical form is a property the two destructive primitives keep, and so every operation keeps it. -/
theorem execKeepsMemoryCanonical : Obligations.ExecKeepsMemoryCanonical :=
  fun _ _ _ hw h => exec_keeps kept_wf h hw

/-- Settles O20: no operation changes the parameters, and neither the computation after it nor a hardware reset does. -/
theorem parametersNeverChange : Obligations.ParametersNeverChange := by
  have hexec (i : Instr) (s t : State) (h : exec i s = .next t) : sameParameters s t := exec_keeps (kept_cfg s.cfg) h rfl
  refine ⟨hexec, fun s t h => ?_⟩
  obtain ⟨_, rfl | ⟨i, u, _, he, rfl⟩⟩ := step_cases h
  · exact hardwareReset_cfg s
  · obtain ⟨_, hcfg⟩ := advance_nvm s.state s.pos u
    exact hcfg.trans (hexec i s.tick u he)

/-! ### The session registers between two interactions -/

/-- `SEQ`, `CURSOR` and `ERASED` are unchanged, and `ERRCNT` is too unless the error handler has begun, which counts by one,
or from the maximum where the failure is flash-related (R204, R205). -/
structure OnlyCounts (s t : State) : Prop where
  seq : t.seq = s.seq
  cursor : t.cursor = s.cursor
  erased : t.erased = s.erased
  errCnt : t.errCnt = s.errCnt ∨
    (t.pos = .nak ∨ t.pos = .firstCan) ∧
      (t.errCnt = s.errCnt + 1 ∨ t.failures.flashRelated = true ∧ t.errCnt = s.cfg.xMaxErrors + 1)

theorem OnlyCounts.of_sameSession {s t : State} (h : sameSession s t) : OnlyCounts s t := by
  obtain ⟨h1, h2, h3, h4⟩ := h
  exact ⟨h1, h2, h3, .inl h4⟩

/-- `OnlyCounts` reads the session registers and the parameters of the state before. -/
theorem OnlyCounts.congr {s u t : State} (h : OnlyCounts u t) (hs : sameSession s u) (hc : u.cfg = s.cfg) :
    OnlyCounts s t := by
  obtain ⟨h1, h2, h3, h4⟩ := hs
  obtain ⟨k1, k2, k3, k4⟩ := h
  exact ⟨k1.trans h1, k2.trans h2, k3.trans h3, by rwa [← h4, ← hc]⟩

theorem startHandler_pos (s : State) : (startHandler s).pos = .nak ∨ (startHandler s).pos = .firstCan := by
  unfold startHandler
  cases ht : thresholdReached (countError s)
  · exact .inl (by simp [ht])
  · exact .inr (by simp [ht])

theorem startHandler_onlyCounts (s : State) : OnlyCounts s (startHandler s) :=
  ⟨rfl, rfl, rfl, .inr ⟨startHandler_pos s, .inl rfl⟩⟩

/-- Classification (R203, R204). -/
theorem startFinish_onlyCounts {s : State} (h : s.failures.isEmpty = false) : OnlyCounts s (startFinish s) := by
  rw [startFinish, if_neg (by rw [h]; nofun), escalateIfFlash]
  split
  · exact ⟨rfl, rfl, rfl, .inr ⟨startHandler_pos _, .inr ⟨‹_›, rfl⟩⟩⟩
  · exact startHandler_onlyCounts s

/-- Validation accepts nothing by itself: where no `WRITE` follows, some failure stands (R199, R201). -/
theorem startValidate_onlyCounts (s : State) : OnlyCounts s (startValidate s) := by
  unfold startValidate
  split
  · simp only
    split
    · exact .of_sameSession ⟨rfl, rfl, rfl, rfl⟩
    · rename_i hv
      refine (startFinish_onlyCounts ?_).congr ⟨rfl, rfl, rfl, rfl⟩ rfl
      refine Bool.eq_false_iff.2 fun he => hv ?_
      obtain ⟨_, _, hvf, _⟩ := (failures_isEmpty_iff _).1 he
      exact hvf
  · rename_i hd
    refine startFinish_onlyCounts (Bool.eq_false_iff.2 fun he => hd ?_)
    obtain ⟨hc, hef, _, _⟩ := (failures_isEmpty_iff s).1 he
    simp [validateDue, hc, hef]

theorem startErase_onlyCounts (s : State) : OnlyCounts s (startErase s) := by
  unfold startErase
  split
  · split
    · exact startValidate_onlyCounts s
    · exact .of_sameSession ⟨rfl, rfl, rfl, rfl⟩
  · exact startValidate_onlyCounts s

theorem startRow_onlyCounts (s : State) : OnlyCounts s (startRow s) := by
  unfold startRow
  split
  · split
    · exact startHandler_onlyCounts s
    · exact .of_sameSession ⟨rfl, rfl, rfl, rfl⟩
  · exact .of_sameSession ⟨rfl, rfl, rfl, rfl⟩
  · exact .of_sameSession ⟨rfl, rfl, rfl, rfl⟩
  · exact .of_sameSession ⟨rfl, rfl, rfl, rfl⟩
  · exact .of_sameSession ⟨rfl, rfl, rfl, rfl⟩
  · exact startHandler_onlyCounts s

theorem eraseHead_sameSession (s : State) : sameSession s (eraseHead s) := by
  unfold eraseHead
  split <;> exact ⟨rfl, rfl, rfl, rfl⟩

theorem writeHead_sameSession (s : State) : sameSession s (writeHead s) := by
  unfold writeHead
  split
  · split <;> exact ⟨rfl, rfl, rfl, rfl⟩
  · exact ⟨rfl, rfl, rfl, rfl⟩

/-- Between two interactions only the ends of `ERASE` and of `WRITE` do more to the session registers than count an error. -/
theorem advance_onlyCounts (st : EngineState) {p : Pos} (t : State) (he : p ≠ .eraseLock) (hw : p ≠ .writeLock) :
    OnlyCounts t (advance st p t) := by
  cases p <;> simp only [advance]
  case start =>
    cases st <;> simp only [afterFirst]
    case awaitHeader => exact startRow_onlyCounts t
    case receivePacket => exact .of_sameSession (by simp [sameSession])
    all_goals exact .of_sameSession ⟨rfl, rfl, rfl, rfl⟩
  case readCrc => exact (startErase_onlyCounts _).congr (by simp [sameSession]) (by simp)
  case eraseUnlock => exact .of_sameSession (eraseHead_sameSession { t with pIdx := 0 })
  case erasePage =>
    split
    · exact .of_sameSession ⟨rfl, rfl, rfl, rfl⟩
    · exact .of_sameSession (eraseHead_sameSession (nextPage t))
  case eraseLock => exact absurd rfl he
  case writeUnlock => exact .of_sameSession (writeHead_sameSession { t with pIdx := 0 })
  case writeProgram => split <;> exact .of_sameSession (by simp [sameSession])
  case writeRead =>
    split
    · exact .of_sameSession (writeHead_sameSession (nextWord t))
    · exact .of_sameSession ⟨rfl, rfl, rfl, rfl⟩
  case writeLock => exact absurd rfl hw
  all_goals exact .of_sameSession (by simp [sameSession])

/-! ### The session registers in a step -/

/-- Of the interactions only `INVOKE` writes the session registers (R191). -/
theorem exec_sameSession {i : Instr} {s t : State} (hi : isInteraction i = true) (hne : i ≠ .invoke)
    (h : exec i s = .next t) : sameSession s t := by
  cases i
  case readHeader | transmit | transmitText | nvmUnlock | nvmLock => cases h; exact ⟨rfl, rfl, rfl, rfl⟩
  case receive n =>
    change execReceive n s = _ at h
    unfold execReceive at h
    split at h <;> cases h
    exact ⟨rfl, rfl, rfl, rfl⟩
  case invoke => exact absurd rfl hne
  case appJump =>
    change execAppJump s = _ at h
    obtain ⟨_, h⟩ := onlyIn_eq_next h
    split at h <;> cases h
    exact ⟨rfl, rfl, rfl, rfl⟩
  case returnToCaller =>
    change execReturnToCaller s = _ at h
    obtain ⟨_, h⟩ := onlyIn_eq_next h
    split at h <;> cases h
    exact ⟨rfl, rfl, rfl, rfl⟩
  case nvmErasePage a =>
    obtain ⟨_, _, _, _, _, _, _, _, rfl⟩ := nvmErasePage_inv h
    exact ⟨rfl, rfl, rfl, rfl⟩
  case nvmProgramWord a w =>
    obtain ⟨_, _, _, _, _, _, rfl⟩ := nvmProgramWord_inv h
    exact ⟨rfl, rfl, rfl, rfl⟩
  case nvmReadWord a =>
    obtain ⟨_, rfl⟩ := nvmReadWord_inv h
    exact ⟨rfl, rfl, rfl, rfl⟩
  all_goals cases hi

theorem startFinish_eFail (s : State) : (startFinish s).eFail = s.eFail := by
  unfold startFinish
  split <;> simp [startHandler]

theorem startValidate_eFail (s : State) : (startValidate s).eFail = s.eFail := by
  unfold startValidate
  split
  · simp only
    split <;> simp [startFinish_eFail]
  · exact startFinish_eFail s

/-- What a step has done to the session registers, of all that the engine does but `INVOKE` (R21 to R24). -/
abbrev SessionWritten (s t : State) : Prop :=
  ((t.seq = s.seq ∧ t.cursor = s.cursor ∧
        (t.errCnt = s.errCnt ∨
          (t.pos = .nak ∨ t.pos = .firstCan) ∧
            (t.errCnt = s.errCnt + 1 ∨ t.failures.flashRelated = true ∧ t.errCnt = s.cfg.xMaxErrors + 1)) ∨
      s.pos = .writeLock ∧ t.pos = .ack ∧ t.seq = s.seq + 1 ∧
        t.cursor = s.cursor + BitVec.ofNat 32 (s.packetSize.getD 0) ∧ t.errCnt = 0) ∧
    (t.erased = s.erased ∨ s.pos = .eraseLock ∧ t.eFail = .empty ∧ t.erased = true))

theorem OnlyCounts.sessionWritten {s t : State} (h : OnlyCounts s t) : SessionWritten s t :=
  ⟨.inl ⟨h.seq, h.cursor, h.errCnt⟩, .inl h.erased⟩

/-- The end of `ERASE`: `ERASED` is set where it succeeded (R200). -/
theorem eraseLock_sessionWritten {s : State} (hp : s.pos = .eraseLock) :
    SessionWritten s (advance s.state s.pos (nvmLock s.tick)) := by
  have hadv : advance s.state s.pos (nvmLock s.tick) = startValidate (noteErased (nvmLock s.tick)) := by rw [hp]; rfl
  rw [hadv]
  obtain ⟨h1, h2, h3, h4⟩ := startValidate_onlyCounts (noteErased (nvmLock s.tick))
  refine ⟨.inl ⟨by simpa using h1, by simpa using h2, by simpa using h4⟩, ?_⟩
  rw [startValidate_eFail, h3, noteErased]
  split
  · exact .inr ⟨hp, ‹_›, rfl⟩
  · exact .inl rfl

/-- The end of `WRITE`: the packet is accepted, or an error is counted (R202, R203). -/
theorem writeLock_sessionWritten {s : State} (hp : s.pos = .writeLock) :
    SessionWritten s (advance s.state s.pos (nvmLock s.tick)) := by
  have hadv : advance s.state s.pos (nvmLock s.tick) = startFinish (nvmLock s.tick) := by rw [hp]; rfl
  rw [hadv]
  cases he : (nvmLock s.tick).failures.isEmpty with
  | true =>
    rw [startFinish, if_pos he]
    exact ⟨.inr ⟨hp, rfl, rfl, rfl, rfl⟩, .inl rfl⟩
  | false => exact ((startFinish_onlyCounts he).congr ⟨rfl, rfl, rfl, rfl⟩ rfl).sessionWritten

/-- Settles O59: no interaction but `INVOKE` writes them, and the computation after it only counts an error, unless it
ends an `ERASE` or a `WRITE`. -/
theorem sessionRegistersHaveTheirWriters : Obligations.SessionRegistersHaveTheirWriters := by
  intro s t i hr hi h
  by_cases hne : i = .invoke
  · exact .inl hne
  refine .inr ?_
  obtain ⟨hok, _⟩ := step_cases h
  rw [step_of_nextOp hok hi hr] at h
  obtain ⟨u, he, h⟩ := andThen_eq_next h
  cases h
  by_cases hpe : s.pos = .eraseLock
  · rw [nextOp, hpe] at hi
    cases hi
    cases he
    exact eraseLock_sessionWritten hpe
  by_cases hpw : s.pos = .writeLock
  · rw [nextOp, hpw] at hi
    cases hi
    cases he
    exact writeLock_sessionWritten hpw
  have hs : sameSession s u := exec_sameSession (s := s.tick) (nextOp_isInteraction hi) hne he
  have hc : u.cfg = s.cfg := exec_keeps (kept_cfg s.cfg) he rfl
  exact ((advance_onlyCounts s.state u hpe hpw).congr hs hc).sessionWritten

end Sys2Proof.Proofs
end

section
/-! SUPPORT. What the memory primitives do, when they are refused, and that no operation reaches outside the region
(20_memory.md R50 to R58, R65). -/

namespace Sys2Proof.Proofs

open Sys2Proof Sys2Proof.Machine Sys2Proof.Laws

/-! ### The destructive primitives -/

/-- A page stored whole with one value reads that value everywhere (R54). -/
theorem read_store_replicate {m : Memory} {a n k : Nat} {b : Byte} (hk : k < n) :
    (m.store a (List.replicate n b)).read (a + k) = b := by
  rw [read_store_inside (by simpa using hk), List.getElem_replicate]

/-- Settles O13: the page is stored at the operand, so the rest of the array is what it was, and reported `ok` every
stored byte is `ERASED_BYTE`. -/
theorem erasePageEffect : Obligations.ErasePageEffect := by
  intro s a hl ha
  obtain ⟨st, page, left, free, hlen, hpage, hans, he⟩ := nvmErasePage_completes hl ha
  refine ⟨_, st, he, rfl, fun hst k hk => ?_, fun x hx => ?_, hans,
    ⟨rfl, rfl, rfl, rfl⟩, ⟨rfl, rfl⟩, ⟨rfl, rfl, rfl, rfl, rfl⟩, ⟨rfl, rfl, rfl, rfl⟩, ⟨rfl, rfl, rfl, rfl⟩, rfl, rfl⟩
  · rw [hpage hst]
    exact read_store_replicate hk
  · exact read_store_outside (by rwa [hlen])

/-- Settles O14: the word the environment leaves is stored at the operand, so it reads back whole and the rest of the
array is what it was. -/
theorem programWordEffect : Obligations.ProgramWordEffect := by
  intro s a w hl ha
  obtain ⟨st, leaves, left, free, hans, he⟩ := nvmProgramWord_completes w hl ha
  have hdraw (p : ProgramAnswer) (rest : List ProgramAnswer) (h : s.env.programAnswers = p :: rest) :
      st = p.status ∧ (s.nvm.store a.toNat leaves.bytes).readWord a.toNat = p.leave.getD w ∧ left = rest := by
    rw [readWord_store]
    exact hans p rest h
  exact ⟨_, st, he, rfl, fun _ hx => read_store_outside hx, fun _ _ => hdraw _, fun _ => hdraw _,
    ⟨rfl, rfl, rfl, rfl⟩, ⟨rfl, rfl⟩, ⟨rfl, rfl, rfl, rfl, rfl⟩, ⟨rfl, rfl, rfl, rfl⟩, ⟨rfl, rfl, rfl, rfl⟩, rfl, rfl⟩

/-! ### All operations -/

/-- Settles O18: both parts are properties of the array and the parameters that the two destructive primitives keep. -/
theorem execTouchesOnlyTheRegion : Obligations.ExecTouchesOnlyTheRegion := by
  intro i s t hok h
  obtain ⟨_, houtside⟩ := exec_keeps (kept_outside s.cfg hok s.nvm) h ⟨rfl, fun _ _ => rfl⟩
  refine ⟨houtside, fun ha => ?_⟩
  obtain ⟨_, harray⟩ := exec_keeps kept_array h ⟨hok, ha⟩
  exact harray

/-! ### The lock, the read, and the refusals -/

/-- Settles O12: both complete from every state with `LOCK` and the record written. -/
theorem lockPrimitivesSetLock : Obligations.LockPrimitivesSetLock :=
  fun s => ⟨⟨nvmUnlock s, rfl, rfl, fun _ => rfl, rfl⟩, ⟨nvmLock s, rfl, rfl, fun _ => rfl, rfl⟩⟩

/-- Settles O15: the word read is the word the array holds, byte by byte. -/
theorem readWordExact : Obligations.ReadWordExact :=
  fun s a ha => ⟨_, s.nvm.readWord a.toNat, nvmReadWord_completes ha, rfl, rfl, rfl, rfl, rfl, rfl⟩

/-- Settles O16: each primitive is a test of its precondition whose other branch answers a next state. -/
theorem primitivesRefusedOutsidePreconditions : Obligations.PrimitivesRefusedOutsidePreconditions :=
  fun _ _ _ => ⟨Ne.ite_eq_right_iff nofun, Ne.ite_eq_right_iff nofun, Ne.ite_eq_right_iff nofun⟩

end Sys2Proof.Proofs
end

section
/-! SUPPORT. The wire (30_encoding.md): what a header byte can be, the wire units with the operations they carry, and the
decoder and the encoder as the two directions of that one relation; the fields of a packet, and the status vector. -/

namespace Sys2Proof.Proofs

open Sys2Proof Sys2Proof.Machine Sys2Proof.Laws

/-! ### Header bytes (R81, R89) -/

/-- What a header byte can be: one of the four recognised values, or any other, which the decoder keeps (R81, R89). -/
theorem headerByte_cases (b : Byte) : b = wireSoh ∨ b = wireStx ∨ b = wireEot ∨ b = wireCan ∨
    (recognizedHeader b = false ∧ decodeHeaderByte b = .hdrOther b ∧ headerKind (some b) = .unrecognized) := by
  by_cases h1 : b = wireSoh
  · exact .inl h1
  by_cases h2 : b = wireStx
  · exact .inr (.inl h2)
  by_cases h3 : b = wireEot
  · exact .inr (.inr (.inl h3))
  by_cases h4 : b = wireCan
  · exact .inr (.inr (.inr (.inl h4)))
  refine .inr (.inr (.inr (.inr ⟨?_, ?_, ?_⟩)))
  · simpa [recognizedHeader] using ⟨⟨⟨h1, h2⟩, h3⟩, h4⟩
  · simp [decodeHeaderByte, h1, h2, h3, h4]
  · simp [headerKind, h1, h2, h3, h4]

/-- Settles O1: four bytes are recognised, and a byte that is none of them is kept. -/
theorem headerDecodeIsExact : Obligations.HeaderDecodeIsExact := by
  refine ⟨⟨rfl, rfl⟩, ⟨rfl, rfl⟩, ⟨rfl, rfl⟩, ⟨rfl, rfl⟩, ⟨rfl, rfl⟩, fun b h1 h2 h3 h4 => ?_⟩
  obtain h | h | h | h | ⟨-, hdec, hkind⟩ := headerByte_cases b
  · exact absurd h h1
  · exact absurd h h2
  · exact absurd h h3
  · exact absurd h h4
  · exact ⟨hdec, hkind⟩

/-- Only a data header announces a packet (R88). -/
theorem payloadSize_headerKind_eq_some {b : Byte} {n : Nat} (h : payloadSize (headerKind (some b)) = some n) :
    (b = wireSoh ∧ n = 128) ∨ (b = wireStx ∧ n = 1024) := by
  obtain rfl | rfl | rfl | rfl | ⟨-, -, hkind⟩ := headerByte_cases b
  · cases h; exact .inl ⟨rfl, rfl⟩
  · cases h; exact .inr ⟨rfl, rfl⟩
  · cases h
  · cases h
  · rw [hkind] at h; cases h

/-- A header byte alone is its row, whatever it is (R81). -/
theorem decode_singleton (b : Byte) : decode [b] = .instr (decodeHeaderByte b) [] := rfl

/-- A header that announces no packet is a unit of one byte (R84). -/
theorem decode_cons_of_noPacket {b : Byte} (h : payloadSize (headerKind (some b)) = none) (rest : List Byte) :
    decode (b :: rest) = .instr (decodeHeaderByte b) rest := by
  cases rest with
  | nil => exact decode_singleton b
  | cons c cs => simp only [decode, h]

/-- A header that is no data header is a unit of one byte (R84). -/
theorem decode_cons_of_ne_data {b : Byte} (h1 : decodeHeaderByte b ≠ .soh) (h2 : decodeHeaderByte b ≠ .stx)
    (rest : List Byte) : decode (b :: rest) = .instr (decodeHeaderByte b) rest := by
  refine decode_cons_of_noPacket ?_ rest
  cases hn : payloadSize (headerKind (some b)) with
  | none => rfl
  | some n =>
    obtain ⟨rfl, -⟩ | ⟨rfl, -⟩ := payloadSize_headerKind_eq_some hn
    · exact absurd rfl h1
    · exact absurd rfl h2

/-! ### Wire units (R82 to R84) -/

/-- The wire units with the operations they carry: a header byte with its row, or a whole packet with its fields. -/
inductive WireUnit : Instr → List Byte → Prop where
  | header (b : Byte) : WireUnit (decodeHeaderByte b) [b]
  | short (s c h l : Byte) {p : List Byte} (hp : p.length = 128) :
    WireUnit (.pkt128 s c p h l) (wireSoh :: s :: c :: (p ++ [h, l]))
  | long (s c h l : Byte) {p : List Byte} (hp : p.length = 1024) :
    WireUnit (.pkt1k s c p h l) (wireStx :: s :: c :: (p ++ [h, l]))

/-- The wire unit of a well-formed operation is the encoder's. -/
theorem WireUnit.of_encode {i : Instr} {unit : List Byte} (hw : i.wellFormed = true) (he : encode i = some unit) :
    WireUnit i unit := by
  cases i with
  | soh => cases he; exact .header wireSoh
  | stx => cases he; exact .header wireStx
  | eot => cases he; exact .header wireEot
  | can => cases he; exact .header wireCan
  | hdrOther b =>
    cases he
    obtain rfl | rfl | rfl | rfl | ⟨-, hdec, -⟩ := headerByte_cases b
    case inr.inr.inr.inr => exact hdec ▸ .header b
    all_goals cases hw
  | pkt128 s c p h l => cases he; exact .short s c h l (beq_iff_eq.1 hw)
  | pkt1k s c p h l => cases he; exact .long s c h l (beq_iff_eq.1 hw)
  | _ => cases he

/-- An operation with a wire unit is well formed, and the encoder gives that unit. -/
theorem WireUnit.encodes {i : Instr} {unit : List Byte} (h : WireUnit i unit) :
    i.wellFormed = true ∧ encode i = some unit := by
  cases h with
  | header b =>
    obtain rfl | rfl | rfl | rfl | ⟨hrec, hdec, -⟩ := headerByte_cases b
    case inr.inr.inr.inr => rw [hdec]; exact ⟨by rw [Instr.wellFormed, hrec]; rfl, rfl⟩
    all_goals exact ⟨rfl, rfl⟩
  | short s c h l hp => exact ⟨beq_iff_eq.2 hp, rfl⟩
  | long s c h l hp => exact ⟨beq_iff_eq.2 hp, rfl⟩

/-- The decoder reads a unit that stands alone. -/
theorem WireUnit.decodes {i : Instr} {unit : List Byte} (h : WireUnit i unit) : decode unit = .instr i [] := by
  cases h with
  | header b => exact decode_singleton b
  | short s c h l hp => exact decode_pkt128 s c h l [] hp
  | long s c h l hp => exact decode_pkt1k s c h l [] hp

/-- The decoder reads a unit off the front of the bytes, unless a data header takes them for its packet. -/
theorem WireUnit.decodes_append {i : Instr} {unit : List Byte} (h : WireUnit i unit) (h1 : i ≠ .soh) (h2 : i ≠ .stx)
    (rest : List Byte) : decode (unit ++ rest) = .instr i rest := by
  cases h with
  | header b => exact decode_cons_of_ne_data h1 h2 rest
  | short s c h l hp => simpa [wireSoh] using decode_pkt128 s c h l rest hp
  | long s c h l hp => simpa [wireStx] using decode_pkt1k s c h l rest hp

/-- What a packet body that decodes is made of (R82, R83). -/
theorem decodeBody_eq_instr {n : Nat} {make : Byte → Byte → List Byte → Byte → Byte → Instr} {bytes rest : List Byte}
    {i : Instr} (hd : decodeBody n make bytes = .instr i rest) :
    ∃ s c p h l, p.length = n ∧ i = make s c p h l ∧ bytes = s :: c :: (p ++ [h, l]) ++ rest := by
  unfold decodeBody at hd
  split at hd
  · rename_i s c body
    split at hd
    · rename_i h l rest' hdrop
      cases hd
      refine ⟨s, c, body.take n, h, l, ?_, rfl, ?_⟩
      · have := congrArg List.length hdrop
        simp at this ⊢
        omega
      · simp [← hdrop]
    · cases hd
  · cases hd

/-- Whatever the decoder reads is a wire unit, taken off the front of the bytes. -/
theorem wireUnit_of_decode {bytes rest : List Byte} {i : Instr} (hd : decode bytes = .instr i rest) :
    ∃ unit, WireUnit i unit ∧ unit ++ rest = bytes := by
  match bytes with
  | [] => cases hd
  | [b] => cases hd; exact ⟨[b], .header b, rfl⟩
  | b :: c :: cs =>
    cases hn : payloadSize (headerKind (some b)) with
    | none =>
      cases (decode_cons_of_noPacket hn (c :: cs)).symm.trans hd
      exact ⟨[b], .header b, rfl⟩
    | some n =>
      simp only [decode, hn] at hd
      obtain ⟨s, c', p, h, l, hp, rfl, hbytes⟩ := decodeBody_eq_instr hd
      obtain ⟨rfl, rfl⟩ | ⟨rfl, rfl⟩ := payloadSize_headerKind_eq_some hn
      · exact ⟨_, .short s c' h l hp, by rw [hbytes]; rfl⟩
      · exact ⟨_, .long s c' h l hp, by rw [hbytes]; rfl⟩

/-- Settles O3: the encoder gives a wire unit, and the decoder reads wire units. -/
theorem decodeInvertsEncode : Obligations.DecodeInvertsEncode := by
  intro i unit hw he
  have hunit := WireUnit.of_encode hw he
  exact ⟨hunit.decodes, hunit.decodes_append⟩

/-- Settles O4: the decoder reads wire units only, and a wire unit is what the encoder gives. -/
theorem encodeInvertsDecode : Obligations.EncodeInvertsDecode := by
  intro bytes i rest hd
  obtain ⟨unit, hunit, happend⟩ := wireUnit_of_decode hd
  obtain ⟨hw, he⟩ := hunit.encodes
  exact ⟨hw, unit, he, happend⟩

/-- Settles O2: each list of bytes is a wire unit, with the bytes after it. -/
theorem wireWordsDecode : Obligations.WireWordsDecode :=
  ⟨rfl, rfl, rfl, rfl, rfl, decode_pkt128 _ _ _ _ [0x04#8] List.length_replicate,
    decode_pkt1k _ _ _ _ [] List.length_replicate⟩

/-! ### The fields of a packet (R85 to R87, R162) -/

/-- A payload of whole words is the bytes of its words (R87). -/
theorem wordsOf_flatMap_bytes {payload : List Byte} (h : payload.length % 4 = 0) :
    (wordsOf payload).flatMap NvmWord.bytes = payload := by
  induction payload using wordsOf.induct with
  | case1 b0 b1 b2 b3 rest ih =>
    simp only [List.length_cons] at h
    simp only [wordsOf, List.flatMap_cons, ih (by omega)]
    rfl
  | case2 payload hshort =>
    match payload with
    | [] => rfl
    | [_] | [_, _] | [_, _, _] => simp at h
    | b0 :: b1 :: b2 :: b3 :: rest => exact absurd rfl (hshort b0 b1 b2 b3 rest)

/-- Word `i` of a list of words has the bytes `4i` to `4i + 3` of it. -/
theorem bytes_of_getElem? {ws : List NvmWord} {i : Nat} {w : NvmWord} (h : ws[i]? = some w) :
    w.bytes = ((ws.flatMap NvmWord.bytes).drop (4 * i)).take 4 := by
  induction ws generalizing i with
  | nil => cases h
  | cons v ws ih =>
    cases i with
    | zero => cases h; simp [NvmWord.bytes]
    | succ i =>
      rw [ih h, List.flatMap_cons, Nat.mul_succ, Nat.add_comm, ← List.drop_drop]
      rfl

/-- Settles O5: the words' bytes in order are the payload, and word `i` is at `4i` in them. -/
theorem payloadWordsArePositional : Obligations.PayloadWordsArePositional := by
  intro payload h
  have hbytes := wordsOf_flatMap_bytes h
  refine ⟨wordsOf_length _ (by omega), fun i w hw => ?_, hbytes⟩
  rw [bytes_of_getElem? hw, hbytes]

theorem assembleCrc_toNat (high low : Byte) : (assembleCrc high low).toNat = high.toNat * 256 + low.toNat := by
  unfold assembleCrc
  bv_omega

theorem complement_toNat (b : Byte) : (complement b).toNat = 255 - b.toNat := by
  unfold complement
  bv_omega

/-- The complement is the exclusive-or with all bits set (R86). -/
theorem complement_eq_xor (b : Byte) : complement b = b ^^^ 0xFF#8 := by
  rw [show 0xFF#8 = BitVec.allOnes 8 from rfl, BitVec.xor_allOnes]
  apply BitVec.eq_of_toNat_eq
  rw [complement_toNat, BitVec.toNat_not]

/-- Check 2 is the sum without wrap (R162). -/
theorem complementMatches_iff_add (s c : Byte) : complementMatches s c = true ↔ s.toNat + c.toNat = 255 := by
  rw [complementMatches, beq_iff_eq]
  bv_omega

/-- Check 2 is the comparison with the complement (R86, R162). -/
theorem complementMatches_iff_eq (s c : Byte) : complementMatches s c = true ↔ c = complement s := by
  rw [complementMatches_iff_add, ← BitVec.toNat_inj, complement_toNat]
  omega

/-- Settles O6: check 2 is a sum of two bytes, which has no other way to be 255 modulo 256 and is even for equal bytes. -/
theorem wireFieldForms : Obligations.WireFieldForms := by
  refine ⟨assembleCrc_toNat, fun b => ⟨complement_toNat b, complement_eq_xor b⟩, fun s c => ?_⟩
  refine ⟨complementMatches_iff_add s c, ?_, complementMatches_iff_eq s c, ?_, ?_⟩
  · rw [complementMatches_iff_add]
    omega
  · rw [← complement_eq_xor, complementMatches_iff_eq]
  · rw [Bool.eq_false_iff, ne_eq, complementMatches_iff_add]
    omega

/-! ### The status vector (R95) -/

/-- The vector as a number: a weight for each failure. -/
theorem vector_toNat (f : Failures) : f.vector.toNat =
    f.communicationError.toNat + 2 * f.sequenceMismatch.toNat + 4 * f.crcMismatch.toNat + 8 * f.eraseFailed.toNat +
    16 * f.binaryTooLarge.toNat + 32 * f.writeFailed.toNat + 64 * f.readbackMismatch.toNat := by
  obtain ⟨b0, b1, b2, b3, b4, b5, b6⟩ := f
  revert b0 b1 b2 b3 b4 b5 b6
  decide

/-- The flash-related failures are the bits from 3 up (R95, R232). -/
theorem flashRelated_iff (f : Failures) : f.flashRelated = true ↔ 8 ≤ f.vector.toNat := by
  have h0 := f.communicationError.toNat_le
  have h1 := f.sequenceMismatch.toNat_le
  have h2 := f.crcMismatch.toNat_le
  rw [← not_iff_not, Bool.not_eq_true]
  simp only [Failures.flashRelated, Bool.or_eq_false_iff]
  simp only [← Bool.toNat_eq_zero, vector_toNat]
  omega

/-- No failure is the zero vector (R12, R95). -/
theorem isEmpty_iff (f : Failures) : f.isEmpty = true ↔ f.vector = 0#7 := by
  simp only [Failures.isEmpty, Failures.flashRelated, Failures.recoverable, Bool.and_eq_true, Bool.not_eq_true',
    Bool.or_eq_false_iff]
  simp only [← Bool.toNat_eq_zero, ← BitVec.toNat_inj, vector_toNat, BitVec.toNat_ofNat]
  omega

/-- Settles O7: each bit is read off the vector, and both classes off its weight. -/
theorem statusVectorBits : Obligations.StatusVectorBits := by
  intro f
  refine ⟨?_, ?_, ?_, ?_, ?_, ?_, ?_, (isEmpty_iff f).symm, (flashRelated_iff f).symm⟩
  all_goals
    simp only [Failures.vector, BitVec.getLsbD_append, BitVec.getLsbD_ofBool]
    simp

end Sys2Proof.Proofs
end

section
/-! SUPPORT. What the block emits (30_encoding.md R91), and the header byte's row as the steps from its fetch
(44_receive_engine.md R192, 00_scope.md R9). -/

namespace Sys2Proof.Proofs

open Sys2Proof Sys2Proof.Machine Sys2Proof.Laws

/-! ### What is emitted (R91, R172, R173) -/

@[simp] theorem reachedBytes_cons (e : Event) (tr : List Event) :
    reachedBytes (e :: tr) = reachedBytes tr ++ e.reached := by
  simp [reachedBytes]

/-- What only draws an answer and records the interaction changes no register. -/
theorem sameRegisters_of_record (s : State) (env : Environment) (free : Nat) (trace : List Event) (ret : Returned) :
    sameControl s { s with env := env, free := free, trace := trace, ret := ret } ∧
    sameRegisters s { s with env := env, free := free, trace := trace, ret := ret } :=
  ⟨⟨rfl, rfl⟩, ⟨rfl, rfl, rfl, rfl⟩, ⟨rfl, rfl, rfl, rfl, rfl⟩, ⟨rfl, rfl, rfl, rfl⟩, ⟨rfl, rfl, rfl, rfl⟩,
    fun _ => rfl, rfl⟩

/-- The next listed answer is the one drawn (R6). -/
theorem drawStatus_cons (st : Status) (rest : List Status) (k : Nat) : drawStatus (st :: rest) k = ⟨st, rest, k⟩ := rfl

/-- A row of format TX sends its bytes (R91; log 34). -/
theorem exec_emission {s : State} {i : Instr} {bytes : List Byte} (h : emission s.cfg i = some bytes) :
    ∃ t, exec i s = .next t ∧ sends bytes s t ∧ sameControl s t ∧ sameRegisters s t := by
  cases i with
  | txProbeC => cases h; exact ⟨_, rfl, transmit_sends _ _, sameRegisters_of_record s _ _ _ _⟩
  | txAck => cases h; exact ⟨_, rfl, transmit_sends _ _, sameRegisters_of_record s _ _ _ _⟩
  | txNak => cases h; exact ⟨_, rfl, transmit_sends _ _, sameRegisters_of_record s _ _ _ _⟩
  | txAckEot => cases h; exact ⟨_, rfl, by simp [sends], sameRegisters_of_record s _ _ _ _⟩
  | txCanCan => cases h; exact ⟨_, rfl, by simp [sends], sameRegisters_of_record s _ _ _ _⟩
  | _ => cases h

/-- Settles O36: the record holds the byte or the text with the answer drawn, and nothing else of the state but the answers
left is written. -/
theorem emissionsAreExactly : Obligations.EmissionsAreExactly := by
  intro s
  refine ⟨fun i bytes => exec_emission, fun b => ?_, fun text => ?_⟩
  · refine ⟨transmit b s, (drawStatus s.env.transmitAnswers s.free).answer, rfl, rfl, rfl, transmit_sends b s,
      fun x rest h => ?_, fun h => ?_, fun h => ?_, sameRegisters_of_record s _ _ _ _⟩
    · simp [transmit, State.record, h, drawStatus_cons]
    · simp [transmit, State.record, h, Event.reached]
    · simp [transmit, State.record, h, Event.reached]
  · refine ⟨transmitText text s, (drawStatus s.env.textAnswers s.free).answer, rfl, rfl, rfl, transmitText_sends text s,
      fun x rest h => ?_, fun h => ?_, sameRegisters_of_record s _ _ _ _⟩
    · simp [transmitText, State.record, h, drawStatus_cons]
    · simp [transmitText, State.record, h, Event.reached]

/-! ### The header byte and its row (R81, R192, R199) -/

/-- `READ_HEADER` on a byte is one `Receive(1)` and the kind of that byte (R175). -/
theorem readHeader_eq_withKind_of_byte {s : State} {b : Byte} {rest : List LineItem} (h : s.env.line = .byte b :: rest) :
    readHeader s = (receive 1 s).withKind (headerKind (some b)) := by
  rw [readHeader_byte h, receive_bytes (n := 1) (bytes := [b]) rfl h]
  rfl

/-- `READ_HEADER` on a silence is one `Receive(1)` and no header (R175). -/
theorem readHeader_eq_withKind_of_quiet {s : State} {rest : List LineItem} (h : s.env.line = .quiet :: rest) :
    readHeader s = (receive 1 s).withKind .none := by
  rw [readHeader_quiet h, receive_quiet (n := 1) (bytes := []) Nat.one_pos h]
  rfl

/-- Only a data header leads to `RECEIVE_PACKET` (R192, R195). -/
theorem hdrKind_of_dispatchHeader {s : State} (h : (dispatchHeader s).state = .receivePacket) :
    s.hdrKind = .shortData ∨ s.hdrKind = .longData := by
  unfold dispatchHeader at h
  cases hk : s.hdrKind <;> simp only [hk] at h
  case shortData => exact .inl rfl
  case longData => exact .inr rfl
  case none =>
    split at h
    · exact absurd h (errorHandler_notInPacket s)
    · cases h
  case unrecognized => exact absurd h (errorHandler_notInPacket s)
  all_goals cases h

/-- The row of a data header has no interaction of its own: its first computation is the whole row (R195). -/
theorem startRow_of_receivePacket {s : State} (h : (dispatchHeader s).state = .receivePacket) :
    startRow s = intoRule (dispatchHeader s) := by
  unfold startRow dispatchHeader
  obtain hk | hk := hdrKind_of_dispatchHeader h <;> rw [hk] <;> rfl

theorem run_succ_of_step {s t : State} (h : step s = .next t) (k : Nat) :
    Host.Core.run core (k + 1) s = Host.Core.run core k t := by
  have hcore : core.step s = .next t := h
  simp only [Host.Core.run, hcore]

section

variable {s : State} (hok : s.cfg.Ok) (hr : s.env.resetIn = none) (hs : s.state = .awaitHeader) (hp : s.pos = .start)
include hs hp

theorem nextOp_awaitHeader : nextOp s = some .readHeader := by
  simp only [nextOp, firstOperation, hp, hs]

include hok hr

/-- The first step reads the header and begins its row (R9, R192). -/
theorem step_awaitHeader : step s = .next (startRow (readHeader s)) := by
  rw [step_of_nextOp hok (nextOp_awaitHeader hs hp) (by simp [hr]), tick_of_none hr, hp, hs]
  rfl

/-- The steps from the fetch run the row, up to the first interaction of the next rule (R192). -/
theorem awaitHeader_runs :
    ∃ k, 0 < k ∧ Host.Core.run core k s = .next (intoRule (dispatchHeader (readHeader s))) := by
  obtain ⟨k, hk⟩ := startRow_reaches (s := readHeader s) (by simpa using hok) (by simpa [readHeader] using hr)
  exact ⟨k + 1, k.succ_pos, by rw [run_succ_of_step (step_awaitHeader hok hr hs hp), hk]⟩

end

/-- Settles O55: the steps run the dispatch on the kind that was read, and so does the row the byte decodes to; where the
row leads to `RECEIVE_PACKET`, the first step is all of it. -/
theorem headerByteRunsItsRow : Obligations.HeaderByteRunsItsRow := by
  intro s hok hr hs hp
  have hstep := step_awaitHeader hok hr hs hp
  obtain ⟨k, hk, hrun⟩ := awaitHeader_runs hok hr hs hp
  have hrs : (receive 1 s).state = .awaitHeader := by simpa using hs
  have hreceive := exec_receive s (Nat.le_refl 1)
  refine ⟨nextOp_awaitHeader hs hp, fun b rest hline => ?_, fun rest hline => ?_⟩
  · rw [readHeader_eq_withKind_of_byte hline] at hstep hrun
    have hrow := exec_decodeHeaderByte b hrs
    by_cases hv : (dispatchHeader ((receive 1 s).withKind (headerKind (some b)))).state = .receivePacket
    · refine ⟨_, _, 1, hreceive, hrow, Nat.one_pos, fun hne => absurd hv hne, fun _ => ⟨rfl, ?_⟩⟩
      rw [hstep, startRow_of_receivePacket hv, intoRule, if_pos hv]
      rfl
    · refine ⟨_, _, k, hreceive, hrow, hk, fun _ => ?_, fun h => absurd h hv⟩
      rw [hrun, intoRule_of_ne hv]
  · rw [readHeader_eq_withKind_of_quiet hline] at hrun
    refine ⟨_, k, hreceive, hk, ?_⟩
    rw [hrun, exec_hdrNone hrs, intoRule_of_ne fun h => by simpa using hdrKind_of_dispatchHeader h]
    rfl

end Sys2Proof.Proofs
end

section
/-! SUPPORT. The Integrity Codec (40_integrity_codec.md R111 to R119): the register is a vector over GF(2) on which the shift
is linear, and its polynomial is the remainder that R114 asks for. -/

namespace Sys2Proof.Proofs

open Sys2Proof Sys2Proof.Machine

/-! ### The shift register (R112, R113) -/

@[simp] theorem crc16_nil : crc16 [] = 0x0000#16 := rfl

/-- One more byte is one more `CRC_BYTE` (R113). -/
theorem crc16_append_singleton (data : List Byte) (b : Byte) : crc16 (data ++ [b]) = crcByte (crc16 data) b :=
  List.foldl_append

/-- Settles O11: `exec` of either operation is its one write. -/
theorem crcOperationsWriteOnlyCrc : Obligations.CrcOperationsWriteOnlyCrc :=
  ⟨fun _ _ _ => rfl, fun _ _ => rfl, crc16_nil, crc16_append_singleton⟩

/-- One shift moves the register left and subtracts the polynomial if bit 15 was set (R112). -/
theorem crcShift_eq_shiftLeft_xor (t : CrcWord) :
    crcShift t = (t <<< 1) ^^^ (if t.msb then crcPolynomial else 0x0000#16) := by
  cases h : t.msb <;> simp [crcShift, h]

/-- The shift is linear over GF(2): of two subtractions nothing remains. -/
theorem crcShift_xor (t u : CrcWord) : crcShift (t ^^^ u) = crcShift t ^^^ crcShift u := by
  have hsub : (if (t ^^^ u).msb then crcPolynomial else 0x0000#16) =
      (if t.msb then crcPolynomial else 0x0000#16) ^^^ (if u.msb then crcPolynomial else 0x0000#16) := by
    rw [BitVec.msb_xor]
    cases t.msb <;> cases u.msb <;> decide
  simp only [crcShift_eq_shiftLeft_xor, hsub, BitVec.shiftLeft_xor_distrib]
  ac_rfl

theorem repeat_crcShift_xor (n : Nat) (t u : CrcWord) :
    Nat.repeat crcShift n (t ^^^ u) = Nat.repeat crcShift n t ^^^ Nat.repeat crcShift n u := by
  induction n with
  | zero => rfl
  | succ n ih => simp only [Nat.repeat, ih, crcShift_xor]

/-- As long as no set bit is shifted out, the shifts are one shift left. -/
theorem repeat_crcShift_of_lt {n : Nat} {t : CrcWord} (h : t.toNat * 2 ^ n < 2 ^ 16) :
    Nat.repeat crcShift n t = t <<< n := by
  induction n with
  | zero => simp [Nat.repeat]
  | succ n ih =>
    rw [Nat.pow_succ, ← Nat.mul_assoc] at h
    have hshift : (t <<< n).toNat = t.toNat * 2 ^ n := by
      rw [BitVec.toNat_shiftLeft, Nat.shiftLeft_eq, Nat.mod_eq_of_lt (by omega)]
    have hmsb : (t <<< n).msb = false := by
      rw [BitVec.msb_eq_false_iff_two_mul_lt, hshift]
      omega
    rw [Nat.repeat, ih (by omega), crcShift_eq_shiftLeft_xor, hmsb, if_neg Bool.false_ne_true, BitVec.xor_zero,
      BitVec.shiftLeft_add]

/-- A register with the byte brought in is its low byte and, above it, the byte the table is read at (R119). -/
theorem xor_byte_eq_lowByte_xor_index (c : CrcWord) (b : Byte) :
    c ^^^ (b.setWidth 16 <<< 8) =
      (c.setWidth 8).setWidth 16 ^^^ (((c >>> 8).setWidth 8 ^^^ b).setWidth 16 <<< 8) := by
  ext i hi
  by_cases h : i < 8
  · simp [h, hi]
  · simp [h, hi, show i - 8 < 8 by omega, show 8 + (i - 8) = i by omega]

/-- The low byte of the register has no bit to test in eight shifts. -/
theorem repeat_crcShift_lowByte (c : CrcWord) :
    Nat.repeat crcShift 8 ((c.setWidth 8).setWidth 16) = c <<< 8 := by
  rw [repeat_crcShift_of_lt (by rw [BitVec.toNat_setWidth]; omega)]
  bv_omega

/-- Settles O8: the eight shifts are linear, so the low byte and the byte the table is read at go through them apart. -/
theorem crcByteTableForm : Obligations.CrcByteTableForm := by
  intro c b
  rw [crcByte, xor_byte_eq_lowByte_xor_index, repeat_crcShift_xor, repeat_crcShift_lowByte, crcByte, BitVec.zero_xor]

/-! ### The residue (R118) -/

theorem crcByte_zero_zero : crcByte 0x0000#16 0x00#8 = 0x0000#16 := by decide

/-- The high byte of the register, brought in, cancels: what is left is the low byte, one place up. -/
theorem crcByte_highByte (c : CrcWord) : crcByte c (c.extractLsb' 8 8) = c <<< 8 := by
  have hindex : (c >>> 8).setWidth 8 ^^^ c.extractLsb' 8 8 = 0x00#8 := BitVec.xor_self
  rw [crcByteTableForm, hindex, crcByte_zero_zero, BitVec.xor_zero]

/-- The low byte cancels in its turn. -/
theorem crcByte_lowByte (c : CrcWord) : crcByte (c <<< 8) (c.extractLsb' 0 8) = 0x0000#16 := by
  have hhigh : (c <<< 8).extractLsb' 8 8 = c.extractLsb' 0 8 := by
    ext i hi
    simp [show 8 + i < 16 by omega, BitVec.getLsbD_eq_getElem (x := c) (show i < 16 by omega)]
  rw [← hhigh, crcByte_highByte, ← BitVec.shiftLeft_add]
  exact BitVec.shiftLeft_eq_zero (by decide)

/-- Settles O9: the two bytes take the register's two bytes away. -/
theorem crcResidueIsZero : Obligations.CrcResidueIsZero := by
  intro data
  rw [List.append_cons, crc16_append_singleton, crc16_append_singleton, crcByte_highByte, crcByte_lowByte]

/-! ### The remainder over GF(2) (R114) -/

section

open Polynomial

@[simp] theorem bitPolynomial_nil : bitPolynomial [] = 0 := rfl

theorem bitPolynomial_append_singleton (bits : List Bool) (b : Bool) :
    bitPolynomial (bits ++ [b]) = bitPolynomial bits * X + if b then 1 else 0 :=
  List.foldl_append

theorem bitPolynomial_append (bits bits' : List Bool) :
    bitPolynomial (bits ++ bits') = bitPolynomial bits * X ^ bits'.length + bitPolynomial bits' := by
  induction bits' using List.reverseRecOn with
  | nil => simp
  | append_singleton bits' b ih =>
    rw [← List.append_assoc, bitPolynomial_append_singleton, bitPolynomial_append_singleton, ih, List.length_append,
      List.length_singleton]
    ring

theorem bitPolynomial_cons (b : Bool) (bits : List Bool) :
    bitPolynomial (b :: bits) = (if b then X ^ bits.length else 0) + bitPolynomial bits := by
  rw [← List.singleton_append, bitPolynomial_append]
  cases b <;> simp [bitPolynomial]

/-- The coefficient of `x^i` of `n` bits, highest first, is bit `i`. -/
theorem coeff_bitPolynomial_range (bit : Nat → Bool) (n i : Nat) :
    (bitPolynomial ((List.range n).map fun k => bit (n - 1 - k))).coeff i = if i < n ∧ bit i then 1 else 0 := by
  induction n with
  | zero => simp
  | succ n ih =>
    have hbits : (List.range (n + 1)).map (fun k => bit (n + 1 - 1 - k)) =
        bit n :: (List.range n).map fun k => bit (n - 1 - k) := by
      rw [List.range_succ_eq_map, List.map_cons, List.map_map]
      exact congrArg (bit n :: ·) (List.map_congr_left fun k _ => congrArg bit (by omega))
    rw [hbits, bitPolynomial_cons, coeff_add, ih, List.length_map, List.length_range]
    obtain hlt | rfl | hgt := Nat.lt_trichotomy i n
    · cases bit n <;> simp [coeff_X_pow, hlt, hlt.ne, Nat.lt_succ_of_lt hlt]
    · cases bit i <;> simp
    · cases bit n <;> simp [coeff_X_pow, hgt.ne', hgt.not_gt, Nat.not_lt.mpr hgt]

theorem coeff_wordBits (c : CrcWord) (i : Nat) :
    (bitPolynomial (wordBits c)).coeff i = if c.getLsbD i then 1 else 0 := by
  refine (coeff_bitPolynomial_range c.getLsbD 16 i).trans ?_
  simp only [and_iff_right_of_imp (c.lt_of_getLsbD (i := i))]

theorem coeff_byteBits (b : Byte) (i : Nat) :
    (bitPolynomial (byteBits b)).coeff i = if b.getLsbD i then 1 else 0 := by
  refine (coeff_bitPolynomial_range b.getLsbD 8 i).trans ?_
  simp only [and_iff_right_of_imp (b.lt_of_getLsbD (i := i))]

@[simp] theorem bitPolynomial_wordBits_zero : bitPolynomial (wordBits 0x0000#16) = 0 := by
  ext i
  simp [coeff_wordBits]

theorem bitPolynomial_wordBits_xor (c d : CrcWord) :
    bitPolynomial (wordBits (c ^^^ d)) = bitPolynomial (wordBits c) + bitPolynomial (wordBits d) := by
  ext i
  rw [coeff_add, coeff_wordBits, coeff_wordBits, coeff_wordBits, BitVec.getLsbD_xor]
  cases c.getLsbD i <;> cases d.getLsbD i <;> decide

/-- The byte enters at bits 15:8 (R112). -/
theorem bitPolynomial_wordBits_byte (b : Byte) :
    bitPolynomial (wordBits (b.setWidth 16 <<< 8)) = bitPolynomial (byteBits b) * X ^ 8 := by
  ext i
  rw [coeff_wordBits, coeff_mul_X_pow', coeff_byteBits, BitVec.getLsbD_shiftLeft, BitVec.getLsbD_setWidth]
  by_cases h : i < 8
  · simp [h]
  · cases hb : b.getLsbD (i - 8) with
    | false => simp
    | true =>
      have hlt := b.lt_of_getLsbD hb
      simp [show i < 16 by omega, show i - 8 < 16 by omega, Nat.not_lt.mp h]

/-- Shifting left multiplies by `x`, but for the bit shifted out. -/
theorem bitPolynomial_wordBits_shiftLeft (t : CrcWord) :
    bitPolynomial (wordBits (t <<< 1)) + (if t.msb then X ^ 16 else 0) = X * bitPolynomial (wordBits t) := by
  ext i
  rw [coeff_add, coeff_wordBits, BitVec.msb_eq_getLsbD_last, apply_ite (coeff · i), coeff_X_pow, coeff_zero]
  cases i with
  | zero => simp
  | succ i =>
    rw [coeff_X_mul, coeff_wordBits, BitVec.getLsbD_shiftLeft, Nat.add_sub_cancel]
    obtain hlt | rfl | hgt := Nat.lt_trichotomy i 15
    · simp [show i + 1 < 16 by omega, hlt.ne]
    · simp
    · simp [show ¬ i + 1 < 16 by omega, hgt.ne', t.getLsbD_of_ge i hgt]

/-- The polynomial of R111 is the generator of R114 without its highest term. -/
theorem crcGenerator_eq_add_crcPolynomial : crcGenerator = X ^ 16 + bitPolynomial (wordBits crcPolynomial) := by
  have hbits : wordBits crcPolynomial = [false, false, false, true, false, false, false, false,
    false, false, true, false, false, false, false, true] := by decide
  simp only [hbits, crcGenerator, bitPolynomial_cons, bitPolynomial_nil, Bool.false_eq_true, if_false, if_true,
    List.length_cons, List.length_nil]
  ring

/-- One shift multiplies by `x` and takes the generator away if it fits (R112, R114). -/
theorem bitPolynomial_wordBits_crcShift (t : CrcWord) :
    bitPolynomial (wordBits (crcShift t)) = X * bitPolynomial (wordBits t) + if t.msb then crcGenerator else 0 := by
  rw [crcShift_eq_shiftLeft_xor, bitPolynomial_wordBits_xor, ← bitPolynomial_wordBits_shiftLeft,
    crcGenerator_eq_add_crcPolynomial]
  cases t.msb with
  | false => simp
  | true =>
    simp only [if_true]
    linear_combination -(CharTwo.add_self_eq_zero (X ^ 16 : (ZMod 2)[X]))

theorem crcGenerator_monic : crcGenerator.Monic := by
  unfold crcGenerator
  monicity!

theorem degree_crcGenerator : crcGenerator.degree = 16 := by
  unfold crcGenerator
  compute_degree!

/-- A register's polynomial is a possible remainder. -/
theorem degree_bitPolynomial_wordBits_lt (c : CrcWord) : (bitPolynomial (wordBits c)).degree < crcGenerator.degree := by
  rw [degree_crcGenerator]
  refine (degree_lt_iff_coeff_zero _ 16).mpr fun i hi => ?_
  rw [coeff_wordBits, BitVec.getLsbD_of_ge c i hi]
  rfl

/-- The residue of a polynomial modulo the generator. -/
noncomputable abbrev modGenerator : (ZMod 2)[X] →+* AdjoinRoot crcGenerator := AdjoinRoot.mk crcGenerator

/-- Modulo the generator, a shift multiplies by `x`. -/
theorem modGenerator_crcShift (t : CrcWord) :
    modGenerator (bitPolynomial (wordBits (crcShift t))) = modGenerator (X * bitPolynomial (wordBits t)) := by
  rw [bitPolynomial_wordBits_crcShift]
  cases t.msb <;> simp

theorem modGenerator_repeat_crcShift (n : Nat) (t : CrcWord) :
    modGenerator (bitPolynomial (wordBits (Nat.repeat crcShift n t))) =
      modGenerator (bitPolynomial (wordBits t) * X ^ n) := by
  induction n with
  | zero => simp [Nat.repeat]
  | succ n ih =>
    rw [Nat.repeat, modGenerator_crcShift, map_mul, ih, ← map_mul]
    exact congrArg modGenerator (by ring)

/-- `CRC_BYTE` appends the byte's bits to the message, modulo the generator (R112, R114). -/
theorem modGenerator_crcByte (c : CrcWord) (b : Byte) :
    modGenerator (bitPolynomial (wordBits (crcByte c b))) =
      modGenerator (bitPolynomial (wordBits c) * X ^ 8 + bitPolynomial (byteBits b) * X ^ 16) := by
  rw [crcByte, modGenerator_repeat_crcShift, bitPolynomial_wordBits_xor, bitPolynomial_wordBits_byte]
  exact congrArg modGenerator (by ring)

@[simp] theorem length_byteBits (b : Byte) : (byteBits b).length = 8 := by simp [byteBits]

/-- The loop keeps the register the residue of the message read so far times `x^16` (R113, R114). -/
theorem modGenerator_crc16 (data : List Byte) :
    modGenerator (bitPolynomial (wordBits (crc16 data))) =
      modGenerator (bitPolynomial (data.flatMap byteBits) * X ^ 16) := by
  induction data using List.reverseRecOn with
  | nil => simp
  | append_singleton data b ih =>
    rw [crc16_append_singleton, modGenerator_crcByte, map_add, map_mul, ih, ← map_mul, ← map_add, List.flatMap_append,
      List.flatMap_singleton, bitPolynomial_append, length_byteBits]
    exact congrArg modGenerator (by ring)

/-- Settles O10: the register is congruent to the message times `x^16`, and of a degree below the generator's. -/
theorem crcIsPolynomialRemainder : Obligations.CrcIsPolynomialRemainder := by
  intro data
  calc bitPolynomial (wordBits (crc16 data))
      = bitPolynomial (wordBits (crc16 data)) %ₘ crcGenerator :=
        ((modByMonic_eq_self_iff crcGenerator_monic).mpr (degree_bitPolynomial_wordBits_lt _)).symm
    _ = (bitPolynomial (data.flatMap byteBits) * X ^ 16) %ₘ crcGenerator :=
        modByMonic_eq_of_dvd_sub crcGenerator_monic (AdjoinRoot.mk_eq_mk.mp (modGenerator_crc16 data))

end

end Sys2Proof.Proofs
end

section
/-! SUPPORT. The memory stays locked (41_memory_programmer.md R141): the outcome of an operation that found it locked is a
refusal, a fault, or a state in which it is locked. -/

namespace Sys2Proof.Proofs

open Sys2Proof Sys2Proof.Machine Sys2Proof.Laws

/-! ### Outcomes that are locked -/

/-- Whatever state the outcome is, the memory is locked in it. -/
inductive LeavesLocked : Out → Prop where
  | next {t : State} (h : t.lock = true) : LeavesLocked (.next t)
  | fault (r : Fault) : LeavesLocked (.fault r)
  | refused (r : Refusal) : LeavesLocked (.refused r)

theorem LeavesLocked.lock {o : Out} {t : State} (h : LeavesLocked o) (ht : o = .next t) : t.lock = true := by
  subst ht
  cases h
  assumption

theorem LeavesLocked.ite {c : Prop} [Decidable c] {o o' : Out} (h : c → LeavesLocked o) (h' : ¬c → LeavesLocked o') :
    LeavesLocked (if c then o else o') := by
  split
  · exact h ‹_›
  · exact h' ‹_›

theorem LeavesLocked.andThen {o : Out} {k : State → Out} (h : ∀ s, o = .next s → LeavesLocked (k s)) :
    LeavesLocked (andThen o k) := by
  cases o with
  | next s => exact h s rfl
  | fault r => exact .fault r
  | refused r => exact .refused r

theorem LeavesLocked.onlyIn {st : EngineState} {s : State} {k : State → Out}
    (h : s.state = st → LeavesLocked (k s)) : LeavesLocked (onlyIn st s k) :=
  .ite h fun _ => .refused _

theorem LeavesLocked.withPacketSize {s : State} {k : Nat → State → Out} (h : ∀ n, LeavesLocked (k n s)) :
    LeavesLocked (withPacketSize s k) := by
  cases hn : s.packetSize with
  | some n => exact withPacketSize_of k hn ▸ h n
  | none => exact withPacketSize_refused k hn ▸ .refused _

/-! ### What leaves `LOCK` alone -/

theorem errorHandler_lock (s : State) : (errorHandler s).lock = s.lock := by
  obtain ⟨⟨-, -, -, ⟨hlock, -⟩, -⟩, -⟩ := errorHandler_same s
  exact hlock

theorem dispatchHeader_lock (s : State) : (dispatchHeader s).lock = s.lock := by
  unfold dispatchHeader
  cases s.hdrKind with
  | none =>
    cases s.erased with
    | true => exact errorHandler_lock s
    | false => rfl
  | shortData | longData | endOfTransmission | cancel => rfl
  | unrecognized => exact errorHandler_lock s

theorem readPacket_lock (n : Nat) (s : State) : (readPacket n s).lock = s.lock := by simp [readPacket]

theorem classify_lock (s : State) : (classify s).lock = s.lock := by
  rw [classify, errorHandler_lock, escalateIfFlash_lock]

/-! ### The operations that unlock lock again -/

/-- `ERASE` locks last (R131, R141). -/
theorem eraseRegion_leavesLocked (start : Addr) (s : State) : LeavesLocked (eraseRegion start s) :=
  .andThen fun _ _ => .next rfl

/-- `WRITE` locks last (R135, R141). -/
theorem writeRegion_leavesLocked (addr : Addr) (ws : List NvmWord) (s : State) : LeavesLocked (writeRegion addr ws s) :=
  .andThen fun _ _ => .next rfl

theorem eraseStep_leavesLocked {s : State} (hl : s.lock = true) : LeavesLocked (eraseStep s) :=
  .ite (fun _ => .next hl) fun _ => .andThen fun u hu =>
    .next ((noteErased_lock u).trans ((eraseRegion_leavesLocked _ s).lock hu))

theorem validateWriteStep_leavesLocked (n : Nat) {s : State} (hl : s.lock = true) : LeavesLocked (validateWriteStep n s) :=
  .ite (fun _ => writeRegion_leavesLocked ..) fun _ => .next hl

theorem receivePacket_leavesLocked (n : Nat) {s : State} (hl : s.lock = true) : LeavesLocked (receivePacket n s) := by
  have hread : (readPacket n (clearFailures s)).lock = true := (readPacket_lock n _).trans hl
  refine .andThen fun ready h1 => .andThen fun done h2 => .next ?_
  have hready : ready.lock = true :=
    (LeavesLocked.ite (fun _ => eraseStep_leavesLocked hread) fun _ => .next hread).lock h1
  have hdone : done.lock = true :=
    (LeavesLocked.ite (fun _ => validateWriteStep_leavesLocked n hready) fun _ => .next hready).lock h2
  split
  · exact hdone
  · exact (classify_lock done).trans hdone

theorem receivePacketStep_leavesLocked {s : State} (hl : s.lock = true) : LeavesLocked (execReceivePacketStep s) :=
  .onlyIn fun _ => .withPacketSize fun n => receivePacket_leavesLocked n hl

theorem receiveUnit_leavesLocked (bytes : List Byte) {s : State} (hl : s.lock = true) :
    LeavesLocked (receiveUnit bytes s) :=
  .onlyIn fun _ => receivePacketStep_leavesLocked ((dispatchHeader_lock _).trans hl)

/-! ### All operations -/

/-- One case for each row: a primitive that needs the memory unlocked is refused, an operation that unlocks locks last, and
every other one leaves `LOCK` alone. -/
theorem exec_leavesLocked {i : Instr} {s : State} (hi : i ≠ .nvmUnlock) (hl : s.lock = true) : LeavesLocked (exec i s) := by
  have hhandler (k : HeaderKind) : (errorHandler (s.withKind k)).lock = true := (errorHandler_lock _).trans hl
  unfold exec
  cases i with
  | soh => exact .onlyIn fun _ => .next hl
  | stx => exact .onlyIn fun _ => .next hl
  | eot => exact .onlyIn fun _ => .next hl
  | can => exact .onlyIn fun _ => .next hl
  | hdrOther header => exact .ite (fun _ => .refused _) fun _ => .onlyIn fun _ => .next (hhandler _)
  | hdrNone =>
    refine .onlyIn fun _ => .next ?_
    split
    · exact hhandler _
    · exact hl
  | hdrNoneErased => exact .onlyIn fun _ => .ite (fun _ => .next (hhandler _)) fun _ => .refused _
  | pkt128 => exact .ite (fun _ => receiveUnit_leavesLocked _ hl) fun _ => .refused _
  | pkt1k => exact .ite (fun _ => receiveUnit_leavesLocked _ hl) fun _ => .refused _
  | txProbeC => exact .next hl
  | txAck => exact .next hl
  | txAckEot => exact .next hl
  | txNak => exact .next hl
  | txCanCan => exact .next hl
  | crcByte => exact .next hl
  | crc16 => exact .next hl
  | erase => exact .ite (fun _ => eraseRegion_leavesLocked ..) fun _ => .refused _
  | write => exact .ite (fun _ => writeRegion_leavesLocked ..) fun _ => .refused _
  | validate => exact .next hl
  | readHeader => exact .next hl
  | readPacket n => exact .ite (fun _ => .next ((readPacket_lock n s).trans hl)) fun _ => .refused _
  | invoke => exact .ite (fun _ => .next hl) fun _ => .refused _
  | awaitHeaderStep => exact .onlyIn fun _ => .next ((dispatchHeader_lock _).trans hl)
  | receivePacketStep => exact receivePacketStep_leavesLocked hl
  | eraseStep => exact .onlyIn fun _ => eraseStep_leavesLocked hl
  | validateWriteStep => exact .onlyIn fun _ => .withPacketSize fun n => validateWriteStep_leavesLocked n hl
  | accept => exact .onlyIn fun _ => .withPacketSize fun _ => .next hl
  | classify => exact .onlyIn fun _ => .next ((classify_lock s).trans hl)
  | errorHandler => exact .ite (fun _ => .next ((errorHandler_lock s).trans hl)) fun _ => .refused _
  | appJump => exact .onlyIn fun _ => .ite (fun _ => .fault _) fun _ => .next hl
  | returnToCaller => exact .onlyIn fun _ => .ite (fun _ => .fault _) fun _ => .next hl
  | nvmUnlock => exact absurd rfl hi
  | nvmLock => exact .next rfl
  | nvmErasePage => exact .ite (fun ⟨hu, _⟩ => absurd hu (by simp [hl])) fun _ => .refused _
  | nvmProgramWord => exact .ite (fun ⟨hu, _⟩ => absurd hu (by simp [hl])) fun _ => .refused _
  | nvmReadWord => exact .ite (fun _ => .next hl) fun _ => .refused _
  | receive => exact .ite (fun _ => .next hl) fun _ => .refused _
  | transmit => exact .next hl
  | transmitText => exact .next hl

/-- Settles O19: only `NvmUnlock` clears `LOCK`, and the two operations that issue it end with `NvmLock`. -/
theorem execLeavesMemoryLocked : Obligations.ExecLeavesMemoryLocked :=
  fun _ _ _ hi hl h => (exec_leavesLocked hi hl).lock h

end Sys2Proof.Proofs
end

section
/-! SUPPORT. The Memory Programmer as operations (41_memory_programmer.md R131 to R143): `ERASE`, and `WRITE` over words that
are answered as intended, up to the first one that is not. -/

namespace Sys2Proof.Proofs

open Sys2Proof Sys2Proof.Machine Sys2Proof.Laws

/-! ### ERASE -/

/-- Settles O21: without a failure the loop stores `ERASED_BYTE` in every page from `start` on, and its frame holds the other
registers. -/
theorem eraseErasesTheRegion : Obligations.EraseErasesTheRegion := by
  intro s start hok hs
  obtain ⟨t, _, ht, hframe, _, herased, houtside, hanswers, _⟩ := eraseRegion_spec hok hs
  exact ⟨nvmLock t, (exec_erase hs).trans ht, rfl, herased, houtside, hanswers, hframe.session, hframe.control,
    hframe.packet, hframe.commFail, hframe.vFail, hframe.pFail, hframe.crc, hframe.cfg⟩

/-- Settles O22: the loop ends at the page whose report is `fail`, so it stored nothing beyond that page. -/
theorem eraseStopsAtFirstFailure : Obligations.EraseStopsAtFirstFailure := by
  intro s start k rest hok hs hk hanswers
  obtain ⟨t, _, ht, _, _, _, houtside, _, hfail⟩ := eraseRegion_spec hok hs
  obtain ⟨hset, hrest, herased, hbeyond⟩ := hfail k rest hk hanswers
  refine ⟨nvmLock t, (exec_erase hs).trans ht, hset, rfl, hrest, herased, fun a ha => ?_⟩
  rcases ha with hbefore | hafter
  · exact houtside a (.inl hbefore)
  · exact hbeyond a hafter

/-! ### Legal and illegal operands -/

/-- From a legal operand `ERASE` completes, so this refusal is the one of its operand (R132). -/
theorem exec_erase_refused_iff {s : State} {start : Addr} (hok : s.cfg.Ok) :
    exec (.erase start) s = .refused .illegalErase ↔ ¬legalErase s.cfg start := by
  refine ⟨fun h hs => ?_, fun hs => if_neg hs⟩
  obtain ⟨t, _, ht, _⟩ := eraseRegion_spec hok hs
  rw [exec_erase hs, ht] at h
  cases h

/-- From a legal operand `WRITE` completes, so this refusal is the one of its operand (R142). -/
theorem exec_write_refused_iff {s : State} {addr : Addr} {ws : List NvmWord} (hok : s.cfg.Ok) :
    exec (.write addr ws) s = .refused .illegalWrite ↔ ¬legalWrite s.cfg addr := by
  refine ⟨fun h hs => ?_, fun hs => if_neg hs⟩
  obtain ⟨t, _, ht, _⟩ := writeRegion_spec ws hok hs
  rw [exec_write ws hs, ht] at h
  cases h

/-- The end of the region is a page boundary (R8, R132). -/
theorem legalErase_appEnd {cfg : Config} (hok : cfg.Ok) : legalErase cfg cfg.appEnd := by
  obtain ⟨hbase, _, _, _, _, _, hpages, _⟩ := hok
  exact ⟨hbase.le, le_rfl, hpages⟩

/-- No page lies at the end of the region: `ERASE` there is the unlock and the lock (R132). -/
theorem exec_erase_appEnd {s : State} (hok : s.cfg.Ok) :
    exec (.erase s.cfg.appEnd) s = .next (nvmLock (beginErase s)) := by
  have hnone : pageCount s.cfg s.cfg.appEnd = 0 := by simp [pageCount]
  rw [exec_erase (legalErase_appEnd hok), eraseRegion, hnone]
  rfl

/-- Settles O23: each operation tests its operand first and completes from a legal one. -/
theorem illegalOperandsRefused : Obligations.IllegalOperandsRefused :=
  fun _ _ _ hok => ⟨exec_erase_refused_iff hok, exec_write_refused_iff hok, _, exec_erase_appEnd hok, rfl, rfl, rfl⟩

/-! ### WRITE, whatever the primitives report -/

/-- Settles O24: the loop stores inside the words it was given and below the end, goes on only where the read-back is equal,
and its frame holds the other registers. -/
theorem writeGuarantee : Obligations.WriteGuarantee := by
  intro s addr ws hok hs
  obtain ⟨t, _, ht, hframe, _, hsuccess, houtside⟩ := writeRegion_spec ws hok hs
  refine ⟨nvmLock t, (exec_write ws hs).trans ht, rfl, fun hset => ?_, houtside, hframe.session, hframe.control,
    hframe.packet, hframe.commFail, hframe.eFail, hframe.vFail, hframe.crc, hframe.cfg⟩
  obtain ⟨haddr, _, _, hwords⟩ := hsuccess hset
  exact ⟨haddr, hwords⟩

/-- Settles O27: the loop's failure sets, which the lock after it leaves alone. -/
theorem writeFailureCombinations : Obligations.WriteFailureCombinations := by
  intro s t addr ws h
  by_cases hs : legalWrite s.cfg addr
  · rw [exec_write ws hs] at h
    obtain ⟨u, hloop, hlock⟩ := andThen_eq_next h
    have hsets := writeWords_sets ws (s := beginWrite addr s) (.inl rfl) hloop
    cases hlock
    exact hsets
  · cases (if_neg hs).symm.trans h

/-! ### Words in the array -/

/-- The words `ws` stand in the array from address `a` upward (R143). -/
def WordsAt (m : Memory) (a : Nat) (ws : List NvmWord) : Prop := ∀ i w, ws[i]? = some w → m.readWord (a + 4 * i) = w

theorem WordsAt.singleton {m : Memory} {a : Nat} {w : NvmWord} (h : m.readWord a = w) : WordsAt m a [w] := by
  intro i x hx
  obtain ⟨rfl, rfl⟩ : i = 0 ∧ w = x := by simpa [List.getElem?_singleton] using hx
  exact h

theorem WordsAt.append {m : Memory} {a : Nat} {ws ws' : List NvmWord} (h : WordsAt m a ws)
    (h' : WordsAt m (a + 4 * ws.length) ws') : WordsAt m a (ws ++ ws') := by
  intro i x hx
  by_cases hi : i < ws.length
  · exact h i x (by rwa [List.getElem?_append_left hi] at hx)
  · rw [List.getElem?_append_right (Nat.le_of_not_lt hi)] at hx
    have hread := h' _ x hx
    rwa [show a + 4 * ws.length + 4 * (i - ws.length) = a + 4 * i by omega] at hread

theorem WordsAt.congr {m n : Memory} {a : Nat} {ws : List NvmWord} (h : WordsAt m a ws)
    (hread : ∀ x, x < a + 4 * ws.length → n.read x = m.read x) : WordsAt n a ws := by
  intro i x hx
  obtain ⟨hi, _⟩ := List.getElem?_eq_some_iff.mp hx
  rw [readWord_congr fun y _ hy => hread y (by omega)]
  exact h i x hx

/-! ### WRITE over words answered as intended -/

/-- A `WRITE` is its loop, from the unlocked state, and the lock (R135, R141). -/
theorem exec_write_of_loop {s t : State} {addr : Addr} {ws : List NvmWord} (hs : legalWrite s.cfg addr)
    (h : writeWords ws (beginWrite addr s) = .next t) : exec (.write addr ws) s = .next (nvmLock t) := by
  rw [exec_write ws hs, writeRegion, h]
  rfl

/-- The unlock is one interaction (R135). -/
theorem memoryCalls_beginWrite (addr : Addr) (s : State) :
    memoryCalls (beginWrite addr s).trace = memoryCalls s.trace + 1 := by
  simp [Event.isMemory]

/-- The lock is one interaction (R141). -/
theorem memoryCalls_nvmLock (s : State) : memoryCalls (nvmLock s).trace = memoryCalls s.trace + 1 := by
  simp [Event.isMemory]

/-- What the loop has done from `s` to `t` when the first `m` words of `ws` were answered as intended: one program and one
read of each, the answers `rest` left (R135). -/
structure Programmed (ws : List NvmWord) (m : Nat) (rest : List ProgramAnswer) (s t : State) : Prop where
  pFail : t.pFail = s.pFail
  pAddr : t.pAddr.toNat = s.pAddr.toNat + 4 * m
  cfg : t.cfg = s.cfg
  answers : t.env.programAnswers = rest
  calls : memoryCalls t.trace = memoryCalls s.trace + 2 * m
  words : ∀ i w, i < m → ws[i]? = some w → t.nvm.readWord (s.pAddr.toNat + 4 * i) = w
  outside : ∀ a, a < s.pAddr.toNat ∨ s.pAddr.toNat + 4 * m ≤ a → t.nvm.read a = s.nvm.read a

/-- Every word was answered as intended, so every word stands. -/
theorem Programmed.wordsAt {ws : List NvmWord} {rest : List ProgramAnswer} {s t : State}
    (h : Programmed ws ws.length rest s t) : WordsAt t.nvm s.pAddr.toNat ws := by
  intro i w hw
  obtain ⟨hi, _⟩ := List.getElem?_eq_some_iff.mp hw
  exact h.words i w hi hw

section
variable {ws : List NvmWord} {m : Nat} {s : State} {rest : List ProgramAnswer}

/-- The loop after its first `m` words. -/
theorem writeWords_programmed (hok : s.cfg.Ok) (hp : legalWrite s.cfg s.pAddr) (hl : s.lock = false) (hm : m ≤ ws.length)
    (hfit : m ≠ 0 → s.pAddr.toNat + 4 * m ≤ s.cfg.appEnd.toNat)
    (ha : s.env.programAnswers = List.replicate m ⟨.ok, none⟩ ++ rest) :
    ∃ t, writeWords ws s = writeWords (ws.drop m) t ∧ Programmed ws m rest s t := by
  obtain ⟨t, ht, hframe, hset, haddr, _, _, hrest, hcalls, hwords, houtside⟩ :=
    writeWords_intended m hok hp hl hm hfit ha
  exact ⟨t, ht, hset, haddr, hframe.cfg, hrest, hcalls, hwords, houtside⟩

/-- The loop ends after its last word. -/
theorem writeWords_completes (hok : s.cfg.Ok) (hp : legalWrite s.cfg s.pAddr) (hl : s.lock = false)
    (hfit : ws ≠ [] → s.pAddr.toNat + 4 * ws.length ≤ s.cfg.appEnd.toNat)
    (ha : s.env.programAnswers = List.replicate ws.length ⟨.ok, none⟩ ++ rest) :
    ∃ t, writeWords ws s = .next t ∧ Programmed ws ws.length rest s t := by
  obtain ⟨t, ht, hprog⟩ :=
    writeWords_programmed hok hp hl le_rfl (fun h => hfit (List.ne_nil_of_length_pos (Nat.pos_of_ne_zero h))) ha
  rw [List.drop_length] at ht
  exact ⟨t, ht, hprog⟩

/-- The loop ends at the end of the region when a word is left over (R136). -/
theorem writeWords_tooLarge (hok : s.cfg.Ok) (hp : legalWrite s.cfg s.pAddr) (hl : s.lock = false) (hm : m < ws.length)
    (hend : s.pAddr.toNat + 4 * m = s.cfg.appEnd.toNat)
    (ha : s.env.programAnswers = List.replicate m ⟨.ok, none⟩ ++ rest) :
    ∃ t, writeWords ws s = .next (noteTooLarge t) ∧ t.pAddr = s.cfg.appEnd ∧ Programmed ws m rest s t := by
  obtain ⟨t, ht, hprog⟩ := writeWords_programmed hok hp hl hm.le (fun _ => hend.le) ha
  have haddr : t.pAddr = s.cfg.appEnd := BitVec.eq_of_toNat_eq (hprog.pAddr.trans hend)
  have hpast : t.cfg.appEnd.toNat ≤ t.pAddr.toNat := by rw [haddr, hprog.cfg]
  rw [List.drop_eq_getElem_cons hm, writeWords_past hpast] at ht
  exact ⟨t, ht, haddr, hprog⟩

end

/-- Settles O25: every word of the call is one the loop programs and reads back. -/
theorem writeOfIntendedWords : Obligations.WriteOfIntendedWords := by
  intro s addr ws rest hok hs hfit ha
  obtain ⟨t, ht, hprog⟩ := writeWords_completes (s := beginWrite addr s) hok hs rfl hfit ha
  refine ⟨nvmLock t, exec_write_of_loop hs ht, hprog.pFail, hprog.pAddr, hprog.answers, ?_, hprog.wordsAt⟩
  rw [memoryCalls_nvmLock, hprog.calls, memoryCalls_beginWrite]
  omega

/-- A non-empty `WRITE` at or above the end of the region is the unlock and the lock (R136). -/
theorem exec_write_past {s : State} {addr : Addr} {ws : List NvmWord} (hs : legalWrite s.cfg addr)
    (hpast : s.cfg.appEnd.toNat ≤ addr.toNat) (hne : ws ≠ []) :
    exec (.write addr ws) s = .next (nvmLock (noteTooLarge (beginWrite addr s))) := by
  obtain ⟨w, rest, rfl⟩ := List.exists_cons_of_ne_nil hne
  exact exec_write_of_loop hs (writeWords_past hpast)

/-- Settles O26: the bound is met before the first word, or after the `m` words that end there. -/
theorem writeTooLarge : Obligations.WriteTooLarge := by
  intro s addr ws hok hs
  refine ⟨fun hpast hne => ⟨_, exec_write_past hs hpast hne, rfl, rfl, by simp, by simp⟩, fun m rest hend hm ha => ?_⟩
  obtain ⟨t, ht, haddr, hprog⟩ := writeWords_tooLarge (s := beginWrite addr s) hok hs rfl hm hend ha
  refine ⟨_, exec_write_of_loop hs ht, ?_, haddr, hprog.answers, hprog.words, fun a ha => ?_⟩
  · simp [hprog.pFail, WriteFailures.empty]
  · refine hprog.outside a ?_
    rwa [beginWrite_pAddr, hend]

end Sys2Proof.Proofs
end

section
/-! SUPPORT. `WRITE` at the first word that is not answered as intended (41_memory_programmer.md R137, R138): the words before
it stand, and the loop ends at the word, or goes on behind it with the failure noted. -/

namespace Sys2Proof.Proofs

open Sys2Proof Sys2Proof.Machine Sys2Proof.Laws

section
variable {s : State} {addr : Addr} {before after : List NvmWord} {w : NvmWord} {rest : List ProgramAnswer}
  (hok : s.cfg.Ok) (hs : legalWrite s.cfg addr) (hlt : addr.toNat + 4 * before.length < s.cfg.appEnd.toNat)

include hok hs hlt

/-- The loop ends at a word that reads back different, whatever its program primitive reported (R138). -/
theorem write_mismatch {p : ProgramAnswer}
    (ha : s.env.programAnswers = List.replicate before.length ⟨.ok, none⟩ ++ p :: rest)
    (hgoes : ¬(p.status = .fail ∧ s.cfg.writeFailStops = true)) (hdiffers : p.leave.getD w ≠ w) :
    ∃ t trace, exec (.write addr (before ++ w :: after)) s = .next t ∧
      t.pFail = ⟨false, decide (p.status = .fail), true⟩ ∧ t.pAddr.toNat = addr.toNat + 4 * before.length ∧
      t.env.programAnswers = rest ∧ t.lock = true ∧
      t.trace = [.nvmLock, .nvmReadWord t.pAddr (p.leave.getD w), .nvmProgramWord t.pAddr w p.status] ++ trace ∧
      memoryCalls t.trace = memoryCalls s.trace + 2 * before.length + 4 ∧ WordsAt t.nvm addr.toNat before ∧
      t.nvm.readWord t.pAddr.toNat = p.leave.getD w ∧ sameArrayOutside addr.toNat (t.pAddr.toNat + 4) s t := by
  obtain ⟨u, hpaddr, _, _, _, hcalls, hset, hwords, houtside, free, hloop⟩ :=
    write_atWord (after := after) (w := w) hok hs hlt ha
  have ht := (hloop.trans (if_neg hgoes)).trans (if_neg hdiffers)
  refine ⟨_, u.trace, exec_write_of_loop hs ht, ?_, hpaddr, rfl, rfl, rfl, ?_, write_before hpaddr hwords,
    readWord_store .., write_outside hpaddr houtside⟩
  · cases hst : p.status <;> simp [hset, WriteFailures.empty]
  · simp [hcalls, Event.isMemory]

/-- The loop goes on behind a word that is reported `fail` and reads back equal, without `WRITE_FAIL_STOPS` (R137). -/
theorem writeWords_goesOn {leave : Option NvmWord}
    (ha : s.env.programAnswers = List.replicate before.length ⟨.ok, none⟩ ++ ⟨.fail, leave⟩ :: rest)
    (hstops : s.cfg.writeFailStops = false) (hequal : leave.getD w = w) :
    ∃ v, writeWords (before ++ w :: after) (beginWrite addr s) = writeWords after v ∧ v.cfg = s.cfg ∧ v.lock = false ∧
      legalWrite s.cfg v.pAddr ∧ v.pAddr.toNat = addr.toNat + 4 * (before.length + 1) ∧
      v.pFail = ⟨false, true, false⟩ ∧ v.env.programAnswers = rest ∧
      memoryCalls v.trace = memoryCalls s.trace + 2 * (before.length + 1) + 1 ∧
      WordsAt v.nvm addr.toNat (before ++ [w]) := by
  obtain ⟨u, hpaddr, hcfg, hlock, hlegal, hcalls, hset, hwords, _, free, hloop⟩ :=
    write_atWord (after := after) (w := w) hok hs hlt ha
  obtain ⟨hnext, hnextLegal⟩ := next_toNat hok hlegal (hpaddr ▸ hlt)
  have hv := (hloop.trans (if_neg (by simp [hstops]))).trans (if_pos hequal)
  have hword : (u.nvm.store u.pAddr.toNat (leave.getD w).bytes).readWord (addr.toNat + 4 * before.length) = w := by
    rw [← hpaddr, readWord_store, hequal]
  refine ⟨_, hv, hcfg, hlock, hnextLegal, ?_, ?_, rfl, ?_, .append (write_before hpaddr hwords) (.singleton hword)⟩
  · rw [nextWord_pAddr, hnext, hpaddr, Nat.mul_succ, Nat.add_assoc]
  · simp [hset, WriteFailures.empty]
  · simp only [nextWord_trace, memoryCalls_cons, hcalls, Event.isMemory, if_true]
    omega

end

/-- Settles O29: reported `ok`, the word is read back, and the read-back differs. -/
theorem silentFailureCaught : Obligations.SilentFailureCaught :=
  fun _ _ _ _ _ _ _ hok hs hlt ha hne => write_mismatch hok hs hlt ha nofun hne

/-- Settles O28: with `WRITE_FAIL_STOPS` the loop ends at the word; without it the read-back decides whether it ends there or
goes on with the failure noted, to its last word or to the end of the region. -/
theorem writeFailedReport : Obligations.WriteFailedReport := by
  intro s addr before after w leave rest hok hs hlt ha
  refine ⟨fun hstops => ?stops, fun hstops hdiffers => ?differs, fun hstops hequal => ?goesOn⟩
  case stops =>
    obtain ⟨u, hpaddr, _, _, _, hcalls, hset, hwords, houtside, free, hloop⟩ :=
      write_atWord (after := after) (w := w) hok hs hlt ha
    have ht := hloop.trans (if_pos ⟨rfl, hstops⟩)
    refine ⟨_, u.trace, exec_write_of_loop hs ht, ?_, hpaddr, rfl, rfl, ?_, write_before hpaddr hwords,
      readWord_store .., write_outside hpaddr houtside⟩
    · simp [hset, WriteFailures.empty]
    · simp [hcalls, Event.isMemory]
  case differs =>
    obtain ⟨t, trace, ht, hset, haddr, hrest, _, hreport⟩ := write_mismatch hok hs hlt ha (by simp [hstops]) hdiffers
    exact ⟨t, trace, ht, hset, haddr, hrest, hreport⟩
  case goesOn =>
    obtain ⟨v, hv, hcfg, hlock, hlegal, haddr, hset, hrest, hcalls, hwords⟩ :=
      writeWords_goesOn (after := after) hok hs hlt ha hstops hequal
    rw [← hcfg] at hlegal hok
    refine ⟨fun last hfit hlast => ?_, fun k last hend hk hlast => ?_⟩
    · have hlen : (before ++ w :: after).length = before.length + 1 + after.length := by
        simp only [List.length_append, List.length_cons]
        omega
      obtain ⟨t, ht, hprog⟩ := writeWords_completes (ws := after) hok hlegal hlock
        (fun _ => by rw [hcfg]; omega) (hrest.trans hlast)
      refine ⟨nvmLock t, exec_write_of_loop hs (hv.trans ht), ?_, ?_, hprog.answers, ?_, ?_⟩
      · exact hprog.pFail.trans hset
      · rw [nvmLock_pAddr, hprog.pAddr]
        omega
      · rw [memoryCalls_nvmLock, hprog.calls, hcalls]
        omega
      · rw [List.append_cons]
        refine WordsAt.append (hwords.congr fun x hx => hprog.outside x (.inl ?_)) ?_
        · rw [haddr]
          simpa using hx
        · simpa [haddr] using hprog.wordsAt
    · obtain ⟨t, ht, hpaddr, hprog⟩ := writeWords_tooLarge (ws := after) hok hlegal hlock hk
        (by rw [hcfg]; omega) (hrest.trans hlast)
      refine ⟨_, exec_write_of_loop hs (hv.trans ht), ?_, hpaddr.trans (congrArg _ hcfg), hprog.answers⟩
      simp [hprog.pFail, hset]

end Sys2Proof.Proofs
end

section
/-! SUPPORT. The Packet Validator (42_packet_validator.md R160 to R165): its three checks as propositions, and the union of
their failures. -/

namespace Sys2Proof.Proofs

open Sys2Proof Sys2Proof.Machine

/-- Check 1 is the equality of two bytes (R161). -/
theorem sequenceExpected_iff (seqB expected : Byte) : sequenceExpected seqB expected = true ↔ seqB = expected :=
  beq_iff_eq

/-- Check 3 is the equality of two CRC words (R163). -/
theorem crcMatches_iff (payload : List Byte) (rxCrc : CrcWord) : crcMatches payload rxCrc = true ↔ crc16 payload = rxCrc :=
  beq_iff_eq

/-- Checks 1 and 2 raise the one failure, together or alone (R164). -/
theorem validateFailures_sequenceMismatch_iff (seqB cmpB : Byte) (payload : List Byte) (rxCrc : CrcWord) (expected : Byte) :
    (validateFailures seqB cmpB payload rxCrc expected).sequenceMismatch = true ↔
      seqB ≠ expected ∨ seqB.toNat + cmpB.toNat ≠ 255 := by
  simp only [validateFailures, Bool.or_eq_true, Bool.not_eq_true', Bool.eq_false_iff, ne_eq, sequenceExpected_iff,
    complementMatches_iff_add]

/-- Check 3 alone raises `CrcMismatch`, whatever the other two find (R164). -/
theorem validateFailures_crcMismatch_iff (seqB cmpB : Byte) (payload : List Byte) (rxCrc : CrcWord) (expected : Byte) :
    (validateFailures seqB cmpB payload rxCrc expected).crcMismatch = true ↔ crc16 payload ≠ rxCrc := by
  simp only [validateFailures, Bool.not_eq_true', Bool.eq_false_iff, ne_eq, crcMatches_iff]

/-- `VALIDATE` completes with its two writes (R160, R165). -/
theorem exec_validate (seqB cmpB : Byte) (payload : List Byte) (rxCrc : CrcWord) (expected : Byte) (s : State) :
    exec (.validate seqB cmpB payload rxCrc expected) s = .next (validate seqB cmpB payload rxCrc expected s) := rfl

/-- Settles O30: `exec` is the write of `VFAIL` and `CRC`, and each member of `VFAIL` is its own checks. -/
theorem validateRunsAllChecks : Obligations.ValidateRunsAllChecks :=
  fun s seqB cmpB payload rxCrc expected =>
    ⟨_, exec_validate seqB cmpB payload rxCrc expected s,
      validateFailures_sequenceMismatch_iff seqB cmpB payload rxCrc expected,
      validateFailures_crcMismatch_iff seqB cmpB payload rxCrc expected, rfl⟩

end Sys2Proof.Proofs
end

section
/-! SUPPORT. The Packet Framer and `Receive` (43_packet_framer.md R171 to R178): what one `Receive` answers, the header read
and its decode, and the four reads of a packet, whole, short, or after a first read that failed. -/

namespace Sys2Proof.Proofs

open Sys2Proof Sys2Proof.Machine Sys2Proof.Laws

/-! ### One read (R171, R174, R175) -/

/-- Settles O31: the answer is drawn from the line alone, and only the line left and the record are written. -/
theorem receiveTakesTheLine : Obligations.ReceiveTakesTheLine := by
  intro s n hn
  obtain ⟨a, line, free, hlength, hr⟩ := receive_cases n s
  have hexec : exec (.receive n) s = .next (receive n s) := exec_receive s hn
  rw [hr] at hexec
  obtain ⟨hcontrol, hregisters⟩ := sameRegisters_of_record s _ _ _ _
  refine ⟨_, a, hexec, rfl, hcontrol, hregisters, hlength, fun bytes rest hb hline => ?_, fun bytes rest hb hline => ?_⟩
  · have h := hr.symm.trans (receive_bytes hb hline)
    exact ⟨by simpa using congrArg State.ret h, congrArg (·.env.line) h⟩
  · have h := hr.symm.trans (receive_quiet hb hline)
    exact ⟨by simpa using congrArg State.ret h, congrArg (·.env.line) h⟩

/-- `READ_HEADER` is one `Receive(1)` and the decode of its answer (R175). -/
theorem readHeader_eq_withKind (s : State) :
    readHeader s = (receive 1 s).withKind (headerKind (receivedByte (receive 1 s))) :=
  rfl

/-- Settles O32: the answer of one `Receive(1)` is a silence or one byte, and `HDRKIND` is the kind of that. -/
theorem readHeaderKind : Obligations.ReadHeaderKind := by
  intro s
  obtain ⟨a, line, free, hlength, hr⟩ := receive_cases 1 s
  have hexec : exec (.receive 1) s = .next (receive 1 s) := exec_receive s (Nat.le_refl 1)
  refine ⟨receive 1 s, a, readHeader s, hexec, by rw [hr], by rw [hr], rfl, rfl, ?_, ⟨rfl, rfl⟩, ⟨rfl, rfl, rfl, rfl⟩,
    ⟨rfl, rfl, rfl, rfl⟩, ⟨rfl, rfl, rfl, rfl⟩, fun _ => rfl, rfl, rfl, rfl, rfl, rfl, fun b rest hline => ?_,
    fun rest hline => ?_⟩
  · rw [readHeader_eq_withKind, hr]
    obtain rfl | ⟨b, rfl⟩ := answer_one hlength
    · exact .inl ⟨rfl, rfl⟩
    · exact .inr ⟨b, rfl, rfl⟩
  · rw [readHeader_byte hline]
    exact ⟨rfl, rfl⟩
  · rw [readHeader_quiet hline]
    exact ⟨rfl, rfl⟩

/-! ### A packet (R177, R178) -/

theorem le_of_isPayloadSize {n : Nat} (h : isPayloadSize n = true) : n ≤ 1024 := by
  simp only [isPayloadSize, Bool.or_eq_true, beq_iff_eq] at h
  omega

/-- `READ_PACKET` writes the fields it reads and `COMMFAIL`, and no other register, whatever is answered (R177). -/
theorem readPacket_frame (n : Nat) (s : State) :
    sameSession s (readPacket n s) ∧ sameControl s (readPacket n s) ∧ sameWorking s (readPacket n s) ∧
      sameArray s (readPacket n s) ∧ sameParameters s (readPacket n s) ∧ (readPacket n s).hdrKind = s.hdrKind ∧
      (readPacket n s).eFail = s.eFail ∧ (readPacket n s).vFail = s.vFail ∧ (readPacket n s).pFail = s.pFail := by
  simp [readPacket, sameSession, sameControl, sameWorking, sameArray, sameParameters]

/-- Settles O33: the four reads find their bytes in order. -/
theorem readPacketWhole : Obligations.ReadPacketWhole := by
  intro s n seqB cmpB payload high low rest hn hlength hline
  have hread := readPacket_whole hlength hline
  obtain ⟨htake, hdrop⟩ := storePayload_take s.payload hlength (le_of_isPayloadSize hn)
  refine ⟨readPacket n s, exec_readPacket s hn, ?_, ?_, ?_, ?_, ?_, ?_, ?_, readPacket_frame n s⟩ <;> rw [hread]
  · exact htake
  · exact hdrop
  · exact assembleCrc_toNat high low

/-- The other three reads find their bytes after a silence that failed the first (R177; vector F-9). -/
theorem readPacket_afterSilence {s : State} {n : Nat} {cmpB high low : Byte} {payload : List Byte} {rest : List LineItem}
    (hlength : payload.length = n) (hn : n ≤ 1024)
    (hline : s.env.line = .quiet :: ((cmpB :: (payload ++ [high, low])).map LineItem.byte ++ rest)) :
    (readPacket n s).cmpB = cmpB ∧ (readPacket n s).payloadBytes n = payload ∧
      (readPacket n s).rxCrc = assembleCrc high low ∧ (readPacket n s).env.line = rest := by
  have hpayload := (storePayload_take s.payload hlength hn).1
  unfold readPacket
  rw [receive_quiet (s := { s with commFail := false }) (n := 1) (bytes := []) Nat.one_pos hline]
  simp only [takeSeqB, receivedByte, Returned.bytes?, Option.bind_none]
  rw [receive_bytes (n := 1) (bytes := [cmpB]) (rest := (payload ++ [high, low]).map LineItem.byte ++ rest) rfl rfl]
  simp only [takeCmpB, receivedByte, Returned.bytes?, Option.bind_some, List.head?_cons]
  rw [receive_bytes (rest := [high, low].map LineItem.byte ++ rest) hlength (by simp)]
  simp only [takePayload, Returned.bytes?]
  rw [receive_bytes (n := 2) (bytes := [high, low]) (rest := rest) rfl rfl]
  exact ⟨rfl, hpayload, rfl, rfl⟩

/-- Settles O34: the reads are made one after the other, each fills its field or sets `COMMFAIL`, and what a read that failed
leaves of the line is there for the next. -/
theorem readPacketShort : Obligations.ReadPacketShort := by
  intro s n
  refine ⟨fun hn => ?_, fun hn => if_neg (by simp [hn])⟩
  have hle := le_of_isPayloadSize hn
  obtain ⟨a1, a2, a3, a4, htrace, hfail, h1, h2, h3, h4⟩ := readPacket_reads hle s
  refine ⟨readPacket n s, a1, a2, a3, a4, exec_readPacket s hn, htrace, hfail, h1, h2, h3, ?_,
    fun bytes rest hshort hline => readPacket_short hshort hline,
    fun cmpB payload high low rest hlength hline => ?_, readPacket_frame n s⟩
  · obtain h | ⟨high, low, hanswer, hcrc⟩ := h4
    · exact .inl h
    · exact .inr ⟨high, low, hanswer, by rw [hcrc, assembleCrc_toNat]⟩
  · obtain ⟨hcmpB, hpayload, hcrc, hrest⟩ := readPacket_afterSilence hlength hle hline
    have hcomm : (readPacket n s).commFail = true := readPacket_short (bytes := []) (Nat.succ_pos _) hline
    exact ⟨hcomm, hcmpB, hpayload, by rw [hcrc, assembleCrc_toNat], hrest⟩

end Sys2Proof.Proofs
end

section
/-! SUPPORT. The answers to transmits change nothing (43_packet_framer.md R172, R173): two states that differ in those answers
only are kept so by every operation, since no rule tests an answer to a transmit, and the result of a primitive is tested only
right after the erase, program, read or `Receive` that gave it. -/

namespace Sys2Proof.Proofs

open Sys2Proof Sys2Proof.Machine Sys2Proof.Laws

/-! ### States that differ in the answers to transmits -/

/-- `s` with other answers to transmits, in the record and to come. -/
def withAnswers (trace : List Event) (transmits texts : List Status) (s : State) : State :=
  { s with trace := trace, env := { s.env with transmitAnswers := transmits, textAnswers := texts } }

/-- `t` is `s` with other answers to transmits, as many; the last primitive returned the same in both. -/
inductive Agree (s : State) : State → Prop where
  | mk {trace : List Event} {transmits texts : List Status}
      (htrace : trace.map Event.forgetAnswer = s.trace.map Event.forgetAnswer)
      (htransmits : transmits.length = s.env.transmitAnswers.length) (htexts : texts.length = s.env.textAnswers.length) :
      Agree s (withAnswers trace transmits texts s)

/-- The same, but the last primitive may have returned another answer. -/
def AgreeButRet (s t : State) : Prop := ∃ r, Agree { s with ret := r } t

theorem Agree.butRet {s t : State} (h : Agree s t) : AgreeButRet s t := ⟨s.ret, h⟩

theorem eq_withAnswers_of_sameButTransmits {s t : State} (h : sameButTransmits s t) :
    t = withAnswers t.trace t.env.transmitAnswers t.env.textAnswers { s with ret := t.ret } := by
  obtain ⟨⟩ := t
  rename_i env _
  obtain ⟨⟩ := env
  simp_all [withAnswers, sameButTransmits, sameSession, sameControl, samePacket, sameFlags, sameWorking, sameParameters]

theorem agreeButRet_iff {s t : State} : AgreeButRet s t ↔ sameButTransmits s t := by
  constructor
  · rintro ⟨r, htrace, htransmits, htexts⟩
    exact ⟨⟨rfl, rfl, rfl, rfl⟩, ⟨rfl, rfl⟩, ⟨rfl, rfl, rfl, rfl, rfl⟩, ⟨rfl, rfl, rfl, rfl⟩, ⟨rfl, rfl, rfl, rfl⟩, rfl, rfl,
      rfl, rfl, rfl, rfl, rfl, rfl, rfl, htransmits, htexts, htrace⟩
  · intro h
    have ht := eq_withAnswers_of_sameButTransmits h
    obtain ⟨-, -, -, -, -, -, -, -, -, -, -, -, -, -, htransmits, htexts, htrace⟩ := h
    exact ⟨t.ret, ht ▸ .mk htrace htransmits htexts⟩

/-! ### Outcomes that agree -/

/-- The same outcome, with related states where it is a state. -/
inductive Alike (R : State → State → Prop) : Out → Out → Prop where
  | next {s t : State} (h : R s t) : Alike R (.next s) (.next t)
  | fault (r : Fault) : Alike R (.fault r) (.fault r)
  | refused (r : Refusal) : Alike R (.refused r) (.refused r)

section
variable {R S : State → State → Prop}

theorem Alike.of_next {s : State} {o : Out} (h : Alike R (.next s) o) : ∃ t, o = .next t ∧ R s t := by
  cases h with
  | next h => exact ⟨_, rfl, h⟩

theorem Alike.butRet {o o' : Out} (h : Alike Agree o o') : Alike AgreeButRet o o' := by
  cases h with
  | next h => exact .next h.butRet
  | fault r => exact .fault r
  | refused r => exact .refused r

theorem Alike.ite {c : Prop} [Decidable c] {o o' p p' : Out} (h : c → Alike R o o') (h' : ¬c → Alike R p p') :
    Alike R (if c then o else p) (if c then o' else p') := by
  split
  · exact h ‹_›
  · exact h' ‹_›

theorem Alike.andThen {o o' : Out} {k k' : State → Out} (h : Alike R o o') (hk : ∀ s t, R s t → Alike S (k s) (k' t)) :
    Alike S (andThen o k) (andThen o' k') := by
  cases h with
  | next h => exact hk _ _ h
  | fault r => exact .fault r
  | refused r => exact .refused r

end

/-! ### Transport -/

/-- How many answers are left, and the free values drawn, depend on how many answers there are (R6). -/
theorem drawStatus_of_length_eq {l l' : List Status} {k k' : Nat} (hl : l'.length = l.length) (hk : k' = k) :
    (drawStatus l' k').left.length = (drawStatus l k).left.length ∧ (drawStatus l' k').free = (drawStatus l k).free := by
  subst hk
  match l, l', hl with
  | [], [], _ => exact ⟨rfl, rfl⟩
  | _ :: _, _ :: _, hl => exact ⟨Nat.succ.inj hl, rfl⟩

section
variable {s t : State} (h : AgreeButRet s t)
include h

/-- After a transmit, answered one way in `s` and another in `t`, they still agree but for the answers. -/
theorem AgreeButRet.record_answers {e e' : Event} (he : e'.forgetAnswer = e.forgetAnswer) {r r' : Returned} {free : Nat}
    {transmits transmits' texts texts' : List Status} (htransmits : transmits'.length = transmits.length)
    (htexts : texts'.length = texts.length) :
    AgreeButRet (({ withAnswers s.trace transmits texts s with free := free }).record e r)
      (({ withAnswers t.trace transmits' texts' t with free := free }).record e' r') := by
  obtain ⟨_, htrace, -, -⟩ := h
  exact ⟨r', .mk (congrArg₂ List.cons he htrace) htransmits htexts⟩

/-- As many answers are listed in both, and as many free values are drawn. -/
theorem AgreeButRet.listed : t.env.transmitAnswers.length = s.env.transmitAnswers.length ∧
    t.env.textAnswers.length = s.env.textAnswers.length ∧ t.free = s.free := by
  obtain ⟨_, -, htransmits, htexts⟩ := h
  exact ⟨htransmits, htexts, rfl⟩

theorem AgreeButRet.transmit (b : Byte) : AgreeButRet (transmit b s) (transmit b t) := by
  obtain ⟨htransmits, htexts, hfree⟩ := h.listed
  obtain ⟨hleft, hdrawn⟩ := drawStatus_of_length_eq htransmits hfree
  unfold Machine.transmit
  dsimp only
  rw [hdrawn]
  exact h.record_answers (by rfl) hleft htexts

theorem AgreeButRet.transmitText (text : List Byte) : AgreeButRet (transmitText text s) (transmitText text t) := by
  obtain ⟨htransmits, htexts, hfree⟩ := h.listed
  obtain ⟨hleft, hdrawn⟩ := drawStatus_of_length_eq htexts hfree
  unfold Machine.transmitText
  dsimp only
  rw [hdrawn]
  exact h.record_answers (by rfl) htransmits hleft

end

/-! ### What leaves the answers alone -/

/-- A function that neither reads nor writes the answers to transmits. -/
def Blind (f : State → State) : Prop :=
  ∀ trace transmits texts s, f (withAnswers trace transmits texts s) = withAnswers trace transmits texts (f s)

theorem Agree.map {f : State → State} {s t : State} (h : Agree s t) (hf : Blind f := by exact fun _ _ _ _ => rfl) :
    Agree (f s) (f t) := by
  obtain ⟨htrace, htransmits, htexts⟩ := h
  have hs : f s = withAnswers s.trace s.env.transmitAnswers s.env.textAnswers (f s) := hf ..
  rw [hf]
  refine .mk ?_ ?_ ?_ <;> rw [hs]
  · exact htrace
  · exact htransmits
  · exact htexts

theorem AgreeButRet.map {f : State → State} {s t : State} (h : AgreeButRet s t)
    (hf : Blind f := by exact fun _ _ _ _ => rfl)
    (hret : ∀ s r, f { s with ret := r } = { f s with ret := r } := by exact fun _ _ => rfl) : AgreeButRet (f s) (f t) := by
  obtain ⟨r, h⟩ := h
  exact ⟨r, hret s r ▸ h.map hf⟩

/-- What does not depend on the answers to transmits is the same. -/
theorem Agree.reads {α : Type} {s t : State} (h : Agree s t) (f : State → α)
    (hf : ∀ trace transmits texts s, f (withAnswers trace transmits texts s) = f s := by exact fun _ _ _ _ => rfl) :
    f t = f s := by
  cases h
  exact hf ..

/-- What depends neither on them nor on what the last primitive returned is the same. -/
theorem AgreeButRet.reads {α : Type} {s t : State} (h : AgreeButRet s t) (f : State → α)
    (hf : ∀ r trace transmits texts s, f (withAnswers trace transmits texts { s with ret := r }) = f s := by
      exact fun _ _ _ _ _ => rfl) :
    f t = f s := by
  obtain ⟨r, ⟨⟩⟩ := h
  exact hf ..

theorem AgreeButRet.state {s t : State} (h : AgreeButRet s t) : t.state = s.state := h.reads State.state

theorem AgreeButRet.cfg {s t : State} (h : AgreeButRet s t) : t.cfg = s.cfg := h.reads State.cfg

theorem AgreeButRet.erased {s t : State} (h : AgreeButRet s t) : t.erased = s.erased := h.reads State.erased

theorem AgreeButRet.onlyIn {st : EngineState} {s t : State} {k : State → Out} (h : AgreeButRet s t)
    (hk : Alike AgreeButRet (k s) (k t)) : Alike AgreeButRet (onlyIn st s k) (onlyIn st t k) := by
  unfold Machine.onlyIn
  rw [h.state]
  exact .ite (fun _ => hk) fun _ => .refused _

theorem AgreeButRet.withPacketSize {s t : State} {k : Nat → State → Out} (h : AgreeButRet s t)
    (hk : ∀ n, Alike AgreeButRet (k n s) (k n t)) : Alike AgreeButRet (withPacketSize s k) (withPacketSize t k) := by
  unfold Machine.withPacketSize
  rw [h.reads State.packetSize]
  cases s.packetSize with
  | some n => exact hk n
  | none => exact .refused _

/-- After the same interaction with the same result the two states agree in the result as well. -/
theorem AgreeButRet.record (e : Event) (r : Returned) {s t : State} (h : AgreeButRet s t) :
    Agree (s.record e r) (t.record e r) := by
  obtain ⟨_, htrace, htransmits, htexts⟩ := h
  exact .mk (congrArg (_ :: ·) htrace) htransmits htexts

theorem withAnswers_ret (trace : List Event) (transmits texts : List Status) (s : State) :
    (withAnswers trace transmits texts s).ret = s.ret := rfl

/-! ### The reads of a packet -/

theorem AgreeButRet.receive (n : Nat) {s t : State} (h : AgreeButRet s t) : Agree (receive n s) (receive n t) := by
  obtain ⟨r, htrace, htransmits, htexts⟩ := h
  exact .mk (congrArg (_ :: ·) htrace) htransmits htexts

theorem AgreeButRet.readHeader {s t : State} (h : AgreeButRet s t) : AgreeButRet (readHeader s) (readHeader t) := by
  have hreceive := h.receive 1
  have hbyte := hreceive.reads receivedByte
  unfold Machine.readHeader
  dsimp only
  rw [hbyte]
  exact (hreceive.map (f := State.withKind _)).butRet

theorem blind_takeSeqB : Blind takeSeqB := by
  intro trace transmits texts s
  unfold takeSeqB receivedByte
  rw [withAnswers_ret]
  split <;> rfl

theorem blind_takeCmpB : Blind takeCmpB := by
  intro trace transmits texts s
  unfold takeCmpB receivedByte
  rw [withAnswers_ret]
  split <;> rfl

theorem blind_takePayload : Blind takePayload := by
  intro trace transmits texts s
  unfold takePayload
  rw [withAnswers_ret]
  split <;> rfl

theorem blind_takeCrc : Blind takeCrc := by
  intro trace transmits texts s
  unfold takeCrc
  rw [withAnswers_ret]
  split <;> rfl

theorem AgreeButRet.readPacket (n : Nat) {s t : State} (h : AgreeButRet s t) : Agree (readPacket n s) (readPacket n t) := by
  have hclear : AgreeButRet { s with commFail := false } { t with commFail := false } :=
    h.map (f := fun s => { s with commFail := false })
  have hseqB := (hclear.receive 1).map blind_takeSeqB
  have hcmpB := (hseqB.butRet.receive 1).map blind_takeCmpB
  have hpayload := (hcmpB.butRet.receive n).map blind_takePayload
  exact (hpayload.butRet.receive 2).map blind_takeCrc

/-! ### Memory -/

theorem nvmErasePage_alike (a : Addr) {s t : State} (h : AgreeButRet s t) :
    Alike Agree (nvmErasePage a s) (nvmErasePage a t) := by
  obtain ⟨r, htrace, htransmits, htexts⟩ := h
  exact .ite (fun _ => .next (.mk (congrArg (_ :: ·) htrace) htransmits htexts)) fun _ => .refused _

theorem nvmProgramWord_alike (a : Addr) (w : NvmWord) {s t : State} (h : AgreeButRet s t) :
    Alike Agree (nvmProgramWord a w s) (nvmProgramWord a w t) := by
  obtain ⟨r, htrace, htransmits, htexts⟩ := h
  exact .ite (fun _ => .next (.mk (congrArg (_ :: ·) htrace) htransmits htexts)) fun _ => .refused _

theorem nvmReadWord_alike (a : Addr) {s t : State} (h : AgreeButRet s t) :
    Alike Agree (nvmReadWord a s) (nvmReadWord a t) := by
  obtain ⟨r, htrace, htransmits, htexts⟩ := h
  exact .ite (fun _ => .next (.mk (congrArg (_ :: ·) htrace) htransmits htexts)) fun _ => .refused _

theorem erasePages_alike (start : Addr) (k : Nat) {s t : State} (h : Agree s t) :
    Alike Agree (erasePages start k s) (erasePages start k t) := by
  induction k generalizing s t with
  | zero => exact .next h
  | succ k ih =>
    have haim : Agree (aimAtPage start s) (aimAtPage start t) := h.map
    unfold erasePages
    rw [haim.reads State.pAddr]
    refine .andThen (nvmErasePage_alike _ haim.butRet) fun u v huv => ?_
    rw [huv.reads reportedFail]
    exact .ite (fun _ => .next huv.map) fun _ => ih huv.map

theorem blind_noteProgram : Blind noteProgram := by
  intro trace transmits texts s
  unfold noteProgram reportedFail
  rw [withAnswers_ret]
  split <;> rfl

theorem writeWords_alike (ws : List NvmWord) {s t : State} (h : Agree s t) :
    Alike Agree (writeWords ws s) (writeWords ws t) := by
  induction ws generalizing s t with
  | nil => exact .next h
  | cons w ws ih =>
    unfold writeWords
    rw [h.reads pastEnd, h.reads State.pAddr]
    refine .ite (fun _ => .next h.map) fun _ => .andThen (nvmProgramWord_alike _ w h.butRet) fun u v huv => ?_
    have hnote := huv.map blind_noteProgram
    rw [huv.reads programStops, hnote.reads State.pAddr]
    refine .ite (fun _ => .next hnote) fun _ => .andThen (nvmReadWord_alike _ hnote.butRet) fun u v huv => ?_
    rw [huv.reads (readBackEqual w)]
    exact .ite (fun _ => ih huv.map) fun _ => .next huv.map

theorem AgreeButRet.nvmUnlock {s t : State} (h : AgreeButRet s t) : Agree (nvmUnlock s) (nvmUnlock t) :=
  (h.map (f := fun s => { s with lock := false })).record _ _

theorem AgreeButRet.nvmLock {s t : State} (h : AgreeButRet s t) : Agree (nvmLock s) (nvmLock t) :=
  (h.map (f := fun s => { s with lock := true })).record _ _

theorem eraseRegion_alike (start : Addr) {s t : State} (h : AgreeButRet s t) :
    Alike Agree (eraseRegion start s) (eraseRegion start t) := by
  have hclear : AgreeButRet { s with eFail := .empty } { t with eFail := .empty } :=
    h.map (f := fun s => { s with eFail := .empty })
  have hbegin : Agree (beginErase s) (beginErase t) := hclear.nvmUnlock.map (f := fun s => { s with pIdx := 0 })
  unfold eraseRegion
  rw [h.cfg]
  exact .andThen (erasePages_alike start _ hbegin) fun u v huv => .next huv.butRet.nvmLock

theorem writeRegion_alike (addr : Addr) (ws : List NvmWord) {s t : State} (h : AgreeButRet s t) :
    Alike Agree (writeRegion addr ws s) (writeRegion addr ws t) := by
  have haim : AgreeButRet (aimWrite addr s) (aimWrite addr t) := h.map
  have hbegin : Agree (beginWrite addr s) (beginWrite addr t) := haim.nvmUnlock.map (f := fun s => { s with pIdx := 0 })
  exact .andThen (writeWords_alike ws hbegin) fun u v huv => .next huv.butRet.nvmLock

/-! ### The engine -/

theorem AgreeButRet.errorHandler {s t : State} (h : AgreeButRet s t) : AgreeButRet (errorHandler s) (errorHandler t) := by
  have hcount : AgreeButRet (countError s) (countError t) := h.map
  unfold Machine.errorHandler
  dsimp only
  rw [hcount.reads thresholdReached, hcount.cfg]
  split
  · exact (((hcount.transmit wireCan).transmit wireCan).transmitText _).map
  · exact (hcount.transmit wireNak).map

theorem AgreeButRet.rowProbe {s t : State} (h : AgreeButRet s t) : AgreeButRet (rowProbe s) (rowProbe t) :=
  (h.transmit wireProbe).map

theorem AgreeButRet.rowEot {s t : State} (h : AgreeButRet s t) : AgreeButRet (rowEot s) (rowEot t) := by
  unfold Machine.rowEot
  rw [h.cfg]
  exact ((h.transmit wireAck).transmitText _).map

theorem AgreeButRet.withKind (k : HeaderKind) {s t : State} (h : AgreeButRet s t) :
    AgreeButRet (s.withKind k) (t.withKind k) := h.map

theorem AgreeButRet.enter (st : EngineState) {s t : State} (h : AgreeButRet s t) : AgreeButRet (s.enter st) (t.enter st) :=
  h.map

theorem AgreeButRet.dispatchHeader {s t : State} (h : AgreeButRet s t) :
    AgreeButRet (dispatchHeader s) (dispatchHeader t) := by
  unfold Machine.dispatchHeader
  rw [h.reads State.hdrKind, h.erased]
  cases s.hdrKind with
  | none =>
    cases s.erased with
    | true => exact h.errorHandler
    | false => exact h.rowProbe
  | shortData => exact h.enter _
  | longData => exact h.enter _
  | endOfTransmission => exact h.rowEot
  | cancel => exact h.enter _
  | unrecognized => exact h.errorHandler

theorem blind_noteErased : Blind noteErased := by
  intro trace transmits texts s
  unfold noteErased
  rw [show (withAnswers trace transmits texts s).eFail = s.eFail from rfl]
  split <;> rfl

theorem blind_escalateIfFlash : Blind escalateIfFlash := by
  intro trace transmits texts s
  unfold escalateIfFlash
  rw [show (withAnswers trace transmits texts s).failures = s.failures from rfl]
  split <;> rfl

theorem escalateIfFlash_ret (s : State) (r : Returned) :
    escalateIfFlash { s with ret := r } = { escalateIfFlash s with ret := r } := by
  unfold escalateIfFlash
  rw [show State.failures { s with ret := r } = s.failures from rfl]
  split <;> rfl

theorem AgreeButRet.classify {s t : State} (h : AgreeButRet s t) : AgreeButRet (classify s) (classify t) :=
  (h.map blind_escalateIfFlash escalateIfFlash_ret).errorHandler

theorem AgreeButRet.accept (n : Nat) {s t : State} (h : AgreeButRet s t) : AgreeButRet (accept n s) (accept n t) :=
  ((h.map (f := commitPacket n)).transmit wireAck).enter _

theorem eraseStep_alike {s t : State} (h : AgreeButRet s t) : Alike AgreeButRet (eraseStep s) (eraseStep t) := by
  unfold eraseStep
  rw [h.erased, h.cfg]
  exact .ite (fun _ => .next h) fun _ =>
    .andThen (eraseRegion_alike _ h) fun u v huv => .next (huv.map blind_noteErased).butRet

theorem validateWriteStep_alike (n : Nat) {s t : State} (h : AgreeButRet s t) :
    Alike AgreeButRet (validateWriteStep n s) (validateWriteStep n t) := by
  have hvalidate : AgreeButRet (validatePacket n s) (validatePacket n t) := h.map
  unfold validateWriteStep
  dsimp only
  rw [hvalidate.reads State.vFail, hvalidate.reads State.cursor, hvalidate.reads (packetWords n)]
  exact .ite (fun _ => (writeRegion_alike _ _ hvalidate).butRet) fun _ => .next hvalidate

theorem receivePacket_alike (n : Nat) {s t : State} (h : AgreeButRet s t) :
    Alike AgreeButRet (receivePacket n s) (receivePacket n t) := by
  have hclear : AgreeButRet (clearFailures s) (clearFailures t) := h.map
  have hread := (hclear.readPacket n).butRet
  unfold receivePacket
  dsimp only
  rw [hread.reads eraseDue]
  refine .andThen (.ite (fun _ => eraseStep_alike hread) fun _ => .next hread) fun ready ready' hready => ?_
  rw [hready.reads validateDue]
  refine .andThen (.ite (fun _ => validateWriteStep_alike n hready) fun _ => .next hready) fun done done' hdone => .next ?_
  rw [hdone.reads (·.failures.isEmpty)]
  split
  · exact hdone.accept n
  · exact hdone.classify

theorem receivePacketStep_alike {s t : State} (h : AgreeButRet s t) :
    Alike AgreeButRet (execReceivePacketStep s) (execReceivePacketStep t) :=
  h.onlyIn (h.withPacketSize fun n => receivePacket_alike n h)

theorem receiveUnit_alike (bytes : List Byte) {s t : State} (h : AgreeButRet s t) :
    Alike AgreeButRet (receiveUnit bytes s) (receiveUnit bytes t) :=
  have hdeliver : AgreeButRet (deliver bytes s) (deliver bytes t) := h.map
  h.onlyIn (receivePacketStep_alike hdeliver.readHeader.dispatchHeader)

/-! ### All operations -/

/-- One case for each row: its condition reads the same in both states, and what it runs keeps them alike. -/
theorem exec_alike (i : Instr) {s t : State} (h : AgreeButRet s t) : Alike AgreeButRet (exec i s) (exec i t) := by
  have hhandler (k : HeaderKind) : AgreeButRet (errorHandler (s.withKind k)) (errorHandler (t.withKind k)) :=
    (h.withKind k).errorHandler
  have hleft (e : Event) : AgreeButRet ((s.goto .left).record e .nothing) ((t.goto .left).record e .nothing) :=
    ((h.map (f := State.goto .left)).record e .nothing).butRet
  have hpos : t.pos = s.pos := h.reads State.pos
  unfold exec
  cases i with
  | soh => exact h.onlyIn (.next ((h.withKind _).enter _))
  | stx => exact h.onlyIn (.next ((h.withKind _).enter _))
  | eot => exact h.onlyIn (.next (h.withKind _).rowEot)
  | can => exact h.onlyIn (.next ((h.withKind _).enter _))
  | hdrOther header => exact .ite (fun _ => .refused _) fun _ => h.onlyIn (.next (hhandler _))
  | hdrNone =>
    refine h.onlyIn (.next ?_)
    rw [h.erased]
    split
    · exact hhandler _
    · exact (h.withKind _).rowProbe
  | hdrNoneErased =>
    refine h.onlyIn ?_
    rw [h.erased]
    exact .ite (fun _ => .next (hhandler _)) fun _ => .refused _
  | pkt128 => exact .ite (fun _ => receiveUnit_alike _ h) fun _ => .refused _
  | pkt1k => exact .ite (fun _ => receiveUnit_alike _ h) fun _ => .refused _
  | txProbeC => exact .next (h.transmit _)
  | txAck => exact .next (h.transmit _)
  | txAckEot =>
    unfold execTxAckEot
    rw [h.cfg]
    exact .next ((h.transmit _).transmitText _)
  | txNak => exact .next (h.transmit _)
  | txCanCan =>
    unfold execTxCanCan
    rw [h.cfg]
    exact .next (((h.transmit _).transmit _).transmitText _)
  | crcByte c b => exact .next (h.map (f := fun s => { s with crc := crcByte c b }))
  | crc16 data => exact .next (h.map (f := fun s => { s with crc := crc16 data }))
  | erase =>
    unfold execErase
    rw [h.cfg]
    exact .ite (fun _ => (eraseRegion_alike _ h).butRet) fun _ => .refused _
  | write =>
    unfold execWrite
    rw [h.cfg]
    exact .ite (fun _ => (writeRegion_alike _ _ h).butRet) fun _ => .refused _
  | validate seqB cmpB payload rxCrc expected =>
    exact .next (h.map (f := validate seqB cmpB payload rxCrc expected))
  | readHeader => exact .next h.readHeader
  | readPacket n => exact .ite (fun _ => .next (h.readPacket n).butRet) fun _ => .refused _
  | invoke =>
    have hreset := h.map (f := fun s => { sessionReset s with env := { s.env with invokes := s.env.invokes - 1 } })
    unfold execInvoke
    rw [h.state]
    exact .ite (fun _ => .next (hreset.record _ _).butRet) fun _ => .refused _
  | awaitHeaderStep => exact h.onlyIn (.next h.readHeader.dispatchHeader)
  | receivePacketStep => exact receivePacketStep_alike h
  | eraseStep => exact h.onlyIn (eraseStep_alike h)
  | validateWriteStep => exact h.onlyIn (h.withPacketSize fun n => validateWriteStep_alike n h)
  | accept => exact h.onlyIn (h.withPacketSize fun n => .next (h.accept n))
  | classify => exact h.onlyIn (.next h.classify)
  | errorHandler =>
    unfold execErrorHandler
    rw [h.state]
    exact .ite (fun _ => .next h.errorHandler) fun _ => .refused _
  | appJump =>
    refine h.onlyIn ?_
    rw [hpos]
    exact .ite (fun _ => .fault _) fun _ => .next (hleft _)
  | returnToCaller =>
    refine h.onlyIn ?_
    rw [hpos]
    exact .ite (fun _ => .fault _) fun _ => .next (hleft _)
  | nvmUnlock => exact .next h.nvmUnlock.butRet
  | nvmLock => exact .next h.nvmLock.butRet
  | nvmErasePage a => exact (nvmErasePage_alike a h).butRet
  | nvmProgramWord a w => exact (nvmProgramWord_alike a w h).butRet
  | nvmReadWord a => exact (nvmReadWord_alike a h).butRet
  | receive n => exact .ite (fun _ => .next (h.receive n).butRet) fun _ => .refused _
  | transmit b => exact .next (h.transmit b)
  | transmitText text => exact .next (h.transmitText text)

/-- Settles O35: from two states alike but for the answers to transmits, every operation has outcomes alike but for them. -/
theorem transmitAnswersIgnored : Obligations.TransmitAnswersIgnored := by
  intro i s t s' hst hexec
  have halike := exec_alike i (agreeButRet_iff.2 hst)
  rw [hexec] at halike
  obtain ⟨t', ht', hagree⟩ := halike.of_next
  exact ⟨t', ht', agreeButRet_iff.1 hagree⟩

end Sys2Proof.Proofs
end

section
/-! SUPPORT. The Receive Engine up to the packet (44_receive_engine.md R190 to R198, R205 to R207): the error handler, the
header rows, the invocation and the terminal states, and where each operation is refused. -/

namespace Sys2Proof.Proofs

open Sys2Proof Sys2Proof.Machine Sys2Proof.Laws

/-! ### The error handler (R205) -/

/-- What writes `STATE`, the position, the environment's answers left and the record writes no other register. -/
theorem sameRegisters_of_eq {s t : State} (h : t = { s with
    state := t.state, pos := t.pos, ret := t.ret, trace := t.trace, free := t.free, env := t.env }) :
    sameRegisters s t := by
  rw [h]
  exact ⟨⟨rfl, rfl, rfl, rfl⟩, ⟨rfl, rfl, rfl, rfl, rfl⟩, ⟨rfl, rfl, rfl, rfl⟩, ⟨rfl, rfl, rfl, rfl⟩, fun _ => rfl, rfl⟩

/-- Settles O42: the handler counts once and writes no other register. -/
theorem errorHandlerPolicy : Obligations.ErrorHandlerPolicy := by
  intro s hs hcount
  obtain ⟨hadd, hnak, habort⟩ := errorHandler_counts hcount
  obtain ⟨hsame, hmemory⟩ := errorHandler_same s
  exact ⟨errorHandler s, exec_errorHandler hs, hadd, habort, hnak, hsame, hmemory⟩

/-! ### The header rows (R192 to R198) -/

/-- Settles O44: the step is the dispatch on the kind of header that one `Receive(1)` gives, and so is the row. -/
theorem awaitHeaderDispatches : Obligations.AwaitHeaderDispatches := by
  intro s hs
  have hstep := exec_awaitHeaderStep hs
  have hrs : (receive 1 s).state = .awaitHeader := by simpa using hs
  have hreceive := exec_receive s (Nat.le_refl 1)
  refine ⟨⟨_, hstep⟩, fun b rest hline => ⟨_, hreceive, ?_, ?_⟩, fun rest hline => ⟨_, hreceive, ?_, ?_⟩⟩
  · rw [receive_bytes (n := 1) (bytes := [b]) rfl hline]
  · rw [hstep, exec_decodeHeaderByte b hrs, readHeader_eq_withKind_of_byte hline]
  · rw [receive_quiet (n := 1) (bytes := []) Nat.one_pos hline]
  · rw [hstep, exec_hdrNone hrs, readHeader_eq_withKind_of_quiet hline]

/-- The row of an unrecognised header is the handler (R198). -/
theorem exec_hdrOther {s : State} {b : Byte} (hs : s.state = .awaitHeader) (hb : recognizedHeader b = false) :
    exec (.hdrOther b) s = .next (errorHandler (s.withKind .unrecognized)) := by
  show execHdrOther b s = _
  rw [execHdrOther, if_neg (by simp [hb]), onlyIn_of _ hs]

/-- The row of a header timeout after the erase is the handler (R194), and without an erase it is refused (log 9). -/
theorem exec_hdrNoneErased {s : State} (hs : s.state = .awaitHeader) :
    exec .hdrNoneErased s =
      if s.erased then .next (errorHandler (s.withKind .none)) else .refused .notApplicable :=
  if_pos hs

/-- After the erase the dispatch on no header is the handler (R194). -/
theorem exec_hdrNone_erased {s : State} (hs : s.state = .awaitHeader) (herased : s.erased = true) :
    exec .hdrNone s = .next (errorHandler (s.withKind .none)) := by
  rw [exec_hdrNone hs]
  exact congrArg Host.Outcome.next (if_pos herased)

/-- Before the erase the dispatch on no header is the probe (R193). -/
theorem exec_hdrNone_notErased {s : State} (hs : s.state = .awaitHeader) (herased : s.erased = false) :
    exec .hdrNone s = .next (rowProbe (s.withKind .none)) := by
  rw [exec_hdrNone hs]
  exact congrArg Host.Outcome.next (if_neg (by simp [herased]))

/-- Settles O38: `ERASED` = 0 selects the probe, which writes the answers left and the record only. -/
theorem timeoutBeforeEraseProbes : Obligations.TimeoutBeforeEraseProbes := by
  intro s hs herased
  exact ⟨_, exec_hdrNone_notErased hs herased, transmit_sends _ _, rfl, rfl, sameRegisters_of_eq rfl,
    transmit_memoryCalls _ _⟩

/-- Settles O39: each of the three rows enters its state with its kind of header, and no more. -/
theorem silentHeaderRows : Obligations.SilentHeaderRows := fun _ hs =>
  ⟨⟨_, if_pos hs, rfl, rfl, sameRegisters_of_eq rfl, rfl⟩, ⟨_, if_pos hs, rfl, rfl, sameRegisters_of_eq rfl, rfl⟩,
    ⟨_, if_pos hs, rfl, sameRegisters_of_eq rfl, rfl⟩⟩

/-- Settles O40: the row has no condition but its `STATE`, and its two transmits write the answers left and the record. -/
theorem endOfTransmissionSucceeds : Obligations.EndOfTransmissionSucceeds := by
  intro s hs
  have hrow : exec .eot s = .next (rowEot (s.withKind .endOfTransmission)) := if_pos hs
  exact ⟨_, hrow, rfl, by simp [sends, rowEot, wireAck], sameRegisters_of_eq rfl, by simp [noMemoryCall, rowEot]⟩

/-- Settles O41: these rows are the handler from the state with their kind of header. -/
theorem handlerHeaderRows : Obligations.HandlerHeaderRows := by
  intro s hs
  have hhandler (k : HeaderKind) : exec .errorHandler (s.withKind k) = .next (errorHandler (s.withKind k)) :=
    exec_errorHandler (.inl hs)
  have hnoneErased := exec_hdrNoneErased hs
  refine ⟨fun b hb => (exec_hdrOther hs hb).trans (hhandler .unrecognized).symm, fun herased => ⟨?_, ?_⟩,
    fun b hb => ⟨_, exec_hdrOther hs hb⟩, fun herased => ⟨_, by rw [hnoneErased, if_pos herased]⟩,
    fun herased => by rw [hnoneErased, if_neg (by simp [herased])]⟩
  · rw [exec_hdrNone_erased hs herased]
    exact (hhandler .none).symm
  · rw [hnoneErased, if_pos herased]
    exact (hhandler .none).symm

/-! ### Invocation and the terminal states (R191, R206, R207) -/

/-- Settles O37: the two states in which `INVOKE` applies are its test, and it writes the session registers and `STATE`. -/
theorem invokeResetsSession : Obligations.InvokeResetsSession := by
  intro s
  refine ⟨fun hs => ⟨_, if_pos hs, rfl, rfl, rfl, rfl, rfl, ?_, ?_, ⟨rfl, rfl, rfl, rfl, rfl⟩, ⟨rfl, rfl, rfl, rfl⟩,
    ⟨rfl, rfl, rfl, rfl⟩, fun _ => rfl, rfl⟩, fun hs => if_neg ?_⟩
  · simp [sends, sessionReset, Event.sent]
  · simp [noMemoryCall, sessionReset, Event.isMemory]
  · rcases hs with hs | hs | hs <;> simp [hs]

/-- After control has gone to the application the block takes no step of its own (R206, I22). -/
theorem step_afterAppJump {s : State} (hs : s.state = .terminalSuccess) (hp : s.pos = .left) (hok : s.cfg.Ok)
    (hr : s.env.resetIn = none) : step s = .fault .applicationRuns := by
  simp only [step, if_pos hok, nextOp, hp, operationAfterLeaving, hs, reduceCtorEq, false_and, if_false, stuckStep, hr,
    stuckFault]

/-- After the return to a caller that issues no further `Invoke` the block takes no step of its own (R207, I23). -/
theorem step_afterReturn {s : State} (hs : s.state = .terminalAbort) (hp : s.pos = .left) (hok : s.cfg.Ok)
    (hr : s.env.resetIn = none) (hi : s.env.invokes = 0) : step s = .fault .returnedToCaller := by
  simp only [step, if_pos hok, nextOp, hp, operationAfterLeaving, hi, ne_eq, not_true_eq_false, and_false, if_false,
    stuckStep, hr, stuckFault, hs]

/-- Settles O52: each operation moves the position out of the block, where no operation comes next. -/
theorem terminalOperations : Obligations.TerminalOperations := by
  intro s
  exact ⟨fun hs hp => ⟨_, exec_appJump hs hp, hs, sameRegisters_of_eq rfl, rfl, step_afterAppJump hs rfl⟩,
    fun hs hp => ⟨_, exec_returnToCaller hs hp, hs, sameRegisters_of_eq rfl, rfl, step_afterReturn hs rfl⟩,
    fun hs hp => (if_pos hs).trans (if_pos hp), fun hs hp => (if_pos hs).trans (if_pos hp), fun hs => if_neg hs,
    fun hs => if_neg hs⟩

/-! ### Where the operations are refused by name (logs 9, 28) -/

/-- A packet needs `AWAIT_HEADER`, whatever its bytes (R192; log 9). -/
theorem exec_packet_refused {s : State} {i : Instr} (hs : s.state ≠ .awaitHeader) (hi : isPacket i = true) :
    exec i s = .refused .notApplicable := by
  cases i with
  | pkt128 seqB cmpB payload high low => exact (if_pos (by simpa [isPacket] using hi)).trans (onlyIn_refused _ hs)
  | pkt1k seqB cmpB payload high low => exact (if_pos (by simpa [isPacket] using hi)).trans (onlyIn_refused _ hs)
  | _ => cases hi

/-- A step of `RECEIVE_PACKET` that needs the packet's size is refused without one, in every `STATE` (R88; log 9). -/
theorem onlyIn_withPacketSize_refused {s : State} {st : EngineState} (k : Nat → State → Out) (hn : s.packetSize = none) :
    (onlyIn st s fun s => withPacketSize s k) = .refused .notApplicable := by
  by_cases hs : s.state = st
  · rw [onlyIn_of _ hs, withPacketSize_refused k hn]
  · exact onlyIn_refused _ hs

/-- Settles O43: each operation tests its `STATE`, its packet's size or its operand before anything else. -/
theorem operationsStopOutsideTheirRules : Obligations.OperationsStopOutsideTheirRules := by
  intro s
  refine ⟨fun hs i hi => ?_, fun b hs hb => ?_, fun i => exec_packet_refused, fun hs i hi => ?_, fun hn i hi => ?_,
    fun ha hr => if_neg (by simp [ha, hr]), fun b hb => if_pos hb, fun _ _ _ _ _ hp => if_neg hp,
    fun _ _ _ _ _ hp => if_neg hp, rfl⟩
  · simp only [List.mem_cons, List.not_mem_nil, or_false] at hi
    rcases hi with rfl | rfl | rfl | rfl | rfl | rfl | rfl <;> exact if_neg hs
  · exact (if_neg (by simp [hb])).trans (onlyIn_refused _ hs)
  · simp only [List.mem_cons, List.not_mem_nil, or_false] at hi
    rcases hi with rfl | rfl | rfl | rfl | rfl <;> exact if_neg hs
  · simp only [List.mem_cons, List.not_mem_nil, or_false] at hi
    rcases hi with rfl | rfl | rfl <;> exact onlyIn_withPacketSize_refused _ hn

end Sys2Proof.Proofs
end

section
/-! SUPPORT. The steps of `RECEIVE_PACKET` (44_receive_engine.md R199 to R204): the erase, validate and write, accept,
classify, and the whole as their sequence. -/

namespace Sys2Proof.Proofs

open Sys2Proof Sys2Proof.Machine Sys2Proof.Laws

/-! ### Step 1, the erase (R200) -/

theorem eraseStep_of_erased {s : State} (h : s.erased = true) : eraseStep s = .next s := if_pos h

/-- `ERASED` is set exactly by an `ERASE` that returned success (R200). -/
theorem noteErased_erased_iff {s : State} (h : s.erased = false) : (noteErased s).erased = true ↔ s.eFail = .empty := by
  unfold noteErased
  split
  · exact ⟨fun _ => ‹_›, fun _ => rfl⟩
  · exact ⟨fun he => absurd he (by simp [h]), fun he => absurd he ‹_›⟩

/-- Settles O45: without an erased region the step is `ERASE(APP_BASE)`, whose loop says the contents and the frame, and then
the note of its success. -/
theorem eraseStepErasesOnce : Obligations.EraseStepErasesOnce := by
  intro s hs hok
  refine ⟨fun herased => (exec_eraseStep hs).trans (eraseStep_of_erased herased), fun herased => ?_⟩
  obtain ⟨t, _, ht, hframe, _, hcontents, houtside, hanswers, _⟩ := eraseRegion_spec hok (legalErase_base hok)
  obtain ⟨hseq, hcursor, hterased, herrCnt⟩ := hframe.session
  have hstep : exec .eraseStep s = .next (noteErased (nvmLock t)) := by
    rw [exec_eraseStep hs, eraseStep, if_neg (by simp [herased]), ht, andThen_next]
  have hiff : (noteErased (nvmLock t)).erased = true ↔ t.eFail = .empty :=
    noteErased_erased_iff (s := nvmLock t) (hterased.trans herased)
  refine ⟨_, hstep, by simp, by simpa using hiff, fun he a => ?_, fun rest hrest => hiff.2 (hanswers rest hrest).1,
    fun a ha => ?_, ?_, ?_, by simpa using hseq, by simpa using hcursor, by simpa using herrCnt,
    by simpa using hframe.commFail, by simpa using hframe.vFail, by simpa using hframe.pFail, by simpa using hframe.crc,
    (noteErased_cfg _).trans hframe.cfg⟩
  · simpa using hcontents (hiff.1 he) a
  · simpa using houtside a ha
  · simpa [samePacket] using hframe.packet
  · simpa [sameControl] using hframe.control

/-! ### Steps 2 and 3, validate and write (R201) -/

theorem validateWriteStep_of_fail {s : State} {n : Nat} (h : (validatePacket n s).vFail ≠ .empty) :
    validateWriteStep n s = .next (validatePacket n s) := if_neg h

theorem validateWriteStep_of_pass {s : State} {n : Nat} (h : (validatePacket n s).vFail = .empty) :
    validateWriteStep n s = writeRegion s.cursor (packetWords n s) (validatePacket n s) := if_pos h

/-- Settles O46: `VFAIL` after the validation decides between no interaction at all and one `WRITE`. -/
theorem validateWriteGuards : Obligations.ValidateWriteGuards := by
  intro s n hs hn
  have hstep := exec_validateWriteStep hs hn
  refine ⟨fun hok hw => ?_, validatePacket n s, exec_validate .., fun hfail => ⟨?_, rfl, fun _ => rfl⟩,
    fun hpass hw => ⟨?_, packetWords_length hn⟩⟩
  · obtain ⟨t, ht, -⟩ := validateWriteStep_completes n hok hw
    exact ⟨t, hstep.trans ht⟩
  · rw [hstep, validateWriteStep_of_fail hfail]
  · rw [hstep, validateWriteStep_of_pass hpass, exec_write (s := validatePacket n s) _ hw]
    rfl

/-! ### Step 4, accept (R202) -/

/-- `SEQ` advances modulo 256 (R202). -/
theorem toNat_succ_byte (b : Byte) : (b + 1).toNat = (b.toNat + 1) % 256 := BitVec.toNat_add b 1

/-- Settles O47: the three registers of the commit, the ACK, and nothing else. -/
theorem acceptAdvances : Obligations.AcceptAdvances := by
  intro s n hs hn
  refine ⟨_, exec_accept hs hn, rfl, toNat_succ_byte s.seq, fun hfits => ?_, by simp [sends, accept, wireAck], rfl, rfl,
    ⟨rfl, rfl, rfl, rfl, rfl⟩, ⟨rfl, rfl, rfl, rfl⟩, ⟨rfl, rfl, rfl, rfl⟩, fun _ => rfl, rfl,
    by simp [noMemoryCall, accept]⟩
  simp only [accept, enter_cursor, transmit_cursor, commitPacket_cursor, BitVec.toNat_add, BitVec.toNat_ofNat]
  omega

/-! ### Step 5, classify (R203, R204) -/

theorem classify_of_flashRelated {s : State} (h : s.failures.flashRelated = true) :
    classify s = errorHandler (escalate s) := by
  rw [classify, escalateIfFlash, if_pos h]

theorem classify_of_not_flashRelated {s : State} (h : s.failures.flashRelated = false) : classify s = errorHandler s := by
  rw [classify, escalateIfFlash, if_neg (by simp [h])]

/-- Classification writes `ERRCNT` alone of the registers, and issues no memory primitive (R203, R205). -/
theorem classify_same (s : State) :
    sameRegisters { s with errCnt := (classify s).errCnt } (classify s) ∧ noMemoryCall s (classify s) := by
  cases h : s.failures.flashRelated with
  | true =>
    rw [classify_of_flashRelated h]
    exact errorHandler_same (escalate s)
  | false =>
    rw [classify_of_not_flashRelated h]
    exact errorHandler_same s

/-- The count forced to the maximum is past it after the handler's own increment, so the handler aborts (R204). -/
theorem classify_aborts {s : State} (hok : s.cfg.Ok) (h : s.failures.flashRelated = true) :
    (classify s).state = .terminalAbort ∧ (classify s).errCnt.toNat = s.cfg.xMaxErrors.toNat + 1 ∧
      sends ([0x18#8, 0x18#8] ++ s.cfg.noticeAbort) s (classify s) := by
  obtain ⟨-, -, -, -, -, -, -, -, hmax⟩ := hok
  obtain ⟨hcount, -, habort⟩ := errorHandler_counts (s := escalate s) (Nat.lt_succ_of_le hmax)
  obtain ⟨hstate, hsends⟩ := habort (Nat.le_succ _)
  rw [classify_of_flashRelated h]
  exact ⟨hstate, hcount, hsends⟩

/-- Settles O48: the failures decide whether the handler runs from the count or from the maximum. -/
theorem classifyEscalates : Obligations.ClassifyEscalates := by
  intro s hs hok
  refine ⟨fun h => ?_, fun h => ?_⟩
  · obtain ⟨hstate, hcount, hsends⟩ := classify_aborts hok h
    exact ⟨_, exec_classify hs, hstate, hcount, hsends, (classify_same s).1⟩
  · rw [exec_classify hs, classify_of_not_flashRelated h, exec_errorHandler (.inr hs)]

/-! ### The whole of RECEIVE_PACKET (R199) -/

/-- `RECEIVE_PACKET` from its erase step's end on: validate and write where nothing has failed, then accept or classify. -/
def afterErase (n : Nat) (s : State) : Out :=
  andThen (if validateDue s then validateWriteStep n s else .next s) fun done =>
    .next (if done.failures.isEmpty then accept n done else classify done)

/-- The read, the erase step where it is due, and the rest (R199). -/
theorem receivePacket_eq (n : Nat) (s : State) :
    receivePacket n s =
      andThen (if eraseDue (readPacket n (clearFailures s)) then eraseStep (readPacket n (clearFailures s))
        else .next (readPacket n (clearFailures s))) (afterErase n) := rfl

/-- The registers that say which packet is being received and where it goes. -/
abbrev sameTask (s t : State) : Prop :=
  t.state = s.state ∧ t.hdrKind = s.hdrKind ∧ t.cursor = s.cursor ∧ t.cfg = s.cfg

/-- The erase step completes where it is due, for the same packet. -/
theorem eraseIfDue_completes {s : State} (hok : s.cfg.Ok) (he : s.eFail = .empty) :
    ∃ ready, (if eraseDue s then eraseStep s else .next s) = .next ready ∧ sameTask s ready := by
  split
  · obtain ⟨ready, hready, -, hcursor, -, ⟨hkind, -⟩, ⟨hstate, -⟩, -, -, -, hcfg, -⟩ := eraseStep_spec hok he
    exact ⟨ready, hready, hstate, hkind, hcursor, hcfg⟩
  · exact ⟨s, rfl, rfl, rfl, rfl, rfl⟩

/-- Validate and write complete where they are due, for the same packet. -/
theorem validateIfDue_completes {s : State} (n : Nat) (hok : s.cfg.Ok) (hw : legalWrite s.cfg s.cursor) :
    ∃ done, (if validateDue s then validateWriteStep n s else .next s) = .next done ∧ sameTask s done := by
  split
  · obtain ⟨done, hdone, ⟨-, hcursor, -⟩, ⟨hstate, -⟩, ⟨hkind, -⟩, -, -, hcfg, -⟩ := validateWriteStep_completes n hok hw
    exact ⟨done, hdone, hstate, hkind, hcursor, hcfg⟩
  · exact ⟨s, rfl, rfl, rfl, rfl, rfl⟩

/-- A step that runs where it is due: it ran to `t`, or `t` is where it began. -/
theorem of_runIfDue {b : Bool} {c : Prop} [Decidable c] {o o' : Out} {s t : State} (hbc : b = true ↔ c) (ho : o' = o)
    (h : (if b then o else .next s) = .next t) : if c then o' = .next t else t = s := by
  subst ho
  by_cases hb : b = true
  · rw [if_pos (hbc.1 hb)]
    rwa [if_pos hb] at h
  · rw [if_neg fun hc => hb (hbc.2 hc)]
    rw [if_neg hb] at h
    cases h
    rfl

theorem eraseDue_iff (s : State) : eraseDue s = true ↔ s.commFail = false ∨ s.cfg.eraseOnCommError = true := by
  simp [eraseDue]

theorem validateDue_iff (s : State) : validateDue s = true ↔ s.commFail = false ∧ s.eFail = .empty := by
  simp [validateDue]

/-- After the handler the engine waits for a header, or the session is aborted (R205). -/
theorem errorHandler_state (s : State) :
    (errorHandler s).state = .awaitHeader ∨ (errorHandler s).state = .terminalAbort := by
  unfold errorHandler
  dsimp only
  split
  · exact .inr rfl
  · exact .inl rfl

/-- Settles O49: each step is run where its condition holds and completes, and the next begins where it ended. -/
theorem receivePacketFollowsItsSteps : Obligations.ReceivePacketFollowsItsSteps := by
  intro s n hs hn hok hw
  have hsize : isPayloadSize n = true := by obtain rfl | rfl := packetSize_cases hn <;> rfl
  obtain ⟨⟨-, rcursor, -⟩, ⟨rstate, -⟩, -, -, rcfg, rkind, rflags, -⟩ := readPacket_frame n (clearFailures s)
  have hreceive := (exec_receivePacketStep hs hn).trans (receivePacket_eq n s)
  generalize hread : readPacket n (clearFailures s) = read at *
  obtain ⟨ready, hready, ystate, ykind, ycursor, ycfg⟩ := eraseIfDue_completes (s := read) (rcfg ▸ hok) rflags
  have ycfg' : ready.cfg = s.cfg := ycfg.trans rcfg
  have ycursor' : ready.cursor = s.cursor := ycursor.trans rcursor
  obtain ⟨done, hdone, dstate, dkind, -, -⟩ :=
    validateIfDue_completes (s := ready) n (by rw [ycfg']; exact hok) (by rw [ycfg', ycursor']; exact hw)
  have hrs : read.state = .receivePacket := rstate.trans hs
  have hys : ready.state = .receivePacket := ystate.trans hrs
  have hds : done.state = .receivePacket := dstate.trans hys
  have hyn : ready.packetSize = some n := (packetSize_congr (ykind.trans rkind)).trans hn
  have hdn : done.packetSize = some n := (packetSize_congr dkind).trans hyn
  refine ⟨read, ready, done, if done.failures.isEmpty then accept n done else classify done,
    (exec_readPacket _ hsize).trans (congrArg _ hread), of_runIfDue (rcfg ▸ eraseDue_iff read) (exec_eraseStep hrs) hready,
    of_runIfDue (validateDue_iff ready) (exec_validateWriteStep hys hyn) hdone, ?_, ?_, ?_⟩
  · split
    · exact exec_accept hds hdn
    · exact exec_classify hds
  · rw [hreceive, hready, andThen_next, afterErase, hdone, andThen_next]
  · split
    · exact .inl rfl
    · exact errorHandler_state _

end Sys2Proof.Proofs
end

section
/-! SUPPORT. A whole packet on the wire and a session of packets (44_receive_engine.md R199 to R205, R215): a valid packet, a
packet with a wrong field, and the image that a list of accepted packets leaves. -/

namespace Sys2Proof.Proofs

open Sys2Proof Sys2Proof.Machine Sys2Proof.Laws

/-! ### Packets of the two sizes (R82, R83) -/

/-- The packet, of either size, with these fields. -/
abbrev PacketOf (i : Instr) (seqB cmpB : Byte) (payload : List Byte) (high low : Byte) : Prop :=
  i = .pkt128 seqB cmpB payload high low ∧ payload.length = 128 ∨
    i = .pkt1k seqB cmpB payload high low ∧ payload.length = 1024

section

variable {i : Instr} {seqB cmpB high low : Byte} {payload : List Byte} (hi : PacketOf i seqB cmpB payload high low)
include hi

/-- A packet is the arrival of its unit, whose header announces its payload's size (R84, R88; log 29). -/
theorem exec_packet :
    ∃ hdr, payloadSize (headerKind (some hdr)) = some payload.length ∧
      ∀ s, exec i s = receiveUnit (hdr :: seqB :: cmpB :: (payload ++ [high, low])) s := by
  obtain ⟨rfl, hlength⟩ | ⟨rfl, hlength⟩ := hi
  · exact ⟨wireSoh, by rw [hlength]; rfl, fun _ => if_pos hlength⟩
  · exact ⟨wireStx, by rw [hlength]; rfl, fun _ => if_pos hlength⟩

theorem packetPayload_of_packet : packetPayload i = payload := by
  obtain ⟨rfl, -⟩ | ⟨rfl, -⟩ := hi <;> rfl

/-- A payload is a whole number of words, not empty, and fits the buffer (R29, R88). -/
theorem length_of_packet : 0 < payload.length ∧ payload.length % 4 = 0 ∧ payload.length ≤ 1024 := by
  obtain ⟨-, hlength⟩ | ⟨-, hlength⟩ := hi <;> rw [hlength] <;> decide

end

theorem isPacket_cases {i : Instr} (h : isPacket i = true) :
    ∃ seqB cmpB payload high low, PacketOf i seqB cmpB payload high low := by
  cases i with
  | pkt128 seqB cmpB payload high low => exact ⟨_, _, _, _, _, .inl ⟨rfl, beq_iff_eq.1 h⟩⟩
  | pkt1k seqB cmpB payload high low => exact ⟨_, _, _, _, _, .inr ⟨rfl, beq_iff_eq.1 h⟩⟩
  | _ => cases h

/-! ### A valid packet -/

/-- A CRC word sent as its two bytes, high byte first, is received as that word (R30, R85). -/
theorem assembleCrc_extract (c : CrcWord) : assembleCrc (c.extractLsb' 8 8) (c.extractLsb' 0 8) = c := by
  apply BitVec.eq_of_toNat_eq
  rw [assembleCrc_toNat, BitVec.extractLsb'_toNat, BitVec.extractLsb'_toNat, Nat.shiftRight_eq_div_pow]
  omega

/-- Settles O50: intended answers leave no failure, so the packet is accepted, and what an accepted packet leaves is known
whatever was answered. -/
theorem validPacketAccepted : Obligations.ValidPacketAccepted := by
  intro s i restProgram hs hok haligned hbase hi hpacket hfits herases hprograms
  have hfields : PacketOf i s.seq (complement s.seq) (packetPayload i) ((crc16 (packetPayload i)).extractLsb' 8 8)
      ((crc16 (packetPayload i)).extractLsb' 0 8) := by
    rcases hi with h | h <;> rw [h] at hpacket
    · exact .inl ⟨h, beq_iff_eq.1 hpacket⟩
    · exact .inr ⟨h, beq_iff_eq.1 hpacket⟩
  obtain ⟨hdr, hsize, hexec⟩ := exec_packet hfields
  obtain ⟨t, ht, hcfg, hline, houtside, houtcome, haccepts⟩ := receiveUnit_spec hs rfl hsize rfl hok ⟨haligned, hbase⟩
  have hmoved := haccepts rfl rfl (assembleCrc_extract _).symm hfits herases ⟨restProgram, hprograms⟩
  obtain ⟨hstate, hseq, hcount, herased, hlock, hsent, hcursor, -, hwritten, helsewhere⟩ := houtcome.resolve_left hmoved
  exact ⟨t, (hexec s).trans ht, hstate, hseq, hcount, herased, hcursor, hsent, hlock, hline, hcfg, houtside, hwritten,
    helsewhere⟩

/-! ### A packet with a wrong sequence number, complement or CRC -/

/-- With `PFAIL` empty, a flash-related failure is a failed erase (R31, R232). -/
theorem flashRelated_of_pFail_empty {s : State} (h : s.pFail = .empty) :
    s.failures.flashRelated = s.eFail.eraseFailed := by
  simp [State.failures, Failures.flashRelated, h, WriteFailures.empty]

/-- A packet whose fields do not pass is classified: nothing but the Validator's registers is written before (R201, R203). -/
theorem afterErase_rejects {s : State} {n : Nat}
    (hbad : validateFailures s.seqB s.cmpB (s.payloadBytes n) s.rxCrc s.seq ≠ .empty) :
    ∃ vFail crc, afterErase n s = .next (classify { s with vFail := vFail, crc := crc }) := by
  unfold afterErase
  by_cases hdue : validateDue s = true
  · have hfailed : ¬(validatePacket n s).failures.isEmpty = true := fun h =>
      hbad ((failures_isEmpty_iff _).1 h).2.2.1
    rw [if_pos hdue, validateWriteStep_of_fail hbad, andThen_next, if_neg hfailed]
    exact ⟨_, _, rfl⟩
  · have hfailed : ¬s.failures.isEmpty = true := fun h => by
      obtain ⟨hcomm, herase, -⟩ := (failures_isEmpty_iff s).1 h
      exact hdue ((validateDue_iff s).2 ⟨hcomm, herase⟩)
    rw [if_neg hdue, andThen_next, if_neg hfailed]
    exact ⟨s.vFail, s.crc, rfl⟩

/-- The state `u` in which a packet is classified that was read whole in `s` and has a wrong field: only the erase step has
touched the array and the programmer's registers (R199, R200). -/
structure RejectedAt (s u : State) : Prop where
  seq : u.seq = s.seq
  cursor : u.cursor = s.cursor
  errCnt : u.errCnt = s.errCnt
  cfg : u.cfg = s.cfg
  line : u.env.line = s.env.line
  sent : sentBytes u.trace = sentBytes s.trace
  pFail : u.pFail = .empty
  skipped : s.erased = true → u.eFail = .empty ∧ u.erased = true ∧ noMemoryCall s u ∧ sameArray s u ∧ u.lock = s.lock ∧
    u.pAddr = s.pAddr ∧ u.pIdx = s.pIdx
  locked : s.erased = false → u.lock = true ∧ sameArrayOutside s.cfg.appBase.toNat s.cfg.appEnd.toNat s u
  erased : s.erased = false →
    ∀ rest, s.env.eraseAnswers = List.replicate (pageCount s.cfg s.cfg.appBase) .ok ++ rest →
      u.eFail = .empty ∧ u.erased = true ∧
        ∀ a, s.cfg.appBase.toNat ≤ a → a < s.cfg.appEnd.toNat → u.nvm.read a = s.cfg.erasedByte
  eraseFailed : s.erased = false →
    ∀ k rest, k < pageCount s.cfg s.cfg.appBase → s.env.eraseAnswers = List.replicate k .ok ++ .fail :: rest →
      u.eFail = ⟨true⟩ ∧ u.erased = false

/-- A packet with a wrong field is read whole, the erase step runs, and the packet is classified (R199). -/
theorem exec_packet_rejects {s : State} {i : Instr} {seqB cmpB high low : Byte} {payload : List Byte}
    (hs : s.state = .awaitHeader) (hok : s.cfg.Ok) (hi : PacketOf i seqB cmpB payload high low)
    (hbad : validateFailures seqB cmpB payload (assembleCrc high low) s.seq ≠ .empty) :
    ∃ u, exec i s = .next (classify u) ∧ RejectedAt s u := by
  obtain ⟨hdr, hsize, hexec⟩ := exec_packet hi
  obtain ⟨-, -, hle⟩ := length_of_packet hi
  obtain ⟨trace, read, hmemory, hsent, hread, hunit⟩ :=
    receiveUnit_arrives (seqB := seqB) (cmpB := cmpB) (high := high) (low := low) hs rfl hsize rfl
  obtain ⟨ready, hready, hseq, hcursor, herrCnt, ⟨-, hseqB, hcmpB, hpayload, hcrc⟩, -, -, -, hpFail, hcfg, hline, -,
    hsentReady, -, hlock, houtside, hsuccess, hanswered, hfailed⟩ :=
    eraseStep_spec (s := read) (by rw [hread]; exact hok) (by rw [hread])
  have hfields : ready.payloadBytes payload.length = payload := by
    rw [State.payloadBytes, hpayload, hread]
    exact (storePayload_take _ rfl hle).1
  obtain ⟨vFail, crc, hafter⟩ := afterErase_rejects (s := ready) (n := payload.length) (by
    rw [hfields, hseqB, hcmpB, hcrc, hseq, hread]
    exact hbad)
  have hskipped (he : s.erased = true) : read = ready := by
    rw [eraseStep_of_erased (by rw [hread]; exact he)] at hready
    cases hready
    rfl
  refine ⟨_, by rw [hexec, hunit, hready, andThen_next]; exact hafter, ?_⟩
  subst hread
  refine ⟨hseq, hcursor, herrCnt, hcfg, hline, hsentReady.trans hsent, hpFail, fun he => ?_, fun he => ⟨hlock he, houtside⟩,
    fun he rest hrest => ?_, hfailed⟩
  · cases hskipped he
    exact ⟨rfl, he, hmemory, fun _ => rfl, rfl, rfl, rfl⟩
  · have heFail := hanswered fun _ => ⟨rest, hrest⟩
    obtain ⟨herased, hcontents⟩ := hsuccess heFail
    exact ⟨heFail, herased, fun a hlo hhi => (hcontents a hlo hhi).trans (if_neg (by simp [he]))⟩

/-- Where the erase step has not failed, such a packet is counted once (R203, R205). -/
theorem RejectedAt.counted {s u : State} (h : RejectedAt s u) (hcount : s.errCnt.toNat < 255) (he : u.eFail = .empty) :
    countedOnce s (classify u) := by
  have hflash : u.failures.flashRelated = false := by rw [flashRelated_of_pFail_empty h.pFail, he]; rfl
  rw [classify_of_not_flashRelated hflash]
  have hcounts := errorHandler_counts (s := u) (by rw [h.errCnt]; exact hcount)
  simpa only [countedOnce, sends, h.errCnt, h.cfg, h.sent] using hcounts

/-- Where it has failed, the session aborts with the count forced to the maximum (R204). -/
theorem RejectedAt.aborted {s u : State} (h : RejectedAt s u) (hok : s.cfg.Ok) (he : u.eFail = ⟨true⟩) :
    (classify u).state = .terminalAbort ∧ (classify u).errCnt.toNat = s.cfg.xMaxErrors.toNat + 1 ∧
      sends ([0x18#8, 0x18#8] ++ s.cfg.noticeAbort) s (classify u) := by
  have hflash : u.failures.flashRelated = true := by rw [flashRelated_of_pFail_empty h.pFail, he]
  have haborts := classify_aborts (by rw [h.cfg]; exact hok) hflash
  simpa only [sends, h.cfg, h.sent] using haborts

/-- Settles O51: the packet is classified after its erase step, from the flags that step left, and classification leaves all
but the count as it was then. -/
theorem invalidPacketRejected : Obligations.InvalidPacketRejected := by
  intro s i seqB cmpB payload high low hs hok hcount hi hbad
  obtain ⟨u, hexec, hu⟩ := exec_packet_rejects hs hok hi (validate_fails hbad)
  obtain ⟨⟨⟨hseq, hcursor, herased, -⟩, -, -, ⟨hlock, hpAddr, hpIdx, -⟩, harray, hcfg⟩, hmemory⟩ := classify_same u
  obtain ⟨-, -, hline⟩ := classify_frame u
  refine ⟨classify u, hexec, hseq.trans hu.seq, hcursor.trans hu.cursor, hline.trans hu.line, hcfg.trans hu.cfg,
    fun he => ?_, fun he => ?_⟩
  · obtain ⟨heFail, huerased, humemory, huarray, hulock, hupAddr, hupIdx⟩ := hu.skipped he
    exact ⟨hu.counted hcount heFail, herased.trans huerased, hmemory.trans humemory, fun a => (harray a).trans (huarray a),
      hlock.trans hulock, hpAddr.trans hupAddr, hpIdx.trans hupIdx⟩
  · obtain ⟨hulock, huoutside⟩ := hu.locked he
    refine ⟨hlock.trans hulock, fun a ha => (harray a).trans (huoutside a ha), fun rest hrest => ?_,
      fun k rest hk hrest => ?_⟩
    · obtain ⟨heFail, huerased, hcontents⟩ := hu.erased he rest hrest
      exact ⟨hu.counted hcount heFail, herased.trans huerased, fun a hlo hhi => (harray a).trans (hcontents a hlo hhi)⟩
    · obtain ⟨heFail, huerased⟩ := hu.eraseFailed he k rest hk hrest
      obtain ⟨hstate, hmax, hsends⟩ := hu.aborted hok heFail
      exact ⟨hstate, herased.trans huerased, hmax, hsends⟩

/-! ### A session of packets (R215) -/

/-- What the acceptance of a packet with `payload` in `s` leaves, whatever the environment answered (R200 to R202). -/
structure Accepted (payload : List Byte) (s t : State) : Prop where
  seq : t.seq = s.seq + 1
  errCnt : t.errCnt = 0
  erased : t.erased = true
  cursor : t.cursor.toNat = s.cursor.toNat + payload.length
  fits : t.cursor.toNat ≤ s.cfg.appEnd.toNat
  written : ∀ k b, payload[k]? = some b → t.nvm.read (s.cursor.toNat + k) = b
  elsewhere : ∀ a, a < s.cursor.toNat ∨ s.cursor.toNat + payload.length ≤ a → s.cfg.appBase.toNat ≤ a →
    a < s.cfg.appEnd.toNat → t.nvm.read a = if s.erased = true then s.nvm.read a else s.cfg.erasedByte

/-- So is the payload of an operation that is a packet. -/
theorem packetPayload_length {i : Instr} (h : isPacket i = true) :
    0 < (packetPayload i).length ∧ (packetPayload i).length % 4 = 0 := by
  obtain ⟨seqB, cmpB, payload, high, low, hi⟩ := isPacket_cases h
  obtain ⟨hpos, hwords, -⟩ := length_of_packet hi
  rw [packetPayload_of_packet hi]
  exact ⟨hpos, hwords⟩

/-- A packet that ran was accepted, or it left `CURSOR` where it was (R202, R203). -/
theorem exec_packet_outcome {s t : State} {i : Instr} (hpacket : isPacket i = true) (hok : s.cfg.Ok)
    (hw : legalWrite s.cfg s.cursor) (hexec : exec i s = .next t) :
    t.cfg = s.cfg ∧ (t.cursor = s.cursor ∨ Accepted (packetPayload i) s t) := by
  obtain ⟨seqB, cmpB, payload, high, low, hi⟩ := isPacket_cases hpacket
  obtain ⟨hdr, hsize, hunit⟩ := exec_packet hi
  rw [hunit] at hexec
  obtain ⟨hs, -⟩ := onlyIn_eq_next hexec
  obtain ⟨t', ht', hcfg, -, -, houtcome, -⟩ := receiveUnit_spec (seqB := seqB) (cmpB := cmpB) (high := high) (low := low)
    hs rfl hsize rfl hok hw
  cases ht'.symm.trans hexec
  refine ⟨hcfg, houtcome.imp_right fun h => ?_⟩
  obtain ⟨-, hseq, herrCnt, herased, -, -, hcursor, hfits, hwritten, helsewhere⟩ := h
  rw [packetPayload_of_packet hi]
  exact ⟨hseq, herrCnt, herased, hcursor, hfits, hwritten, helsewhere⟩

/-- `CURSOR` stays a legal operand of `WRITE` and advances by no more than the payload (R202, R142). -/
theorem exec_packet_cursor {s t : State} {i : Instr} (hpacket : isPacket i = true) (hok : s.cfg.Ok)
    (hw : legalWrite s.cfg s.cursor) (hexec : exec i s = .next t) :
    legalWrite t.cfg t.cursor ∧ t.cursor.toNat ≤ s.cursor.toNat + (packetPayload i).length := by
  obtain ⟨hcfg, hkept | haccepted⟩ := exec_packet_outcome hpacket hok hw hexec
  · rw [hcfg, hkept]
    exact ⟨hw, Nat.le_add_right _ _⟩
  · obtain ⟨haligned, hbase⟩ := hw
    obtain ⟨-, hwords⟩ := packetPayload_length hpacket
    rw [hcfg, legalWrite, haccepted.cursor]
    omega

/-- Packets advance `CURSOR` by no more than their image. -/
theorem runAll_cursor_le (packets : List Instr) {s t : State} (hpackets : ∀ i ∈ packets, isPacket i = true)
    (hok : s.cfg.Ok) (hw : legalWrite s.cfg s.cursor) (hrun : runAll packets s = .next t) :
    t.cursor.toNat ≤ s.cursor.toNat + (imageOf packets).length := by
  induction packets generalizing s with
  | nil =>
    cases hrun
    exact Nat.le_add_right _ _
  | cons i is ih =>
    obtain ⟨u, hexec, hrest⟩ := andThen_eq_next hrun
    obtain ⟨hi, his⟩ := List.forall_mem_cons.1 hpackets
    obtain ⟨hcfg, -⟩ := exec_packet_outcome hi hok hw hexec
    obtain ⟨hwu, hle⟩ := exec_packet_cursor hi hok hw hexec
    have := ih his (by rw [hcfg]; exact hok) hwu hrest
    rw [imageOf, List.flatMap_cons, List.length_append, ← imageOf]
    omega

/-- The packets accepted so far have left exactly `image` in the region (R215); before the first one nothing has been erased. -/
structure Imaged (image : List Byte) (s : State) : Prop where
  cursor : s.cursor.toNat = s.cfg.appBase.toNat + image.length
  begun : image = [] → s.erased = false
  erased : image ≠ [] → s.erased = true
  errCnt : image ≠ [] → s.errCnt = 0
  fits : image ≠ [] → s.cursor.toNat ≤ s.cfg.appEnd.toNat
  written : ∀ k b, image[k]? = some b → s.nvm.read (s.cfg.appBase.toNat + k) = b
  above : image ≠ [] → ∀ a, s.cursor.toNat ≤ a → a < s.cfg.appEnd.toNat → s.nvm.read a = s.cfg.erasedByte

/-- One more accepted packet extends the image by its payload. -/
theorem Imaged.append {image payload : List Byte} {s t : State} (h : Imaged image s) (hne : payload ≠ [])
    (hcfg : t.cfg = s.cfg) (ha : Accepted payload s t) : Imaged (image ++ payload) t where
  cursor := by rw [ha.cursor, h.cursor, hcfg, List.length_append, Nat.add_assoc]
  begun he := absurd (List.append_eq_nil_iff.1 he).2 hne
  erased _ := ha.erased
  errCnt _ := ha.errCnt
  fits _ := by rw [hcfg]; exact ha.fits
  written k b hk := by
    rw [hcfg]
    by_cases hlt : k < image.length
    · rw [List.getElem?_append_left hlt] at hk
      have hne : image ≠ [] := List.ne_nil_of_length_pos (Nat.zero_lt_of_lt hlt)
      have := h.cursor
      have := h.fits hne
      rw [ha.elsewhere _ (.inl (by omega)) (Nat.le_add_right _ _) (by omega), if_pos (h.erased hne)]
      exact h.written k b hk
    · rw [List.getElem?_append_right (by omega)] at hk
      have := ha.written _ b hk
      rwa [h.cursor, show s.cfg.appBase.toNat + image.length + (k - image.length) = s.cfg.appBase.toNat + k by omega] at this
  above _ a hlo hhi := by
    rw [hcfg] at hhi ⊢
    rw [ha.cursor] at hlo
    have := h.cursor
    rw [ha.elsewhere a (.inr hlo) (by omega) hhi]
    by_cases he : image = []
    · rw [if_neg (by simp [h.begun he])]
    · rw [if_pos (h.erased he)]
      exact h.above he a (by omega) hhi

/-- Packets that advance `CURSOR` by all of their image have all been accepted: a rejected one leaves the others too little
to advance it by (R215). -/
theorem Imaged.runAll (packets : List Instr) {image : List Byte} {s t : State} (h : Imaged image s)
    (hpackets : ∀ i ∈ packets, isPacket i = true) (hok : s.cfg.Ok) (hw : legalWrite s.cfg s.cursor)
    (hrun : runAll packets s = .next t) (hcursor : t.cursor.toNat = s.cursor.toNat + (imageOf packets).length) :
    Imaged (image ++ imageOf packets) t ∧ t.cfg = s.cfg ∧ t.seq.toNat = (s.seq.toNat + packets.length) % 256 := by
  induction packets generalizing image s with
  | nil =>
    cases hrun
    have hlt : t.seq.toNat < 256 := t.seq.isLt
    exact ⟨by simpa [imageOf] using h, rfl, (Nat.mod_eq_of_lt hlt).symm⟩
  | cons i is ih =>
    obtain ⟨u, hexec, hrest⟩ := andThen_eq_next hrun
    obtain ⟨hi, his⟩ := List.forall_mem_cons.1 hpackets
    obtain ⟨hpos, -⟩ := packetPayload_length hi
    obtain ⟨hcfg, houtcome⟩ := exec_packet_outcome hi hok hw hexec
    obtain ⟨hwu, -⟩ := exec_packet_cursor hi hok hw hexec
    have hoku : u.cfg.Ok := by rw [hcfg]; exact hok
    have hle := runAll_cursor_le is his hoku hwu hrest
    have himage : imageOf (i :: is) = packetPayload i ++ imageOf is := List.flatMap_cons
    rw [himage, List.length_append] at hcursor
    have haccepted : Accepted (packetPayload i) s u := by
      refine houtcome.resolve_left fun hkept => ?_
      rw [hkept] at hle
      omega
    have hu := h.append (List.ne_nil_of_length_pos hpos) hcfg haccepted
    obtain ⟨ht, htcfg, hseq⟩ := ih hu his hoku hwu hrest (by rw [hcursor, haccepted.cursor, Nat.add_assoc])
    refine ⟨by rwa [himage, ← List.append_assoc], htcfg.trans hcfg, ?_⟩
    rw [hseq, haccepted.seq, toNat_succ_byte, List.length_cons]
    omega

/-- Settles O53: the session begins with the empty image, and every packet of it was accepted. -/
theorem sessionLeavesImage : Obligations.SessionLeavesImage := by
  intro s t packets hok _ herased hcursor hpackets hne hrun htcursor
  have hw : legalWrite s.cfg s.cursor := by
    obtain ⟨-, haligned, -⟩ := hok
    rw [hcursor]
    exact ⟨haligned, le_rfl⟩
  have hstart : Imaged [] s := ⟨by rw [hcursor]; rfl, fun _ => herased, by simp, by simp, by simp, by simp, by simp⟩
  obtain ⟨himage, hcfg, hseq⟩ := hstart.runAll packets hpackets hok hw hrun (by rw [htcursor, hcursor])
  rw [List.nil_append] at himage
  have hsome : imageOf packets ≠ [] := by
    obtain ⟨i, hi⟩ := List.exists_mem_of_ne_nil packets hne
    obtain ⟨hpos, -⟩ := packetPayload_length (hpackets i hi)
    intro hnil
    exact List.ne_nil_of_length_pos hpos (List.flatMap_eq_nil_iff.1 hnil i hi)
  rw [← hcfg]
  exact ⟨himage.written, himage.above hsome, himage.fits hsome, himage.erased hsome, himage.errCnt hsome, hseq⟩

end Sys2Proof.Proofs
end

section
/-! SUPPORT. `RECEIVE_PACKET_STEP` as the steps of the machine (44_receive_engine.md R199, 00_scope.md R9): the four reads of a
packet as four steps, and the steps after them. -/

namespace Sys2Proof.Proofs

open Sys2Proof Sys2Proof.Machine Sys2Proof.Laws

/-- `READ_PACKET` inside `RECEIVE_PACKET`, from the cleared flags on (R177, R199). -/
theorem readPacket_clearFailures (n : Nat) (s : State) :
    readPacket n (clearFailures s) =
      takeCrc (receive 2 (takePayload (receive n (takeCmpB (receive 1 (takeSeqB (receive 1 (beginPacket s)))))))) := rfl

/-- Where the flags are clear, the beginning of `RECEIVE_PACKET` writes nothing (R199). -/
theorem beginPacket_of_clear {s : State} (hc : s.commFail = false) (he : s.eFail = .empty) (hv : s.vFail = .empty)
    (hp : s.pFail = .empty) : beginPacket s = s := by
  simp only [beginPacket, clearFailures, ← hc, ← he, ← hv, ← hp]

/-- Before its first read the packet's kind is known and its flags are clear (R199). -/
theorem flagsClear_at_readSequence {s : State} (h : Inv s) (hp : s.pos = .readSequence) :
    InPacket s ∧ s.commFail = false ∧ s.eFail = .empty ∧ s.vFail = .empty ∧ s.pFail = .empty :=
  positionOk_at h hp

/-- The first read of a packet is one step, from either position at the beginning of `RECEIVE_PACKET` (logs 6, 7). -/
theorem firstRead_reaches {s : State} (h : Inv s) (hr : s.env.resetIn = none) (hs : s.state = .receivePacket)
    (hp : s.pos = .start ∨ s.pos = .readSequence) :
    Reaches s ((takeSeqB (receive 1 (beginPacket s))).goto .readComplement) := by
  have hreceive := exec_receive s (Nat.le_refl 1)
  rcases hp with hp | hp
  · have hop : nextOp s = some (.receive 1) := by simp only [nextOp, firstOperation, hp, hs]
    have hstep := Reaches.operation h.1 hr hop hreceive
    rwa [hp, hs] at hstep
  · obtain ⟨-, hc, he, hv, hpf⟩ := flagsClear_at_readSequence h hp
    have hop : nextOp s = some (.receive 1) := by simp only [nextOp, hp]
    have hstep := Reaches.operation h.1 hr hop hreceive
    rw [beginPacket_of_clear hc he hv hpf]
    rwa [hp] at hstep

section

variable {s : State} (hok : s.cfg.Ok) (hr : s.env.resetIn = none)
include hok hr

/-- The second read is one step (R177). -/
theorem secondRead_reaches : Reaches (s.goto .readComplement) ((takeCmpB (receive 1 s)).goto .readPayload) := by
  have hstep := Reaches.operation (s := s.goto .readComplement) hok hr rfl (exec_receive _ (Nat.le_refl 1))
  rwa [goto_pos, advance, receive_goto, takeCmpB_goto, goto_goto] at hstep

/-- The third read is one step (R177). -/
theorem thirdRead_reaches {n : Nat} (hn : s.packetSize = some n) :
    Reaches (s.goto .readPayload) ((takePayload (receive n s)).goto .readCrc) := by
  have hop : nextOp (s.goto .readPayload) = some (.receive n) := by
    show some (Instr.receive (s.packetSize.getD 0)) = _
    rw [hn]
    rfl
  have hpos : 1 ≤ n := by obtain rfl | rfl := packetSize_cases hn <;> decide
  have hstep := Reaches.operation (s := s.goto .readPayload) hok hr hop (exec_receive _ hpos)
  rwa [goto_pos, advance, receive_goto, takePayload_goto, goto_goto] at hstep

/-- The fourth read is one step, with the computation up to the packet's next interaction (R177, R199). -/
theorem fourthRead_reaches : Reaches (s.goto .readCrc) (startErase (takeCrc (receive 2 s))) := by
  have hstep := Reaches.operation (s := s.goto .readCrc) hok hr rfl (exec_receive _ (by decide : 1 ≤ 2))
  rwa [goto_pos, advance, receive_goto, takeCrc_goto, startErase_goto] at hstep

end

/-- The four reads are four steps (R177). -/
theorem readPacket_reaches {s : State} {n : Nat} (h : Inv s) (hr : s.env.resetIn = none) (hs : s.state = .receivePacket)
    (hp : s.pos = .start ∨ s.pos = .readSequence) (hn : s.packetSize = some n) :
    Reaches s (startErase (readPacket n (clearFailures s))) := by
  have hread1 := firstRead_reaches h hr hs hp
  rw [readPacket_clearFailures]
  generalize h1 : takeSeqB (receive 1 (beginPacket s)) = r1 at *
  have hread2 := secondRead_reaches (s := r1) (by simpa [← h1] using h.1) (by simpa [← h1] using hr)
  generalize h2 : takeCmpB (receive 1 r1) = r2 at *
  have hread3 := thirdRead_reaches (s := r2) (n := n) (by simpa [← h2, ← h1] using h.1) (by simpa [← h2, ← h1] using hr)
    ((packetSize_congr (by simp [← h2, ← h1])).trans hn)
  generalize h3 : takePayload (receive n r2) = r3 at *
  have hread4 := fourthRead_reaches (s := r3) (by simpa [← h3, ← h2, ← h1] using h.1)
    (by simpa [← h3, ← h2, ← h1] using hr)
  exact ((hread1.trans hread2).trans hread3).trans hread4

/-- At both positions the packet's size is known. -/
theorem packetSize_of_inv {s : State} (h : Inv s) (hs : s.state = .receivePacket)
    (hp : s.pos = .start ∨ s.pos = .readSequence) : ∃ n, s.packetSize = some n := by
  refine Option.isSome_iff_exists.1 ?_
  rcases hp with hp | hp
  · have hstart : s.state = .receivePacket → s.packetSize.isSome = true := positionOk_at h hp
    exact hstart hs
  · obtain ⟨⟨-, hsize⟩, -⟩ := flagsClear_at_readSequence h hp
    exact hsize

/-- Settles O56: four steps make the reads, and the steps after them are those of the rest of R199. -/
theorem packetStepsRefineReceivePacket : Obligations.PacketStepsRefineReceivePacket := by
  intro s h hr hs hp
  obtain ⟨n, hn⟩ := packetSize_of_inv h hs hp
  have haborting : s.pos.aborting = false := by rcases hp with hp | hp <;> rw [hp] <;> rfl
  have hrun : Running s := .of_inv h (by rw [hs]; rfl) haborting
  obtain ⟨⟨-, hcursor, -, herrCnt⟩, -, -, -, hcfg, hkind, -⟩ := readPacket_frame n (clearFailures s)
  have hnvm : (readPacket n (clearFailures s)).nvm = s.nvm := by simp [readPacket]
  have hreset : (readPacket n (clearFailures s)).env.resetIn = none := by simpa [readPacket] using hr
  obtain ⟨t, ht, hreach⟩ := startErase_reaches (hrun.congr hnvm hcfg hcursor herrCnt) hreset
    ((packetSize_congr hkind).trans hn)
  obtain ⟨k, hk⟩ := (readPacket_reaches h hr hs hp hn).trans hreach
  exact ⟨k, t, hk, (exec_receivePacketStep hs hn).trans ht⟩

end Sys2Proof.Proofs
end

section
/-! SUPPORT. A hardware reset (70_reset_and_hazards.md R260): when the step is one, and what it leaves of the array under a
primitive it interrupts. -/

namespace Sys2Proof.Proofs

open Sys2Proof Sys2Proof.Machine Sys2Proof.Laws

/-! ### The interrupted primitive -/

/-- An interrupted erase leaves free values in its own page and nowhere else (R260). -/
theorem interruptPrimitive_erase_outside (a : Addr) (s : State) :
    sameArrayOutside a.toNat (a.toNat + s.cfg.pageSize) s (interruptPrimitive (some (.nvmErasePage a)) s) :=
  fun _ hx => read_store_outside (by simpa [freeBytes] using hx)

/-- An interrupted program leaves free values in its own word and nowhere else (R260). -/
theorem interruptPrimitive_program_outside (a : Addr) (w : NvmWord) (s : State) :
    sameArrayOutside a.toNat (a.toNat + 4) s (interruptPrimitive (some (.nvmProgramWord a w)) s) :=
  fun _ hx => read_store_outside (by simpa [freeBytes] using hx)

/-- Where neither primitive was to run, nothing is interrupted. -/
theorem interruptPrimitive_of_not_destructive {i : Option Instr} (he : ∀ a, i ≠ some (.nvmErasePage a))
    (hp : ∀ a w, i ≠ some (.nvmProgramWord a w)) (s : State) : interruptPrimitive i s = s := by
  unfold interruptPrimitive
  split
  · exact absurd rfl (he _)
  · exact absurd rfl (hp _ _)
  · rfl

theorem interruptPrimitive_env (i : Option Instr) (s : State) : (interruptPrimitive i s).env = s.env := by
  unfold interruptPrimitive
  split <;> rfl

/-! ### The reset -/

/-- Of the array a hardware reset touches the interrupted primitive's bytes only (R37). -/
theorem hardwareReset_nvm (s : State) : (hardwareReset s).nvm = (interruptPrimitive (nextOp s) s).nvm := rfl

/-- The next hardware reset comes after the first of the gaps the environment still holds (log 11). -/
theorem hardwareReset_countdown (s : State) : (hardwareReset s).env.resetIn = s.env.resetGaps.head? ∧
    (hardwareReset s).env.resetGaps = s.env.resetGaps.tail := by
  rw [← interruptPrimitive_env (nextOp s) s]
  exact ⟨rfl, rfl⟩

/-- The step is a hardware reset when the countdown is over, and at once, where one will come, in a block without a next
operation (log 11). -/
theorem step_eq_hardwareReset {s : State} (hok : s.cfg.Ok)
    (h : s.env.resetIn = some 0 ∨ (nextOp s = none ∧ s.env.resetIn ≠ none)) : step s = .next (hardwareReset s) := by
  rw [step, if_pos hok]
  cases hi : nextOp s with
  | some i =>
    have hnow : s.env.resetIn = some 0 := h.resolve_right (by simp [hi])
    exact if_pos hnow
  | none =>
    have hcomes : s.env.resetIn ≠ none := h.elim (by simp +contextual) And.right
    obtain ⟨k, hk⟩ := Option.ne_none_iff_exists'.1 hcomes
    simp only [stuckStep, hk]

/-- Settles O60: the step is the reset, which writes `STATE` and `LOCK` itself and of the array only what an interrupted
primitive leaves. -/
theorem hardwareResetEffect : Obligations.HardwareResetEffect := by
  intro s hok h
  refine ⟨hardwareReset s, step_eq_hardwareReset hok h, rfl, rfl, hardwareReset_cfg s, hardwareReset_countdown s,
    fun a hi => ?_, fun a w hi => ?_, fun he hp x => ?_⟩
  · rw [sameArrayOutside, hardwareReset_nvm, hi]
    exact interruptPrimitive_erase_outside a s
  · rw [sameArrayOutside, hardwareReset_nvm, hi]
    exact interruptPrimitive_program_outside a w s
  · rw [hardwareReset_nvm, interruptPrimitive_of_not_destructive he hp]

end Sys2Proof.Proofs
end
